-- ==== Sys2Proof/Word.lean ====
section
/-! DEFINITION. The value types of the block, each of the width spec/00_scope.md R5 gives it.
All values are unsigned (R7). -/

namespace Sys2Proof

/-- One word of the host port, `WORD_W` = 32 bits (20_memory.md R60). -/
abbrev Word := BitVec 32

/-- A word address of the host port, `ADDR_W` = 13 bits (20_memory.md R60). -/
abbrev Addr := BitVec 13

/-- A byte value or representative byte value, `BYTE_W` = 8 bits. -/
abbrev ByteVal := BitVec 8

/-- A node's frequency, `SUM_W` = 40 bits. -/
abbrev Freq := BitVec 40

/-- A node index, `IDX_W` = 9 bits. -/
abbrev NodeIdx := BitVec 9

end Sys2Proof
end

