-- ==== Sys2Proof/Config.lean ====
section
/-! DEFINITION. What one implementation fixes (spec/00_scope.md R5, spec/10_state.md R34, R43), and the one free value
of the spec: the data of a busy-time read (spec/00_scope.md R8 `any32()`, spec/20_memory.md R73). -/

namespace Sys2Proof

/-- Which of several exactly tied candidates a minimum scan keeps (00_scope.md R5, `TIE_KEEP`). -/
inductive TieKeep where
  | lowestIndex
  | highestIndex
  deriving DecidableEq, Repr

/-- HTB-256 keeps the candidate at the lowest position (00_scope.md R5; 90_conflicts.md C1; log 15). -/
def Config.tieKeep : TieKeep := .lowestIndex

/-- `any32()`: a 32-bit value about which nothing is known (00_scope.md R8). The argument numbers the draw, so that two
draws need not agree; it has no body, so a statement about it holds for every value (log 4). -/
opaque Config.any32 : Nat → Word

/-- Register `ID`: ASCII "HTB1" (10_state.md R34). -/
def Config.idWord : Word := 0x48544231

/-- Register `PARAMS` (10_state.md R43). -/
def Config.paramsWord : Word := 0x01002820

/-- The greatest number of entries a traversal pops: one per node-store entry (42_codebook.md R161, "at most 511"). -/
def Config.maxPops : Nat := 511

/-- `CODE_MAX`: the greatest code length in symbols (00_scope.md R5, 42_codebook.md R165). -/
def Config.codeMax : Nat := 255

end Sys2Proof
end

