-- ==== Sys2Proof/Syntax.lean ====
section
/-! DEFINITION. The commands of HTB-CMD version 1: one constructor per row of spec/opcode_table.json
(spec/30_encoding.md R91). -/

namespace Sys2Proof

/-- The nine commands. Only `CMP` has operands: two node indices, "each read as an unsigned number 0 to 511"
(30_encoding.md R92; log 22). -/
inductive Instr where
  | nop
  | clrf
  | init
  | step
  | build
  | derive
  | run
  | cmp (a b : Nat)
  | srst
  deriving DecidableEq, Repr

end Sys2Proof
end

