-- ==== Sys2Proof/WellFormed.lean ====
section
/-! DEFINITION. When a term of `Instr` is a command the block has: its operands fit their 9-bit fields
(spec/30_encoding.md R90, R92). The value 511 fits the field, so it is well-formed here and refused by the machine
(`BAD_OPERAND`, R92). -/

namespace Sys2Proof

/-- A number that fits a 9-bit operand field. -/
def operandFits (n : Nat) : Bool := n < 512

def Instr.wellFormed : Instr → Bool
  | .nop => true
  | .clrf => true
  | .init => true
  | .step => true
  | .build => true
  | .derive => true
  | .run => true
  | .cmp a b => operandFits a && operandFits b
  | .srst => true

/-- The command can be written as a command word. -/
abbrev Instr.WellFormed (i : Instr) : Prop := i.wellFormed = true

end Sys2Proof
end

