-- ==== Sys2Proof/Decode.lean ====
section
/-! DEFINITION. The command word (spec/30_encoding.md R90 to R95): its fields, the legality predicate, the decoder, total
on all words and rejecting by name, and the encoder. -/

namespace Sys2Proof

/-- Why a word is no command (30_encoding.md R95). -/
inductive DecodeError where
  /-- opcode `0x9` to `0xF` -/
  | reservedOpcode
  /-- a reserved bit of the opcode's format is set (R93) -/
  | reservedBits
  deriving DecidableEq, Repr

/-- `OP`, bits 3:0 (R90). -/
def opField (w : Word) : BitVec 4 := w.extractLsb' 0 4

/-- `A`, bits 12:4 (R90). -/
def aField (w : Word) : NodeIdx := w.extractLsb' 4 9

/-- `B`, bits 21:13 (R90). -/
def bField (w : Word) : NodeIdx := w.extractLsb' 13 9

/-- `RSV`, bits 31:22 (R90). -/
def rsvField (w : Word) : BitVec 10 := w.extractLsb' 22 10

/-- Bits 31:4, all reserved in a command without operands (R93). -/
def upperField (w : Word) : BitVec 28 := w.extractLsb' 4 28

/-- The legality predicate of R94, as it stands there. -/
def legalForm (w : Word) : Bool :=
  decide (opField w ≤ 8) &&
    ((opField w == 7 && rsvField w == 0) || (opField w != 7 && upperField w == 0))

/-- A command without operands: its upper bits must be zero (R93). -/
def plainCommand (w : Word) (i : Instr) : Except DecodeError Instr :=
  if upperField w = 0 then .ok i else .error .reservedBits

/-- The decoder (R91, R93, R94). -/
def decode (w : Word) : Except DecodeError Instr :=
  match (opField w).toNat with
  | 0 => plainCommand w .nop
  | 1 => plainCommand w .clrf
  | 2 => plainCommand w .init
  | 3 => plainCommand w .step
  | 4 => plainCommand w .build
  | 5 => plainCommand w .derive
  | 6 => plainCommand w .run
  | 7 => if rsvField w = 0 then .ok (.cmp (aField w).toNat (bField w).toNat) else .error .reservedBits
  | 8 => plainCommand w .srst
  | _ => .error .reservedOpcode

/-- The command word: `(B << 13) | (A << 4) | OP` (R90, R91). -/
def encode : Instr → Word
  | .nop => 0x00000000
  | .clrf => 0x00000001
  | .init => 0x00000002
  | .step => 0x00000003
  | .build => 0x00000004
  | .derive => 0x00000005
  | .run => 0x00000006
  | .cmp a b => (BitVec.ofNat 32 b <<< 13) ||| (BitVec.ofNat 32 a <<< 4) ||| 0x00000007
  | .srst => 0x00000008

/-- The command word whose bits are `w`, numbered as spec/opcode_table.json numbers them, in `nbits` bits, the bits above
zero. Every command is one 32-bit word (R97); a number that does not fit is no command (log 21). -/
def tableWord (nbits w : Nat) : Option Word :=
  if nbits ≤ 32 ∧ w < 2 ^ nbits then some (BitVec.ofNat 32 w) else none

/-- What the decoder reads from that word. -/
def decodeTableWord (nbits w : Nat) : Option Instr :=
  match tableWord nbits w with
  | some v => (decode v).toOption
  | none => none

end Sys2Proof
end

