-- ==== Sys2Proof/Machine/State.lean ====
section
/-! DEFINITION. The state of the block (spec/10_state.md R20: "the following elements and nothing else"), the model's own
three fields beside it (the events still to come, the words reads have returned, the number of free values drawn), and
the state after reset (R49). Plain data throughout. -/

namespace Sys2Proof.Machine

/-- `PHASE` (10_state.md R29). -/
inductive Phase where
  /-- 0: no construction is current -/
  | empty
  /-- 1: the leaves exist and merges remain -/
  | building
  /-- 2: the construction is finished -/
  | tree
  /-- 3: as `tree`, and the code book is derived -/
  | codes
  deriving DecidableEq, Repr

/-- A valid node-store entry, the two-case sum of 10_state.md R23: "A model represents a valid entry as
`leaf(byte, freq)` or `node(rep, freq, left, right)`". An entry that is not valid is the absent option; both it and a
leaf have the child fields 0 that R22 gives them (log 6). -/
inductive Node where
  | leaf (byte : ByteVal) (freq : Freq)
  | internal (rep : ByteVal) (freq : Freq) (left right : NodeIdx)
  deriving DecidableEq, Repr

/-- A valid code-book entry (10_state.md R28): its length in symbols, and symbol `i` in bit `i`. "The option is the
`valid` bit" (log 7). -/
structure Code where
  len : BitVec 8
  bits : BitVec 256
  deriving DecidableEq, Repr

/-- One atomic event of an execution (20_memory.md R74: "a single sequence of atomic events (transactions and completion
steps)"), and the reset input (70_reset_and_hazards.md R220). -/
inductive Event where
  /-- `MemRead(addr, 1)` -/
  | read (addr : Addr)
  /-- `MemWrite(addr, 1, data)` -/
  | write (addr : Addr) (data : Word)
  /-- the sequencer's turn: its step, if it has one (43_system.md R183) -/
  | completion
  /-- a pulse of `rst_n` (log 14) -/
  | hardReset
  deriving DecidableEq, Repr

/-- Why the machine stops. The block itself never does (43_system.md R184): each reason stands for states that no run
reaches, to which the spec gives no effect, and the invariant `BlockInv` of Safety.lean excludes all three. -/
inductive Fault where
  /-- Raised by the completion of `STEP`, `BUILD` or `RUN` when a merge has no two members to select or no free
  node-store entry (41_tree_builder.md R129 "Requires `len(WC) >= 2`", R135). Safe: the model stops where the spec says
  nothing (log 9). -/
  | mergeImpossible
  /-- Raised by the completion of `DERIVE` or `RUN` when the traversal pops more than 511 entries or passes 255 symbols
  (42_codebook.md R161, R165). Safe (log 10). -/
  | traversalUnbounded
  /-- Raised by the sequencer's step when `CUR_CMD` holds no command that issue latches (43_system.md R182). Safe
  (log 11). -/
  | latchedWordNotACommand
  deriving DecidableEq, Repr

/-- Why an instruction has no meaning. -/
inductive Refusal where
  /-- Raised by no arm of `exec`: every command has its meaning. Safe. -/
  | notModelled (mnemonic : String)
  deriving DecidableEq, Repr

structure State where
  /-- `FT`, the frequency table (10_state.md R21) -/
  ft : Vector Word 256
  /-- `NODE`, the node store (R22) -/
  nodes : Vector (Option Node) 511
  /-- `WC`, the working collection, first end first (R25) -/
  wc : List NodeIdx
  /-- `NODE_NEXT`, 0 to 511 (R26) -/
  nodeNext : Nat
  /-- `LEAF_COUNT`, 0 to 256 (R26) -/
  leafCount : Nat
  /-- `ROOT_IDX` (R27) -/
  rootIdx : NodeIdx
  /-- `ROOT_VALID` (R27) -/
  rootValid : Bool
  /-- `CB`, the code book (R28) -/
  cb : Vector (Option Code) 256
  /-- `PHASE` (R29) -/
  phase : Phase
  /-- `BUSY` (R30) -/
  busy : Bool
  /-- `CUR_CMD` (R30) -/
  curCmd : Word
  /-- `CMPRES` (R31) -/
  cmpRes : Bool
  /-- `IEN` (R32) -/
  ien : BitVec 2
  /-- `IPEND`: bit 0 `DONE`, bit 1 `ERR` (R32) -/
  ipend : BitVec 2
  /-- `ERRCODE` (R32) -/
  errCode : BitVec 4
  /-- the model's own: the events still to come, next first (log 1) -/
  events : List Event
  /-- the model's own: what host reads have returned, newest first (log 3) -/
  replies : List Word
  /-- the model's own: how many free values have been drawn (log 4) -/
  draws : Nat
  deriving DecidableEq, Repr

/-- The state after reset: every element of 10_state.md R49 at the value of its table; the model's own fields empty. -/
def State.reset : State where
  ft := Vector.replicate 256 0
  nodes := Vector.replicate 511 none
  wc := []
  nodeNext := 0
  leafCount := 0
  rootIdx := 0
  rootValid := false
  cb := Vector.replicate 256 none
  phase := .empty
  busy := false
  curCmd := 0
  cmpRes := false
  ien := 0
  ipend := 0
  errCode := 0
  events := []
  replies := []
  draws := 0

end Sys2Proof.Machine
end

