-- ==== Sys2Proof/Machine/Ops.lean ====
section
/-! DEFINITION. The named operations on the state: the fields of a node-store entry, the stores, recording an error (the
block's exception entry, spec/60_exceptions.md R199), acknowledging it (R201), latching a command, the last line of every
completion (spec/43_system.md R183), and reset (spec/70_reset_and_hazards.md R220). -/

namespace Sys2Proof.Machine

/-- What a meaning or a step answers. -/
abbrev Result := Host.Outcome State Fault Refusal

/-- The error causes (60_exceptions.md R191). -/
inductive ErrorKind where
  | illegalCmd
  | sequence
  | busy
  | badAddr
  | roWrite
  | badOperand
  deriving DecidableEq, Repr

/-- The code of an error cause (R191). -/
def ErrorKind.code : ErrorKind → BitVec 4
  | .illegalCmd => 1
  | .sequence => 2
  | .busy => 3
  | .badAddr => 4
  | .roWrite => 5
  | .badOperand => 6

/-- The number of a phase (10_state.md R29). -/
def Phase.bits : Phase → BitVec 2
  | .empty => 0
  | .building => 1
  | .tree => 2
  | .codes => 3

/-- `PHASE >= 2`: the construction is finished (R29, R36). -/
def Phase.finished : Phase → Bool
  | .empty => false
  | .building => false
  | .tree => true
  | .codes => true

/-! ### The six fields of a node-store entry (10_state.md R22)

An entry that is not valid is `ZERO_NODE`, all fields 0. -/

/-- field `valid` -/
def entryValid (e : Option Node) : Bool := e.isSome

/-- field `kind`: set for an internal node -/
def entryKind : Option Node → Bool
  | some (.internal _ _ _ _) => true
  | some (.leaf _ _) => false
  | none => false

/-- field `rep`; for a leaf its own byte value (R24) -/
def entryRep : Option Node → ByteVal
  | some (.internal rep _ _ _) => rep
  | some (.leaf byte _) => byte
  | none => 0

/-- field `freq` -/
def entryFreq : Option Node → Freq
  | some (.internal _ freq _ _) => freq
  | some (.leaf _ freq) => freq
  | none => 0

/-- field `left`; 0 for a leaf -/
def entryLeft : Option Node → NodeIdx
  | some (.internal _ _ left _) => left
  | some (.leaf _ _) => 0
  | none => 0

/-- field `right`; 0 for a leaf -/
def entryRight : Option Node → NodeIdx
  | some (.internal _ _ _ right) => right
  | some (.leaf _ _) => 0
  | none => 0

/-! ### Reading and writing the stores -/

/-- Entry `n` of a node store; an index past the last entry names none and reads as not valid (30_encoding.md R92;
log 13). -/
def entryAt (nodes : Vector (Option Node) 511) (n : Nat) : Option Node := nodes[n]?.getD none

/-- `NODE[n]` -/
def State.entry (s : State) (n : Nat) : Option Node := entryAt s.nodes n

/-- `NODE[n] <- x` -/
def State.setEntry (s : State) (n : Nat) (x : Node) : State :=
  { s with nodes := s.nodes.setIfInBounds n (some x) }

/-- `FT[b]` -/
def State.freqOf (s : State) (b : Nat) : Word := s.ft[b]?.getD 0

/-- `FT[b] <- v` -/
def State.setFreq (s : State) (b : Nat) (v : Word) : State :=
  { s with ft := s.ft.setIfInBounds b v }

/-- `CB[b]` -/
def State.codeOf (s : State) (b : Nat) : Option Code := s.cb[b]?.getD none

/-- Every `FT` entry 0 (40_frequency_table.md R112). -/
def State.clearFreqs (s : State) : State := { s with ft := Vector.replicate 256 0 }

/-- Every `CB` entry `ZERO_CODE`. -/
def State.clearCodes (s : State) : State := { s with cb := Vector.replicate 256 none }

/-- Every `NODE` entry `ZERO_NODE`. -/
def State.clearNodes (s : State) : State := { s with nodes := Vector.replicate 511 none }

/-- `PHASE <- p` -/
def State.setPhase (s : State) (p : Phase) : State := { s with phase := p }

/-- The stores are in their one stored form: a code's bits at positions `len` and above are 0 (10_state.md R28,
42_codebook.md R167). Everything else about the stores' form is in their types: their sizes, and the all-zero record of an
absent entry (log 16). -/
abbrev Memory.wf (s : State) : Prop :=
  ∀ b : Fin 256, ∀ c ∈ s.cb[b], c.bits >>> c.len.toNat = 0

/-! ### Events and errors -/

/-- `IPEND[0]` (10_state.md R32) -/
def State.doneBit (s : State) : Bool := s.ipend.getLsbD 0

/-- `IPEND[1]` (10_state.md R32) -/
def State.errBit (s : State) : Bool := s.ipend.getLsbD 1

/-- `raise Err(c)`, the block's exception entry, complete (60_exceptions.md R199): the first error since the last
acknowledgement keeps its code (R200), `IPEND[1]` is set, and nothing else changes. -/
def State.raiseErr (s : State) (e : ErrorKind) : State :=
  { s with errCode := if s.errBit then s.errCode else e.code, ipend := s.ipend ||| 2 }

/-- The write to `IPEND`, the analogue of exception return (60_exceptions.md R201, 43_system.md R186): each written 1
clears its bit, and `ERRCODE` is 0 once `IPEND[1]` is. -/
def State.ackEvents (s : State) (v : Word) : State :=
  let pend := s.ipend &&& ~~~(v.extractLsb' 0 2)
  { s with ipend := pend, errCode := if pend.getLsbD 1 then s.errCode else 0 }

/-! ### Commands in progress -/

/-- `CUR_CMD <- w; BUSY <- 1`, all that acceptance changes (43_system.md R182). -/
def State.latch (s : State) (w : Word) : State := { s with curCmd := w, busy := true }

/-- `BUSY <- 0; IPEND[0] <- 1`, the last line of every completion (43_system.md R183). -/
def State.completed (s : State) : State := { s with busy := false, ipend := s.ipend ||| 1 }

/-- Reset, from `rst_n` or `SRST` alike (70_reset_and_hazards.md R220): every element of 10_state.md R49. The events to
come and what the host has already read are not the block's (log 20). -/
def State.resetBlock (s : State) : State :=
  { State.reset with events := s.events, replies := s.replies, draws := s.draws }

end Sys2Proof.Machine
end

