-- ==== Sys2Proof/Machine/Operands.lean ====
section
/-! DEFINITION. What a command's operands and the phase admit at issue (spec/43_system.md R182, R187), the two stages of a
command, and what an address of the host port names (spec/20_memory.md R62). -/

namespace Sys2Proof.Machine

/-- An operand of `CMP` names a valid entry: it is at most 510 and `NODE` there is valid (30_encoding.md R92). The number
511 names no entry, so it is never valid. -/
def State.namesNode (s : State) (n : Nat) : Bool := entryValid (s.entry n)

/-- The error a legal command is refused with at issue while `BUSY = 0`, if any, in the order of R182. -/
def State.objection (s : State) : Instr → Option ErrorKind
  | .nop => none
  | .clrf => none
  | .init => none
  | .step => if s.phase = .building then none else some .sequence
  | .build => none
  | .derive => if s.phase.finished then none else some .sequence
  | .run => none
  | .cmp a b =>
    if s.phase = .empty then some .sequence
    else if s.namesNode a && s.namesNode b then none
    else some .badOperand
  | .srst => none

/-- The issue of a legal command while `BUSY = 0` (R182, from the phase tests on): refused with its error, or latched. -/
def State.issueLegal (s : State) (i : Instr) : State :=
  match s.objection i with
  | some e => s.raiseErr e
  | none => s.latch (encode i)

/-- The two stages of a command, told apart by `BUSY`, which with `PHASE` "takes the place of a program counter"
(10_state.md R45): issue while `BUSY = 0` (43_system.md R182), its completion while `BUSY = 1` (R183) (log 5). -/
def twoStage (i : Instr) (completion : State → Result) (s : State) : Result :=
  if s.busy then completion s else .next (s.issueLegal i)

/-! ### Addresses -/

/-- The control registers (10_state.md R33). -/
inductive Reg where
  | id | cmd | status | ien | ipend | errCode | root | counts | wcLen | params
  deriving DecidableEq, Repr

/-- What a word address names (20_memory.md R62). -/
inductive Region where
  | reg (r : Reg)
  | unmapped
  /-- `FT[b]` -/
  | ft (b : Nat)
  /-- `WC[i]` -/
  | wc (i : Nat)
  /-- word `f` of `NODE[n]` -/
  | node (n f : Nat)
  /-- word `w` of `CB[b]` -/
  | cb (b w : Nat)
  deriving DecidableEq, Repr

/-- The register at a word address below `0x00A` (10_state.md R33). -/
def regAt : Nat → Reg
  | 0 => .id
  | 1 => .cmd
  | 2 => .status
  | 3 => .ien
  | 4 => .ipend
  | 5 => .errCode
  | 6 => .root
  | 7 => .counts
  | 8 => .wcLen
  | _ => .params

/-- The address map (20_memory.md R62). -/
def region (addr : Addr) : Region :=
  let a := addr.toNat
  if a < 0x00A then .reg (regAt a)
  else if a < 0x100 then .unmapped
  else if a < 0x200 then .ft (a - 0x100)
  else if a < 0x300 then .wc (a - 0x200)
  else if a < 0x800 then .unmapped
  else if a < 0xFFC then .node ((a - 0x800) / 4) (a % 4)
  else if a < 0x1000 then .unmapped
  else .cb ((a - 0x1000) / 16) (a % 16)

/-- The locations whose busy-time reads are unspecified whole (20_memory.md R73). `STATUS` is unspecified in five bits
only and stands apart. -/
def Region.busyUnspecified : Region → Bool
  | .reg .root => true
  | .reg .counts => true
  | .reg .wcLen => true
  | .reg .id => false
  | .reg .cmd => false
  | .reg .status => false
  | .reg .ien => false
  | .reg .ipend => false
  | .reg .errCode => false
  | .reg .params => false
  | .unmapped => false
  | .ft _ => true
  | .wc _ => true
  | .node _ _ => true
  | .cb _ _ => true

end Sys2Proof.Machine
end

