-- ==== Sys2Proof/Machine/Flags.lean ====
section
/-! DEFINITION. The comparison every selection rests on (spec/41_tree_builder.md R120), the flags and the words the
control registers and windows read as (spec/10_state.md R34 to R43, spec/20_memory.md R64 to R68), and the interrupt
line (spec/10_state.md R51). -/

namespace Sys2Proof.Machine

/-- `comes_before(A, B)` (41_tree_builder.md R120). It reads nothing but the two `freq` and the two `rep` fields. -/
def comesBefore (x y : Option Node) : Bool :=
  decide (entryFreq x < entryFreq y) || (entryFreq x == entryFreq y && decide (entryRep x ≤ entryRep y))

/-- The lesser of two representative byte values (41_tree_builder.md R126, R127). -/
def minByte (a b : ByteVal) : ByteVal := if a ≤ b then a else b

/-- `EMPTY_TREE` (10_state.md R36) -/
def State.emptyTree (s : State) : Bool := s.phase.finished && s.leafCount == 0

/-- `SINGLE_LEAF` (10_state.md R36) -/
def State.singleLeaf (s : State) : Bool := s.phase.finished && s.leafCount == 1

/-- The interrupt output (10_state.md R51, 60_exceptions.md R204). -/
def State.irq (s : State) : Bool :=
  (s.doneBit && s.ien.getLsbD 0) || (s.errBit && s.ien.getLsbD 1)

/-- The word whose only bit is `b` at position `i`. -/
def bitWord (b : Bool) (i : Nat) : Word := if b then 1#32 <<< i else 0

/-- `STATUS` while `BUSY = 0` (10_state.md R36). -/
def State.statusWord (s : State) : Word :=
  bitWord s.busy 0 ||| (s.phase.bits.setWidth 32 <<< 1) ||| bitWord s.emptyTree 3 ||| bitWord s.singleLeaf 4 |||
    bitWord s.cmpRes 5 ||| bitWord s.errBit 6 ||| bitWord s.doneBit 7

/-- `STATUS` while `BUSY = 1` (20_memory.md R73): bits 5:1 are the free value's low five bits. -/
def State.busyStatusWord (s : State) (x : Word) : Word :=
  bitWord s.busy 0 ||| ((x.extractLsb' 0 5).setWidth 32 <<< 1) ||| bitWord s.errBit 6 ||| bitWord s.doneBit 7

/-- `ROOT` (10_state.md R40) -/
def State.rootWord (s : State) : Word := bitWord s.rootValid 31 ||| s.rootIdx.setWidth 32

/-- `COUNTS` (10_state.md R41) -/
def State.countsWord (s : State) : Word :=
  (BitVec.ofNat 32 s.nodeNext <<< 16) ||| BitVec.ofNat 32 s.leafCount

/-- A control register while `BUSY = 0` (10_state.md R33 to R43). -/
def State.regWord (s : State) : Reg → Word
  | .id => Config.idWord
  | .cmd => s.curCmd
  | .status => s.statusWord
  | .ien => s.ien.setWidth 32
  | .ipend => s.ipend.setWidth 32
  | .errCode => s.errCode.setWidth 32
  | .root => s.rootWord
  | .counts => s.countsWord
  | .wcLen => BitVec.ofNat 32 s.wc.length
  | .params => Config.paramsWord

/-- `LINK = (valid << 31) | (kind << 30) | (rep << 18) | (right << 9) | left` (20_memory.md R66). -/
def linkWord (e : Option Node) : Word :=
  bitWord (entryValid e) 31 ||| bitWord (entryKind e) 30 ||| ((entryRep e).setWidth 32 <<< 18) |||
    ((entryRight e).setWidth 32 <<< 9) ||| (entryLeft e).setWidth 32

/-- Word `f` of a `NODE` entry (20_memory.md R66, R68). -/
def nodeWord (e : Option Node) : Nat → Word
  | 0 => (entryFreq e).extractLsb' 0 32
  | 1 => ((entryFreq e).extractLsb' 32 8).setWidth 32
  | 2 => linkWord e
  | _ => 0

/-- Word `w` of a `CB` entry (20_memory.md R67, R68). -/
def codeWord (c : Option Code) (w : Nat) : Word :=
  match c with
  | none => 0
  | some c =>
    if w < 8 then c.bits.extractLsb' (32 * w) 32
    else if w = 8 then bitWord true 31 ||| c.len.setWidth 32
    else 0

/-- What a location holds, as a read returns it while `BUSY = 0` (20_memory.md R81). -/
def State.peek (s : State) : Region → Word
  | .reg r => s.regWord r
  | .unmapped => 0
  | .ft b => s.freqOf b
  | .wc i => (s.wc[i]?.getD 0).setWidth 32
  | .node n f => nodeWord (s.entry n) f
  | .cb b w => codeWord (s.codeOf b) w

/-- The code of a byte value as the string of its symbols, first branch first, '1' as `true` (30_encoding.md R101). -/
def codeString (c : Code) : List Bool := (List.range c.len.toNat).map c.bits.getLsbD

end Sys2Proof.Machine
end

