-- ==== Sys2Proof/Machine/Selection.lean ====
section
/-! DEFINITION. Minimum selection and replacement in an ordered collection (spec/41_tree_builder.md R125, R128, R130), over
any comparison: the block uses it on node-store entries, the abstract construction (R141) on trees. -/

namespace Sys2Proof.Machine

/-- The scanned element replaces the candidate: it comes before it, and where exact ties keep the highest position,
strictly (R125; `TIE_KEEP`, 90_conflicts.md C1). -/
def replaces {α : Type} (keep : TieKeep) (before : α → α → Bool) (scanned candidate : α) : Bool :=
  match keep with
  | .lowestIndex => before scanned candidate
  | .highestIndex => before scanned candidate && !before candidate scanned

/-- The scan of R125 over the elements that stand from position `i` on: the last position is scanned first. -/
def scan {α : Type} (keep : TieKeep) (before : α → α → Bool) (excl : Option Nat) : List α → Nat → Option (Nat × α)
  | [], _ => none
  | x :: xs, i =>
    let best := scan keep before excl xs (i + 1)
    if excl = some i then best
    else
      match best with
      | none => some (i, x)
      | some (j, y) => if replaces keep before x y then some (i, x) else some (j, y)

/-- `select_min(excl)`: the position of the minimum, ignoring position `excl` (R125). -/
def selectMin {α : Type} (keep : TieKeep) (before : α → α → Bool) (l : List α) (excl : Option Nat) : Option Nat :=
  (scan keep before excl l 0).map Prod.fst

/-- The two members a merge selects: the minimum, and the minimum of the rest (R128). None where there are not two. -/
def selectTwo {α : Type} (keep : TieKeep) (before : α → α → Bool) (l : List α) : Option (Nat × Nat) :=
  match selectMin keep before l none with
  | none => none
  | some i1 =>
    match selectMin keep before l (some i1) with
    | none => none
    | some i2 => some (i1, i2)

/-- `remove_at(q).remove_at(p).insert_at(p, n)` with `p` the lower and `q` the higher position (R129, R130). -/
def replacePair {α : Type} (l : List α) (i1 i2 : Nat) (n : α) : List α :=
  ((l.eraseIdx (max i1 i2)).eraseIdx (min i1 i2)).insertIdx (min i1 i2) n

end Sys2Proof.Machine
end

