-- ==== Sys2Proof/Machine/TreeBuilder.lean ====
section
/-! DEFINITION. The tree-builder family (spec/41_tree_builder.md): leaf creation, combining, one merge, finishing, and the
commands `CMP`, `INIT`, `STEP` and `BUILD`. -/

namespace Sys2Proof.Machine

/-- The completion of `CMP` (R122). -/
def cmpCompletion (a b : Nat) (s : State) : Result :=
  .next ({ s with cmpRes := comesBefore (s.entry a) (s.entry b) }.completed)

/-- `CMP A, B` (R122) -/
def execCmp (a b : Nat) (s : State) : Result := twoStage (.cmp a b) (cmpCompletion a b) s

/-- One round of leaf creation: byte value `b`, whose entry is `f`, gets the next leaf if `f` is not 0 (R123). -/
def State.addLeaf (s : State) (b : Nat) (f : Word) : State :=
  if f = 0 then s
  else
    { s.setEntry s.nodeNext (.leaf (BitVec.ofNat 8 b) (f.setWidth 40)) with
      wc := s.wc ++ [BitVec.ofNat 9 s.nodeNext]
      nodeNext := s.nodeNext + 1 }

/-- The rounds of leaf creation over the table's entries from byte value `b` on, ascending. -/
def State.addLeaves : List Word → Nat → State → State
  | [], _, s => s
  | f :: fs, b, s => State.addLeaves fs (b + 1) (s.addLeaf b f)

/-- `make_leaves()` (R123) -/
def State.makeLeaves (s : State) : State :=
  let t := State.addLeaves s.ft.toList 0 { s.clearNodes.clearCodes with wc := [], nodeNext := 0 }
  { t with leafCount := t.nodeNext, rootValid := false, rootIdx := 0 }

/-- `finish()` (R131) -/
def State.finish (s : State) : State :=
  match s.wc with
  | [r] => { s with rootIdx := r, rootValid := true, phase := .tree }
  | _ => { s with rootIdx := 0, rootValid := false, phase := .tree }

/-- `combine(a, b)` of the nodes at two indices (R126, R127). -/
def State.combine (s : State) (a b : NodeIdx) : Node :=
  let x := s.entry a.toNat
  let y := s.entry b.toNat
  if comesBefore x y then .internal (minByte (entryRep x) (entryRep y)) (entryFreq x + entryFreq y) a b
  else .internal (minByte (entryRep x) (entryRep y)) (entryFreq x + entryFreq y) b a

/-- The members of the working collection, as the scans see them. -/
def State.members (s : State) : List (Option Node) := s.wc.map fun n => s.entry n.toNat

/-- A merge's effect once its two slots are selected and before `finish` (R129, R130). -/
def State.mergeSlots (s : State) (i1 i2 : Nat) : State :=
  { s.setEntry s.nodeNext (s.combine (s.wc.getD i1 0) (s.wc.getD i2 0)) with
    nodeNext := s.nodeNext + 1
    wc := replacePair s.wc i1 i2 (BitVec.ofNat 9 s.nodeNext) }

/-- `merge()` (R129). None where the spec gives it no effect: fewer than two members, or no free entry (log 9). -/
def State.merge (s : State) : Option State :=
  match selectTwo Config.tieKeep comesBefore s.members with
  | none => none
  | some (i1, i2) =>
    if s.nodeNext < 511 then
      let t := s.mergeSlots i1 i2
      some (if t.wc.length = 1 then t.finish else t)
    else none

/-- `while len(WC) >= 2: merge()` (R134); each merge shortens `WC` by one, so its length bounds the rounds (R133). -/
def State.mergeAll : Nat → State → Option State
  | 0, s => some s
  | k + 1, s =>
    if s.wc.length < 2 then some s
    else
      match s.merge with
      | none => none
      | some t => State.mergeAll k t

/-- The completion of `INIT` (R124). -/
def initCompletion (s : State) : Result :=
  let t := s.makeLeaves
  .next ((if 2 ≤ t.wc.length then t.setPhase .building else t.finish).completed)

/-- `INIT` (R124) -/
def execInit (s : State) : Result := twoStage .init initCompletion s

/-- The completion of `STEP` (R132). -/
def stepCompletion (s : State) : Result :=
  match s.merge with
  | none => .fault .mergeImpossible
  | some t => .next t.completed

/-- `STEP` (R132) -/
def execStep (s : State) : Result := twoStage .step stepCompletion s

/-- The body of `BUILD` without its last line (R134, 42_codebook.md R168). -/
def State.buildBody (s : State) : Option State :=
  let t := s.makeLeaves
  match State.mergeAll t.wc.length t with
  | none => none
  | some u => some (if u.leafCount ≤ 1 then u.finish else u)

/-- The completion of `BUILD` (R134). -/
def buildCompletion (s : State) : Result :=
  match s.buildBody with
  | none => .fault .mergeImpossible
  | some t => .next t.completed

/-- `BUILD` (R134) -/
def execBuild (s : State) : Result := twoStage .build buildCompletion s

end Sys2Proof.Machine
end

