-- ==== Sys2Proof/Machine/CodeBook.lean ====
section
/-! DEFINITION. The code-book family (spec/42_codebook.md): the traversal, `DERIVE` and `RUN`. -/

namespace Sys2Proof.Machine

/-- An entry of the traversal stack: node index, accumulated bits, their number (42_codebook.md R161). -/
abbrev Pending := NodeIdx × BitVec 256 × Nat

/-- The traversal loop (R161), to a given number of pops. The right child is pushed first, so the left is popped first
(R162). None where the loop would pop more than the given number of entries or a code would pass 255 symbols (log 10). -/
def traverse (nodes : Vector (Option Node) 511) :
    Nat → List Pending → Vector (Option Code) 256 → Option (Vector (Option Code) 256)
  | 0, [], cb => some cb
  | 0, _ :: _, _ => none
  | _ + 1, [], cb => some cb
  | pops + 1, (n, bits, len) :: rest, cb =>
    match entryAt nodes n.toNat with
    | some (.internal _ _ left right) =>
      if len < Config.codeMax then
        traverse nodes pops ((left, bits, len + 1) :: (right, bits ||| (1#256 <<< len), len + 1) :: rest) cb
      else none
    | some (.leaf byte _) => traverse nodes pops rest (cb.setIfInBounds byte.toNat (some ⟨BitVec.ofNat 8 len, bits⟩))
    | none => traverse nodes pops rest (cb.setIfInBounds 0 (some ⟨BitVec.ofNat 8 len, bits⟩))

/-- The body of `DERIVE` without its last line (R161, R163, R164). -/
def State.deriveBody (s : State) : Option State :=
  let t := s.clearCodes
  if t.rootValid then
    match traverse t.nodes Config.maxPops [(t.rootIdx, 0, 0)] t.cb with
    | none => none
    | some cb => some ({ t with cb := cb }.setPhase .codes)
  else some (t.setPhase .codes)

/-- The completion of `DERIVE` (R161). -/
def deriveCompletion (s : State) : Result :=
  match s.deriveBody with
  | none => .fault .traversalUnbounded
  | some t => .next t.completed

/-- `DERIVE` (R161) -/
def execDerive (s : State) : Result := twoStage .derive deriveCompletion s

/-- The completion of `RUN`: the body of `BUILD`, then that of `DERIVE`, with one last line (R168). -/
def runCompletion (s : State) : Result :=
  match s.buildBody with
  | none => .fault .mergeImpossible
  | some t => deriveCompletion t

/-- `RUN` (R168) -/
def execRun (s : State) : Result := twoStage .run runCompletion s

end Sys2Proof.Machine
end

