-- ==== Sys2Proof/Machine/FrequencyTable.lean ====
section
/-! DEFINITION. The frequency-table family (spec/40_frequency_table.md): the host's write to `FT`, and `CLRF`. -/

namespace Sys2Proof.Machine

/-- The host's write to `FT[b]` (40_frequency_table.md R111). -/
def State.hostFreqWrite (s : State) (b : Nat) (v : Word) : State :=
  if s.busy then s.raiseErr .busy else (s.setFreq b v).setPhase .empty

/-- The completion of `CLRF` (R112). -/
def clrfCompletion (s : State) : Result := .next ((s.clearFreqs.setPhase .empty).completed)

/-- `CLRF` (R112) -/
def execClrf (s : State) : Result := twoStage .clrf clrfCompletion s

end Sys2Proof.Machine
end

