-- ==== Sys2Proof/Machine/SystemCommands.lean ====
section
/-! DEFINITION. The housekeeping commands `NOP` and `SRST` (spec/43_system.md R180, R181). -/

namespace Sys2Proof.Machine

/-- The completion of `NOP` (R180). -/
def nopCompletion (s : State) : Result := .next s.completed

/-- `NOP` (R180) -/
def execNop (s : State) : Result := twoStage .nop nopCompletion s

/-- `SRST` (R181): it acts at issue, whatever `BUSY` is, and has no completion step. -/
def execSrst (s : State) : Result := .next s.resetBlock

end Sys2Proof.Machine
end

