-- ==== Sys2Proof/Machine/Dispatch.lean ====
section
/-! DEFINITION. One arm per command (spec/30_encoding.md R91). -/

namespace Sys2Proof.Machine

def exec (i : Instr) (s : State) : Host.Outcome State Fault Refusal :=
  match i with
  | .nop => Sys2Proof.Machine.execNop s
  | .clrf => Sys2Proof.Machine.execClrf s
  | .init => Sys2Proof.Machine.execInit s
  | .step => Sys2Proof.Machine.execStep s
  | .build => Sys2Proof.Machine.execBuild s
  | .derive => Sys2Proof.Machine.execDerive s
  | .run => Sys2Proof.Machine.execRun s
  | .cmp a b => Sys2Proof.Machine.execCmp a b s
  | .srst => Sys2Proof.Machine.execSrst s

end Sys2Proof.Machine
end

