-- ==== Sys2Proof/Machine/HostPort.lean ====
section
/-! DEFINITION. The host port and the sequencer: command issue (spec/43_system.md R182), the sequencer's step (R183), and
the two port procedures (spec/20_memory.md R81, R82). -/

namespace Sys2Proof.Machine

/-- `issue(w)` (43_system.md R182): `SRST` first, whatever `BUSY` is, then the `BUSY` test, then legality; the phase and
operand tests are the issue stage of the command itself. -/
def issue (w : Word) (s : State) : Result :=
  match decode w with
  | .ok .srst => exec .srst s
  | .ok i => if s.busy then .next (s.raiseErr .busy) else exec i s
  | .error _ => if s.busy then .next (s.raiseErr .busy) else .next (s.raiseErr .illegalCmd)

/-- `complete()`, the sequencer's step, which it has exactly when `BUSY = 1` (43_system.md R183): the completion stage of
the latched command. Issue latches only legal words other than `SRST` (log 11). -/
def complete (s : State) : Result :=
  if s.busy then
    match decode s.curCmd with
    | .ok .srst => .fault .latchedWordNotACommand
    | .ok i => exec i s
    | .error _ => .fault .latchedWordNotACommand
  else .next s

/-- A read has returned `w`. -/
def State.reply (s : State) (w : Word) : State := { s with replies := w :: s.replies }

/-- A read has returned a word computed from one draw of `any32()` (00_scope.md R8). -/
def State.replyDrawn (s : State) (f : Word → Word) : State :=
  { s with replies := f (Config.any32 s.draws) :: s.replies, draws := s.draws + 1 }

/-- `MemRead(addr, 1)` (20_memory.md R81). -/
def memRead (addr : Addr) (s : State) : State :=
  if region addr = .unmapped then (s.raiseErr .badAddr).reply 0
  else if s.busy && decide (region addr = .reg .status) then s.replyDrawn s.busyStatusWord
  else if s.busy && (region addr).busyUnspecified then s.replyDrawn id
  else s.reply (s.peek (region addr))

/-- `MemWrite(addr, 1, v)` (20_memory.md R82). -/
def memWrite (addr : Addr) (v : Word) (s : State) : Result :=
  match region addr with
  | .reg .cmd => issue v s
  | .reg .ien => .next { s with ien := v.extractLsb' 0 2 }
  | .reg .ipend => .next (s.ackEvents v)
  | .ft b => .next (s.hostFreqWrite b v)
  | .unmapped => .next (s.raiseErr .badAddr)
  | .reg _ => .next (s.raiseErr .roWrite)
  | .wc _ => .next (s.raiseErr .roWrite)
  | .node _ _ => .next (s.raiseErr .roWrite)
  | .cb _ _ => .next (s.raiseErr .roWrite)

/-- One atomic event (20_memory.md R74). -/
def perform (e : Event) (s : State) : Result :=
  match e with
  | .read addr => .next (memRead addr s)
  | .write addr v => memWrite addr v s
  | .completion => complete s
  | .hardReset => .next s.resetBlock

end Sys2Proof.Machine
end

