-- ==== Sys2Proof/Machine/Step.lean ====
section
/-! DEFINITION. One step of an execution (spec/20_memory.md R74), and the state in which the next step runs a given command
word. -/

namespace Sys2Proof.Machine

/-- The next atomic event happens. With none left, the sequencer completes a running command (70_reset_and_hazards.md
R232, R233), and an idle block stays as it is (R222) (log 2). -/
def step (s : State) : Host.Outcome State Fault Refusal :=
  match s.events with
  | [] => complete s
  | e :: rest => perform e { s with events := rest }

/-- `s` with the host's write of that word to `CMD` as the next event, the block not busy (log 12). -/
def State.withFetchWord (s : State) (nbits w : Nat) : State :=
  { s with busy := false, events := .write 0x001 (BitVec.ofNat 32 (w % 2 ^ nbits)) :: s.events }

end Sys2Proof.Machine
end

