-- ==== Sys2Proof/Machine/AbstractTree.lean ====
section
/-! DEFINITION. The algorithm as pure functions on abstract trees: trees and how the store represents them
(spec/41_tree_builder.md R140), the construction (R141) and the code derivation (spec/42_codebook.md R160). The machine does
not call them; statements about it do. -/

namespace Sys2Proof.Machine

/-- A tree; frequencies are natural numbers (R140). -/
inductive CodeTree where
  | leaf (byte : ByteVal) (freq : Nat)
  | node (rep : ByteVal) (freq : Nat) (left right : CodeTree)
  deriving DecidableEq, Repr

def CodeTree.rep : CodeTree → ByteVal
  | .leaf b _ => b
  | .node r _ _ _ => r

def CodeTree.freq : CodeTree → Nat
  | .leaf _ f => f
  | .node _ f _ _ => f

/-- The leaves of a tree, leftmost first, each a byte value and its frequency. -/
def CodeTree.leaves : CodeTree → List (ByteVal × Nat)
  | .leaf b f => [(b, f)]
  | .node _ _ l r => l.leaves ++ r.leaves

/-- The number of nodes of a tree, leaves and internal nodes. -/
def CodeTree.size : CodeTree → Nat
  | .leaf _ _ => 1
  | .node _ _ l r => l.size + r.size + 1

/-- The tree read out of a node store at an index (R140 `tree_of`), to a given depth. -/
def treeWithin (nodes : Vector (Option Node) 511) : Nat → Nat → Option CodeTree
  | 0, _ => none
  | depth + 1, n =>
    match entryAt nodes n with
    | none => none
    | some (.leaf b f) => some (.leaf b f.toNat)
    | some (.internal r f left right) =>
      match treeWithin nodes depth left.toNat, treeWithin nodes depth right.toNat with
      | some l, some r' => some (.node r f.toNat l r')
      | _, _ => none

/-- `tree_of(n)` (R140). A child's index is smaller than its parent's (10_state.md R48 item 3), so a path from entry `n`
has at most `n + 1` entries. None where entry `n` represents no tree. -/
def treeAt (nodes : Vector (Option Node) 511) (n : Nat) : Option CodeTree := treeWithin nodes (n + 1) n

/-- `tree_of(n)` in a state. -/
def State.treeOf (s : State) (n : Nat) : Option CodeTree := treeAt s.nodes n

/-- The finished tree, if there is one (10_state.md R27). -/
def State.rootTree (s : State) : Option CodeTree := if s.rootValid then s.treeOf s.rootIdx.toNat else none

/-- `comes_before` on trees (R120, R140). -/
def treeBefore (x y : CodeTree) : Bool :=
  decide (x.freq < y.freq) || (x.freq == y.freq && decide (x.rep ≤ y.rep))

/-- `combine` in its abstract form (R126). -/
def treeCombine (x y : CodeTree) : CodeTree :=
  if treeBefore x y then .node (minByte x.rep y.rep) (x.freq + y.freq) x y
  else .node (minByte x.rep y.rep) (x.freq + y.freq) y x

/-- The byte values with a nonzero entry, ascending. -/
def usedBytes (ft : Vector Word 256) : List Nat := (List.range 256).filter fun b => ft[b]?.getD 0 != 0

/-- `leaves(ft)` (R123). -/
def leafTrees (ft : Vector Word 256) : List CodeTree :=
  (usedBytes ft).map fun b => .leaf (BitVec.ofNat 8 b) (ft[b]?.getD 0).toNat

/-- One round of the loop of R141, if two members remain. -/
def mergeTrees (l : List CodeTree) : Option (List CodeTree) :=
  match selectTwo Config.tieKeep treeBefore l with
  | none => none
  | some (i1, i2) =>
    match l[i1]?, l[i2]? with
    | some x, some y => some (replacePair l i1 i2 (treeCombine x y))
    | _, _ => none

/-- The loop of R141; each round shortens the collection by one, so its length bounds the rounds (R133). -/
def mergeLoop : Nat → List CodeTree → List CodeTree
  | 0, l => l
  | k + 1, l =>
    match mergeTrees l with
    | none => l
    | some l' => mergeLoop k l'

/-- The tree that the construction makes of a collection of trees. -/
def mergeToOne (l : List CodeTree) : Option CodeTree := (mergeLoop l.length l).head?

/-- `build(ft)` (R141). -/
def buildTree (ft : Vector Word 256) : Option CodeTree := mergeToOne (leafTrees ft)

/-- `codes(t, s)` (42_codebook.md R160); a string is the list of its symbols, '1' as `true`. -/
def treeCodes : CodeTree → List Bool → List (ByteVal × List Bool)
  | .leaf b _, str => [(b, str)]
  | .node _ _ l r, str => treeCodes l (str ++ [false]) ++ treeCodes r (str ++ [true])

/-- `derive(root)` (42_codebook.md R160): the finite map from byte values to strings, as the list of its pairs. -/
def deriveCodes : Option CodeTree → List (ByteVal × List Bool)
  | none => []
  | some t => treeCodes t []

end Sys2Proof.Machine
end

