-- ==== Sys2Proof/Safety.lean ====
section
/-! DEFINITION. What counts as a good state and a safe run: the invariants of every reachable state (spec/10_state.md R48),
with what makes them inductive (spec/41_tree_builder.md R136, R141; spec/60_exceptions.md R208), and reachability. -/

namespace Sys2Proof.Machine

/-- The `left` and `right` fields of an internal entry. -/
def entryChildren : Option Node → List Nat
  | some (.internal _ _ left right) => [left.toNat, right.toNat]
  | some (.leaf _ _) => []
  | none => []

/-- The child fields of the entries below an index. -/
def childrenBelow (nodes : Vector (Option Node) 511) (n : Nat) : List Nat :=
  (List.range n).flatMap fun m => entryChildren (entryAt nodes m)

/-- The trees whose roots are the members of a working collection, in its order. -/
def forestOf (nodes : Vector (Option Node) 511) (wc : List NodeIdx) : List (Option CodeTree) :=
  wc.map fun n => treeAt nodes n.toNat

/-- The first `k` entries as leaves: byte value and frequency. -/
def leafPairs (nodes : Vector (Option Node) 511) (k : Nat) : List (ByteVal × Nat) :=
  (List.range k).map fun j => (entryRep (entryAt nodes j), (entryFreq (entryAt nodes j)).toNat)

/-- A tree's root holds the least byte value among its leaves and the sum of their frequencies (10_state.md R48 item 7). -/
abbrev CodeTree.Summarises (t : CodeTree) : Prop :=
  t.freq = (t.leaves.map Prod.snd).sum ∧ (∃ p ∈ t.leaves, p.1 = t.rep) ∧ ∀ p ∈ t.leaves, t.rep ≤ p.1

/-- Items 1 to 8 of 10_state.md R48, and R136 of 41_tree_builder.md: the node store and the working collection are a
forest, whatever `PHASE` is. -/
structure StoreInv (nodes : Vector (Option Node) 511) (wc : List NodeIdx) (nodeNext leafCount : Nat) : Prop where
  /-- item 1 -/
  nodeNext_le : nodeNext ≤ 511
  leafCount_le : leafCount ≤ 256
  leafCount_le_nodeNext : leafCount ≤ nodeNext
  /-- item 2; an entry that is not valid is `ZERO_NODE` by its type -/
  valid_iff : ∀ n < 511, entryValid (entryAt nodes n) = decide (n < nodeNext)
  /-- item 3; a leaf's child fields are 0 by its type -/
  leaf_kind : ∀ n < leafCount, entryKind (entryAt nodes n) = false
  internal_kind : ∀ n < nodeNext, leafCount ≤ n →
    entryKind (entryAt nodes n) = true ∧ (entryLeft (entryAt nodes n)).toNat < n ∧
      (entryRight (entryAt nodes n)).toNat < n ∧ entryLeft (entryAt nodes n) ≠ entryRight (entryAt nodes n)
  /-- item 4 -/
  leaves_ascending : ∀ j < leafCount, ∀ i < j, entryRep (entryAt nodes i) < entryRep (entryAt nodes j)
  /-- item 5: every index below `NODE_NEXT`, and no other, occurs exactly once -/
  once : (wc.map BitVec.toNat ++ childrenBelow nodes nodeNext).Perm (List.range nodeNext)
  /-- item 6 -/
  wc_length : wc.length + nodeNext = 2 * leafCount
  /-- item 7 -/
  summary : ∀ n < nodeNext, ∃ t ∈ treeAt nodes n, t.Summarises
  /-- item 8 -/
  wc_reps : (wc.map fun n => entryRep (entryAt nodes n.toNat)).Nodup
  /-- a leaf's frequency is a nonzero 32-bit number (41_tree_builder.md R123) -/
  leaf_freq : ∀ n < leafCount, 0 < (entryFreq (entryAt nodes n)).toNat ∧ (entryFreq (entryAt nodes n)).toNat < 2 ^ 32
  /-- R136: the leaf sets of the members are disjoint and together are all the leaves -/
  forest_leaves : ((forestOf nodes wc).reduceOption.flatMap CodeTree.leaves).Perm (leafPairs nodes leafCount)

/-- The invariant of every reachable state: 10_state.md R48, and what keeps it (41_tree_builder.md R141, 42_codebook.md
R167, 60_exceptions.md R208). -/
structure BlockInv (s : State) : Prop where
  store : StoreInv s.nodes s.wc s.nodeNext s.leafCount
  /-- item 9 -/
  building : s.phase = .building → 2 ≤ s.wc.length ∧ s.rootValid = false ∧ s.rootIdx = 0
  finished : s.phase.finished = true →
    s.wc.length ≤ 1 ∧ s.rootValid = decide (s.wc.length = 1) ∧ s.rootIdx = s.wc.headD 0
  /-- item 10 -/
  no_codes : s.phase = .building ∨ s.phase = .tree → ∀ b < 256, s.codeOf b = none
  codes : s.phase = .codes →
    ∀ b < 256, (s.codeOf b).map codeString = (deriveCodes s.rootTree).lookup (BitVec.ofNat 8 b)
  /-- item 11 -/
  err : s.errCode = 0 ↔ s.errBit = false
  /-- item 12 -/
  table : s.phase ≠ .empty →
    (List.range s.leafCount).map s.entry =
      (usedBytes s.ft).map fun b => some (.leaf (BitVec.ofNat 8 b) ((s.freqOf b).setWidth 40))
  /-- R141: the construction that remains to be done ends in `build(FT)` -/
  built : s.phase ≠ .empty → mergeToOne (forestOf s.nodes s.wc).reduceOption = buildTree s.ft
  /-- R167 -/
  stored : Memory.wf s
  /-- R208: the latched command is one that issue accepted, on state that cannot change before its completion -/
  latched : s.busy = true → ∃ i, decode s.curCmd = .ok i ∧ i ≠ .srst ∧ s.objection i = none

/-- The states a run reaches from reset, whatever the host does and whenever the sequencer moves. -/
inductive Reachable : State → Prop where
  | reset (events : List Event) : Reachable { State.reset with events := events }
  | step {s t : State} : Reachable s → Machine.step s = .next t → Reachable t

end Sys2Proof.Machine
end

