-- ==== Sys2Proof/Certificates/Slice0/Obligations.lean ====
section
/-! DEFINITION. The statements for the provers, in the order of OBLIGATIONS.json. The names in front of them say in the
spec's words what several statements share. -/

namespace Sys2Proof.Machine

/-- `legal_form(w)` of 30_encoding.md R94, on numbers. -/
abbrev SpecLegal (w : Word) : Prop :=
  w.toNat % 16 ≤ 8 ∧
    ((w.toNat % 16 = 7 ∧ w.toNat / 2 ^ 22 = 0) ∨ (w.toNat % 16 ≠ 7 ∧ w.toNat / 16 = 0))

/-- `w[12:4]` (30_encoding.md R92). -/
abbrev operandA (w : Word) : Nat := w.toNat / 2 ^ 4 % 2 ^ 9

/-- `w[21:13]` (30_encoding.md R92). -/
abbrev operandB (w : Word) : Nat := w.toNat / 2 ^ 13 % 2 ^ 9

/-- The unmapped addresses (20_memory.md R69). -/
abbrev SpecUnmapped (a : Nat) : Prop :=
  (0x00A ≤ a ∧ a ≤ 0x0FF) ∨ (0x300 ≤ a ∧ a ≤ 0x7FF) ∨ (0xFFC ≤ a ∧ a ≤ 0xFFF)

/-- The read-only registers and windows (60_exceptions.md R196). -/
abbrev SpecReadOnly (a : Nat) : Prop :=
  a = 0x000 ∨ a = 0x002 ∨ (0x005 ≤ a ∧ a ≤ 0x009) ∨ (0x200 ≤ a ∧ a ≤ 0x2FF) ∨ (0x800 ≤ a ∧ a ≤ 0xFFB) ∨
    (0x1000 ≤ a ∧ a ≤ 0x1FFF)

/-- The locations whose busy-time reads are `any32()` whole (20_memory.md R73). -/
abbrev SpecBusyUnspecified (a : Nat) : Prop :=
  (0x006 ≤ a ∧ a ≤ 0x008) ∨ (0x100 ≤ a ∧ a ≤ 0x2FF) ∨ (0x800 ≤ a ∧ a ≤ 0xFFB) ∨ (0x1000 ≤ a ∧ a ≤ 0x1FFF)

/-- A word written to `CMD` is the command, accepted in every phase and refused with `BUSY` while one runs
(43_system.md R187). -/
structure AcceptedAlways (i : Instr) (w : Word) : Prop where
  encoding : decode w = .ok i
  accepted : ∀ s : State, s.busy = false → issue w s = .next { s with curCmd := w, busy := true }
  refused : ∀ s : State, s.busy = true → issue w s = .next (s.raiseErr .busy)

/-- As above, for a command that some phases do not admit: there it is refused with `SEQUENCE` (43_system.md R187). -/
structure AcceptedIn (i : Instr) (w : Word) (admits : Phase → Bool) : Prop where
  encoding : decode w = .ok i
  accepted : ∀ s : State, s.busy = false → admits s.phase = true →
    issue w s = .next { s with curCmd := w, busy := true }
  sequence : ∀ s : State, s.busy = false → admits s.phase = false → issue w s = .next (s.raiseErr .sequence)
  refused : ∀ s : State, s.busy = true → issue w s = .next (s.raiseErr .busy)

/-- What the completion of a command other than `SRST` always does, and never does, to the event and command registers
(43_system.md R183); the events to come and the host's record are not its business. -/
structure CompletionFrame (s t : State) : Prop where
  busy : t.busy = false
  ipend : t.ipend = s.ipend ||| 1
  curCmd : t.curCmd = s.curCmd
  ien : t.ien = s.ien
  errCode : t.errCode = s.errCode
  events : t.events = s.events
  replies : t.replies = s.replies
  draws : t.draws = s.draws

/-- The two states agree on every data store, every counter, the root, the phase and `CMPRES`. -/
structure SameResults (s t : State) : Prop where
  ft : t.ft = s.ft
  nodes : t.nodes = s.nodes
  wc : t.wc = s.wc
  nodeNext : t.nodeNext = s.nodeNext
  leafCount : t.leafCount = s.leafCount
  rootIdx : t.rootIdx = s.rootIdx
  rootValid : t.rootValid = s.rootValid
  cb : t.cb = s.cb
  phase : t.phase = s.phase
  cmpRes : t.cmpRes = s.cmpRes

/-- The two states agree on everything a host can read while `BUSY = 1` (20_memory.md R73), on what it has read and on what
comes next. -/
structure SameWhileBusy (s t : State) : Prop where
  busy : s.busy = true ∧ t.busy = true
  curCmd : t.curCmd = s.curCmd
  ien : t.ien = s.ien
  ipend : t.ipend = s.ipend
  errCode : t.errCode = s.errCode
  events : t.events = s.events
  replies : t.replies = s.replies
  draws : t.draws = s.draws

/-- The next event resets the block: `rst_n`, or a legal `SRST` (70_reset_and_hazards.md R220). -/
def NextResets (s : State) : Prop :=
  ∃ rest, s.events = .hardReset :: rest ∨ s.events = .write 0x001 0x00000008 :: rest

/-- The next event is the completion of this command (43_system.md R183). -/
def NextCompletes (s : State) (i : Instr) : Prop :=
  s.busy = true ∧ decode s.curCmd = .ok i ∧ (s.events = [] ∨ ∃ rest, s.events = .completion :: rest)

/-- The block's own state (10_state.md R20): the model's three fields blank. -/
abbrev specElements (s : State) : State := { s with events := [], replies := [], draws := 0 }

/-- Issue of a command word and its completion, as the two next events. -/
def issueAndComplete (w : Word) : List Event := [.write 0x001 w, .completion]

end Sys2Proof.Machine

open Sys2Proof Sys2Proof.Machine

/-! ### Encoding -/

/-- 30_encoding.md R94: a word is a command exactly if it has a legal form, and `CMP` takes its operands from
`w[12:4]` and `w[21:13]`. -/
def Obligations.LegalWordsAreTheCommands : Prop :=
  ∀ w : Word,
    (SpecLegal w → ∃ i, i.WellFormed ∧ decode w = .ok i) ∧
    (¬ SpecLegal w → ∃ e, decode w = .error e) ∧
    ∀ a b, decode w = .ok (.cmp a b) → a = operandA w ∧ b = operandB w

/-- The words that 30_encoding.md R91, R93 and 95_test_vectors.md T16 write out. -/
def Obligations.WrittenCommandWordsDecode : Prop :=
  decode 0x00000000 = .ok .nop ∧ decode 0x00000001 = .ok .clrf ∧ decode 0x00000002 = .ok .init ∧
  decode 0x00000003 = .ok .step ∧ decode 0x00000004 = .ok .build ∧ decode 0x00000005 = .ok .derive ∧
  decode 0x00000006 = .ok .run ∧ decode 0x00000008 = .ok .srst ∧ decode 0x00000007 = .ok (.cmp 0 0) ∧
  decode 0x00002007 = .ok (.cmp 0 1) ∧ decode 0x00000017 = .ok (.cmp 1 0) ∧ decode 0x003FFFF7 = .ok (.cmp 511 511) ∧
  decode 0x00000009 = .error .reservedOpcode ∧ decode 0x0000000F = .error .reservedOpcode ∧
  decode 0xFFFFFFFF = .error .reservedOpcode ∧ decode 0x00000010 = .error .reservedBits ∧
  decode 0x00000018 = .error .reservedBits ∧ decode 0x80000004 = .error .reservedBits ∧
  decode 0x00400007 = .error .reservedBits

/-- Decoding an encoded well-formed command gives it back, with every operand. -/
def Obligations.DecodeOfEncodeIsTheCommand : Prop :=
  ∀ i : Instr, i.WellFormed → decode (encode i) = .ok i

/-- No command has a second spelling: a word that decodes is the encoding of what it decodes to. -/
def Obligations.EncodeOfDecodeIsTheWord : Prop :=
  ∀ (w : Word) (i : Instr), decode w = .ok i → i.WellFormed ∧ encode i = w

/-! ### One step -/

/-- The host's write of a command word to `CMD` runs the decoded command: its issue stage while `BUSY = 0`, and `SRST`
whatever `BUSY` is (43_system.md R182). -/
def Obligations.WriteToCmdRunsTheDecodedCommand : Prop :=
  ∀ (s : State) (rest : List Event) (w : Word) (i : Instr),
    s.events = .write 0x001 w :: rest → decode w = .ok i → s.busy = false ∨ i = .srst →
    step s = exec i { s with events := rest }

/-- The state of `withFetchWord` runs the table word's command in the very next step. The placing of the word is the model's
choice (log 12). -/
def Obligations.FetchedWordRunsNext : Prop :=
  ∀ (s : State) (nbits w : Nat) (i : Instr),
    decodeTableWord nbits w = some i → step (s.withFetchWord nbits w) = exec i { s with busy := false }

/-- The sequencer's step is the completion stage of the latched command (43_system.md R183), in its place in the sequence
of events or, with none left, at once (log 2). -/
def Obligations.SequencerStepRunsTheLatchedCommand : Prop :=
  ∀ (s : State) (i : Instr), s.busy = true → decode s.curCmd = .ok i → i ≠ .srst →
    (s.events = [] → step s = exec i s) ∧
    ∀ rest, s.events = .completion :: rest → step s = exec i { s with events := rest }

/-- Every other event: a read, a write, a reset, and the sequencer's turn or the end of the events while the block is idle
(20_memory.md R74; logs 1, 2, 14). -/
def Obligations.StepPerformsTheNextEvent : Prop :=
  ∀ (s : State) (rest : List Event),
    (∀ addr, s.events = .read addr :: rest → step s = .next (memRead addr { s with events := rest })) ∧
    (∀ addr v, s.events = .write addr v :: rest → step s = memWrite addr v { s with events := rest }) ∧
    (s.events = .hardReset :: rest → step s = .next ({ s with events := rest } : State).resetBlock) ∧
    (s.events = .completion :: rest → s.busy = false → step s = .next { s with events := rest }) ∧
    (s.events = [] → s.busy = false → step s = .next s)

/-! ### Reset -/

/-- 10_state.md R49, element by element. -/
def Obligations.ResetValues : Prop :=
  (∀ b < 256, State.reset.freqOf b = 0) ∧
  (∀ n < 511, entryValid (State.reset.entry n) = false ∧ entryKind (State.reset.entry n) = false ∧
    entryRep (State.reset.entry n) = 0 ∧ entryFreq (State.reset.entry n) = 0 ∧
    entryLeft (State.reset.entry n) = 0 ∧ entryRight (State.reset.entry n) = 0) ∧
  State.reset.wc = [] ∧ State.reset.nodeNext = 0 ∧ State.reset.leafCount = 0 ∧
  State.reset.rootIdx = 0 ∧ State.reset.rootValid = false ∧
  (∀ b < 256, State.reset.codeOf b = none) ∧
  State.reset.phase = .empty ∧ State.reset.busy = false ∧ State.reset.curCmd = 0 ∧ State.reset.cmpRes = false ∧
  State.reset.ien = 0 ∧ State.reset.ipend = 0 ∧ State.reset.errCode = 0 ∧ State.reset.irq = false ∧
  State.reset.regWord .id = 0x48544231 ∧ State.reset.regWord .params = 0x01002820

/-- 43_system.md R181: `SRST` acts at issue, in any state, and leaves every element of the block at its reset value; while a
command runs no other word is accepted; a word of opcode 8 with a reserved bit set is not `SRST`. -/
def Obligations.SoftResetInAnyState : Prop :=
  (∀ s : State, ∃ t, exec .srst s = .next t ∧ specElements t = State.reset) ∧
  (∀ s : State, ∃ t, issue 0x00000008 s = .next t ∧ specElements t = State.reset) ∧
  (∀ (s : State) (w : Word), s.busy = true → w ≠ 0x00000008 → issue w s = .next (s.raiseErr .busy)) ∧
  ∀ (s : State) (w : Word), w.toNat % 16 = 8 → w.toNat / 16 ≠ 0 →
    issue w s = .next (s.raiseErr (if s.busy then .busy else .illegalCmd))

/-- 70_reset_and_hazards.md R221: after a reset, from `rst_n` or from `SRST`, everything reads as it says there, whatever the
state before. The events to come and the host's record are kept (log 20). -/
def Obligations.BothResetsGiveTheResetState : Prop :=
  ∀ (s : State) (rest : List Event),
    s.events = .hardReset :: rest ∨ s.events = .write 0x001 0x00000008 :: rest →
    ∃ t, step s = .next t ∧
      t = { State.reset with events := rest, replies := s.replies, draws := s.draws } ∧ t.irq = false ∧
      ∀ addr : Addr, ¬ SpecUnmapped addr.toNat → memRead addr t =
        t.reply (if addr = 0x000 then 0x48544231 else if addr = 0x009 then 0x01002820 else 0)

/-! ### Issue and errors -/

/-- 43_system.md R182, line by line. -/
def Obligations.IssueProcedure : Prop :=
  ∀ (w : Word) (s : State),
    (SpecLegal w ∧ w.toNat % 16 = 8 → ∃ t, issue w s = .next t ∧ specElements t = State.reset) ∧
    (¬ (SpecLegal w ∧ w.toNat % 16 = 8) → issue w s = .next (
      if s.busy = true then s.raiseErr .busy
      else if ¬ SpecLegal w then s.raiseErr .illegalCmd
      else if w.toNat % 16 = 3 ∧ s.phase ≠ .building then s.raiseErr .sequence
      else if w.toNat % 16 = 5 ∧ (s.phase = .empty ∨ s.phase = .building) then s.raiseErr .sequence
      else if w.toNat % 16 = 7 ∧ s.phase = .empty then s.raiseErr .sequence
      else if w.toNat % 16 = 7 ∧
          (operandA w = 511 ∨ operandB w = 511 ∨ entryValid (s.entry (operandA w)) = false ∨
            entryValid (s.entry (operandB w)) = false) then s.raiseErr .badOperand
      else { s with curCmd := w, busy := true }))

/-- 43_system.md R187, the table of acceptance: `SRST`, and for every other command its row at issue and the phase after its
completion. -/
def Obligations.AcceptanceTable : Prop :=
  ∀ s : State, BlockInv s → (∃ t, issue (encode .srst) s = .next t ∧ t.phase = .empty) ∧
    ∀ i : Instr, i.WellFormed → i ≠ .srst →
    (s.busy = true → issue (encode i) s = .next (s.raiseErr .busy)) ∧
    (s.busy = false → issue (encode i) s = .next (
      match i with
      | .step => if s.phase = .building then s.latch (encode i) else s.raiseErr .sequence
      | .derive => if s.phase = .tree ∨ s.phase = .codes then s.latch (encode i) else s.raiseErr .sequence
      | .cmp a b =>
        if s.phase = .empty then s.raiseErr .sequence
        else if a < s.nodeNext ∧ b < s.nodeNext then s.latch (encode i) else s.raiseErr .badOperand
      | .nop | .clrf | .init | .build | .run | .srst => s.latch (encode i))) ∧
    (s.busy = true → decode s.curCmd = .ok i → ∃ t, exec i s = .next t ∧ t.phase =
      match i with
      | .nop | .cmp _ _ => s.phase
      | .clrf | .srst => .empty
      | .init => if 2 ≤ (usedBytes s.ft).length then .building else .tree
      | .step => if s.wc.length = 2 then .tree else .building
      | .build => .tree
      | .derive | .run => .codes)

/-- 60_exceptions.md R192 and 30_encoding.md R95: an illegal word starts nothing and leaves all but the error record alone;
while busy it records `BUSY`. -/
def Obligations.IllegalWordIsRefused : Prop :=
  ∀ (s : State) (w : Word), ¬ SpecLegal w →
    memWrite 0x001 w s = .next { s with
      errCode := if s.ipend.getLsbD 1 then s.errCode else if s.busy then 3 else 1
      ipend := s.ipend ||| 2 }

/-- 60_exceptions.md R194, with the line of 20_memory.md R82 on `CMD`: what records `BUSY`, what does not, and that nothing
else happens. -/
def Obligations.BusyErrorWhileRunning : Prop :=
  ∀ s : State, s.busy = true →
    (∀ w : Word, w ≠ 0x00000008 → memWrite 0x001 w s = .next (s.raiseErr .busy)) ∧
    (∀ (b : Nat) (v : Word), b < 256 → memWrite (BitVec.ofNat 13 (0x100 + b)) v s = .next (s.raiseErr .busy)) ∧
    (∀ addr : Addr, ¬ SpecUnmapped addr.toNat →
      (memRead addr s).errCode = s.errCode ∧ (memRead addr s).ipend = s.ipend) ∧
    (∀ v : Word, memWrite 0x003 v s = .next { s with ien := v.extractLsb' 0 2 }) ∧
    ∀ v : Word, memWrite 0x004 v s = .next (s.ackEvents v)

/-- 60_exceptions.md R195 and 20_memory.md R69, whatever `BUSY` is. -/
def Obligations.UnmappedAddressIsRefused : Prop :=
  ∀ (s : State) (addr : Addr), SpecUnmapped addr.toNat →
    memRead addr s = (s.raiseErr .badAddr).reply 0 ∧ ∀ v : Word, memWrite addr v s = .next (s.raiseErr .badAddr)

/-- 60_exceptions.md R196, whatever `BUSY` is. -/
def Obligations.ReadOnlyWriteIsRefused : Prop :=
  ∀ (s : State) (addr : Addr) (v : Word), SpecReadOnly addr.toNat → memWrite addr v s = .next (s.raiseErr .roWrite)

/-- 60_exceptions.md R199 with the codes of R191: everything that recording an error changes. -/
def Obligations.ErrorRecording : Prop :=
  ∀ (s : State) (e : ErrorKind),
    s.raiseErr e = { s with
      errCode := if s.ipend.getLsbD 1 then s.errCode else
        match e with
        | .illegalCmd => 1
        | .sequence => 2
        | .busy => 3
        | .badAddr => 4
        | .roWrite => 5
        | .badOperand => 6
      ipend := s.ipend ||| 2 }

/-- 60_exceptions.md R200: while an error is on record, no step but an acknowledgement or a reset changes or clears it. -/
def Obligations.FirstErrorStaysOnRecord : Prop :=
  ∀ s t : State, step s = .next t → s.ipend.getLsbD 1 = true → ¬ NextResets s →
    (¬ ∃ v rest, s.events = .write 0x004 v :: rest ∧ v.getLsbD 1 = true) →
    t.ipend.getLsbD 1 = true ∧ t.errCode = s.errCode

/-- 43_system.md R185 and R186, at any time: the writes and the reads of `IEN` and `IPEND`. -/
def Obligations.EventRegisters : Prop :=
  ∀ (s : State) (v : Word),
    memWrite 0x003 v s = .next { s with ien := v.extractLsb' 0 2 } ∧
    memRead 0x003 s = s.reply (s.ien.setWidth 32) ∧
    memWrite 0x004 v s = .next { s with
      ipend := s.ipend &&& ~~~(v.extractLsb' 0 2)
      errCode := if s.ipend.getLsbD 1 && !v.getLsbD 1 then s.errCode else 0 } ∧
    memRead 0x004 s = s.reply (s.ipend.setWidth 32)

/-- 40_frequency_table.md R111: the host's write to `FT`, busy and idle, and the read that follows an accepted one. -/
def Obligations.FrequencyTableWrite : Prop :=
  ∀ (s : State) (b : Nat) (v : Word), b < 256 →
    (s.busy = true → memWrite (BitVec.ofNat 13 (0x100 + b)) v s = .next (s.raiseErr .busy)) ∧
    (s.busy = false → ∃ t, memWrite (BitVec.ofNat 13 (0x100 + b)) v s = .next t ∧
      t = { s with ft := t.ft, phase := .empty } ∧ (∀ c, t.freqOf c = if c = b then v else s.freqOf c) ∧
      memRead (BitVec.ofNat 13 (0x100 + b)) t = t.reply v)

/-- 10_state.md R30: `CUR_CMD` and `BUSY` change only by acceptance, completion and reset. -/
def Obligations.LatchedCommandChangesOnlyByIssue : Prop :=
  ∀ s t : State, step s = .next t → ¬ NextResets s →
    (t.curCmd = s.curCmd ∧ (t.busy = s.busy ∨ ∃ i, NextCompletes s i ∧ t.busy = false)) ∨
    ∃ w rest, s.events = .write 0x001 w :: rest ∧ s.busy = false ∧ SpecLegal w ∧ t.curCmd = w ∧ t.busy = true

/-! ### Reads -/

/-- 10_state.md R34, R39, R43, and the reads of R35, R37, R38: the registers that read alike whatever `BUSY` is. -/
def Obligations.AlwaysDefinedRegisters : Prop :=
  ∀ s : State,
    memRead 0x000 s = s.reply 0x48544231 ∧ memRead 0x001 s = s.reply s.curCmd ∧
    memRead 0x003 s = s.reply (s.ien.setWidth 32) ∧ memRead 0x004 s = s.reply (s.ipend.setWidth 32) ∧
    memRead 0x005 s = s.reply (s.errCode.setWidth 32) ∧ memRead 0x009 s = s.reply 0x01002820

/-- 10_state.md R36, bit for bit, most significant field first; the five unspecified bits of a busy-time read are the low bits
of a free value. -/
def Obligations.StatusRegister : Prop :=
  ∀ s : State,
    (s.busy = false → memRead 0x002 s = s.reply (0#24 ++ BitVec.ofBool (s.ipend.getLsbD 0) ++
      BitVec.ofBool (s.ipend.getLsbD 1) ++ BitVec.ofBool s.cmpRes ++
      BitVec.ofBool (decide ((s.phase = .tree ∨ s.phase = .codes) ∧ s.leafCount = 1)) ++
      BitVec.ofBool (decide ((s.phase = .tree ∨ s.phase = .codes) ∧ s.leafCount = 0)) ++
      (match s.phase with
        | .empty => 0#2
        | .building => 1#2
        | .tree => 2#2
        | .codes => 3#2) ++ 0#1)) ∧
    (memRead 0x002 State.reset = State.reset.reply 0) ∧
    (s.busy = true → memRead 0x002 s = s.replyDrawn fun x => 0#24 ++ BitVec.ofBool (s.ipend.getLsbD 0) ++
      BitVec.ofBool (s.ipend.getLsbD 1) ++ x.extractLsb' 0 5 ++ 1#1)

/-- 10_state.md R40, R41, R42. The counters' bounds are 10_state.md R48 item 1. -/
def Obligations.RootAndCounterRegisters : Prop :=
  ∀ s : State, BlockInv s →
    (s.busy = false →
      memRead 0x006 s = s.reply (BitVec.ofBool s.rootValid ++ 0#22 ++ s.rootIdx) ∧
      memRead 0x007 s = s.reply (0#7 ++ BitVec.ofNat 9 s.nodeNext ++ 0#7 ++ BitVec.ofNat 9 s.leafCount) ∧
      memRead 0x008 s = s.reply (0#23 ++ BitVec.ofNat 9 s.wc.length) ∧
      s.nodeNext < 2 ^ 9 ∧ s.leafCount < 2 ^ 9 ∧ s.wc.length < 2 ^ 9) ∧
    (∀ addr ∈ [(0x006 : Addr), 0x007, 0x008], memRead addr State.reset = State.reset.reply 0) ∧
    (s.busy = true → memRead 0x006 s = s.replyDrawn id ∧ memRead 0x007 s = s.replyDrawn id ∧
      memRead 0x008 s = s.replyDrawn id)

/-- 40_frequency_table.md R115 and 20_memory.md R65: the `FT` and `WC` windows. -/
def Obligations.TableAndCollectionWindows : Prop :=
  ∀ (s : State) (j : Nat), j < 256 →
    (s.busy = false → memRead (BitVec.ofNat 13 (0x100 + j)) s = s.reply (s.freqOf j)) ∧
    (s.busy = true → memRead (BitVec.ofNat 13 (0x100 + j)) s = s.replyDrawn id) ∧
    (s.busy = false → ∀ h : j < s.wc.length,
      memRead (BitVec.ofNat 13 (0x200 + j)) s = s.reply (0#23 ++ s.wc[j])) ∧
    (s.busy = false → s.wc.length ≤ j → memRead (BitVec.ofNat 13 (0x200 + j)) s = s.reply 0) ∧
    ∀ v : Word, memWrite (BitVec.ofNat 13 (0x200 + j)) v s = .next (s.raiseErr .roWrite)

/-- 20_memory.md R66, word by word. -/
def Obligations.NodeWindow : Prop :=
  ∀ (s : State) (n : Nat), n < 511 →
    (s.busy = false →
      memRead (BitVec.ofNat 13 (0x800 + 4 * n)) s = s.reply ((entryFreq (s.entry n)).extractLsb' 0 32) ∧
      memRead (BitVec.ofNat 13 (0x801 + 4 * n)) s = s.reply (0#24 ++ (entryFreq (s.entry n)).extractLsb' 32 8) ∧
      memRead (BitVec.ofNat 13 (0x802 + 4 * n)) s = s.reply (BitVec.ofBool (entryValid (s.entry n)) ++
        BitVec.ofBool (entryKind (s.entry n)) ++ 0#4 ++ entryRep (s.entry n) ++ entryRight (s.entry n) ++
        entryLeft (s.entry n)) ∧
      memRead (BitVec.ofNat 13 (0x803 + 4 * n)) s = s.reply 0) ∧
    (s.busy = false → entryValid (s.entry n) = false → ∀ f < 4,
      memRead (BitVec.ofNat 13 (0x800 + 4 * n + f)) s = s.reply 0) ∧
    ∀ f < 4, ∀ v : Word, memWrite (BitVec.ofNat 13 (0x800 + 4 * n + f)) v s = .next (s.raiseErr .roWrite)

/-- 20_memory.md R67 and R68: symbol `32 * w + j` of a code is bit `j` of word `w`; `INFO`; the reserved words. -/
def Obligations.CodeBookWindow : Prop :=
  ∀ (s : State) (b : Nat), b < 256 →
    (s.busy = false →
      (∀ w < 8, ∃ x : Word, memRead (BitVec.ofNat 13 (0x1000 + 16 * b + w)) s = s.reply x ∧
        ∀ j < 32, x.getLsbD j =
          match s.codeOf b with
          | some c => c.bits.getLsbD (32 * w + j)
          | none => false) ∧
      (memRead (BitVec.ofNat 13 (0x1008 + 16 * b)) s = s.reply (
        match s.codeOf b with
        | some c => 1#1 ++ 0#23 ++ c.len
        | none => 0)) ∧
      ∀ w < 16, 9 ≤ w → memRead (BitVec.ofNat 13 (0x1000 + 16 * b + w)) s = s.reply 0) ∧
    ∀ w < 16, ∀ v : Word, memWrite (BitVec.ofNat 13 (0x1000 + 16 * b + w)) v s = .next (s.raiseErr .roWrite)

/-- 20_memory.md R73: while `BUSY = 1` the one class of locations reads free values and records no error, the other reads its
true values. `STATUS` stands in the statement on that register. -/
def Obligations.BusyTimeReads : Prop :=
  ∀ (s : State) (addr : Addr), s.busy = true → ¬ SpecUnmapped addr.toNat → addr ≠ 0x002 →
    (SpecBusyUnspecified addr.toNat → memRead addr s =
      { s with replies := Config.any32 s.draws :: s.replies, draws := s.draws + 1 }) ∧
    (¬ SpecBusyUnspecified addr.toNat → memRead addr s = s.reply (
      if addr = 0x000 then 0x48544231
      else if addr = 0x001 then s.curCmd
      else if addr = 0x003 then s.ien.setWidth 32
      else if addr = 0x004 then s.ipend.setWidth 32
      else if addr = 0x005 then s.errCode.setWidth 32
      else 0x01002820))

/-- 20_memory.md R73 and 70_reset_and_hazards.md R229: while a command runs, two blocks that differ only in what it works on
look the same to the host after every transaction. -/
def Obligations.RunningCommandRevealsNothing : Prop :=
  ∀ (s s' t t' : State) (e : Event) (rest : List Event), SameWhileBusy s s' → s.events = e :: rest → e ≠ .completion →
    step s = .next t → step s' = .next t' → SameWhileBusy t t' ∨ (NextResets s ∧ t = t')

/-- 20_memory.md R72: a read changes nothing but the host's own record, except that a read of an unmapped address records
`BAD_ADDR`; the same read again returns the same word while the block is idle. -/
def Obligations.ReadsHaveNoSideEffect : Prop :=
  ∀ (s : State) (addr : Addr),
    (¬ SpecUnmapped addr.toNat →
      memRead addr s = { s with replies := (memRead addr s).replies, draws := (memRead addr s).draws }) ∧
    (SpecUnmapped addr.toNat →
      memRead addr s = { s.raiseErr .badAddr with replies := (memRead addr s).replies }) ∧
    (s.busy = false → ∃ w, (memRead addr s).replies = w :: s.replies ∧
      (memRead addr (memRead addr s)).replies = w :: w :: s.replies)

/-- 10_state.md R51. -/
def Obligations.InterruptLine : Prop :=
  ∀ s : State, s.irq = true ↔
    (s.ipend.getLsbD 0 = true ∧ s.ien.getLsbD 0 = true) ∨ (s.ipend.getLsbD 1 = true ∧ s.ien.getLsbD 1 = true)

/-! ### Commands -/

/-- 43_system.md R180. -/
def Obligations.NopCompletes : Prop :=
  AcceptedAlways .nop 0x00000000 ∧
  ∀ s : State, s.busy = true → exec .nop s = .next { s with busy := false, ipend := s.ipend ||| 1 }

/-- 40_frequency_table.md R112. -/
def Obligations.ClrfCompletes : Prop :=
  AcceptedAlways .clrf 0x00000001 ∧
  ∀ s : State, s.busy = true → ∃ t, exec .clrf s = .next t ∧ (∀ b < 256, t.freqOf b = 0) ∧
    t = { s with ft := t.ft, phase := .empty, busy := false, ipend := s.ipend ||| 1 }

/-- 41_tree_builder.md R120 and R122: the comparison on numbers, and that nothing else changes; with the refusals of R122. -/
def Obligations.CmpCompletes : Prop :=
  (∀ (s : State) (a b : Nat), s.busy = true →
    exec (.cmp a b) s = .next { s with
      cmpRes := decide ((entryFreq (s.entry a)).toNat < (entryFreq (s.entry b)).toNat ∨
        ((entryFreq (s.entry a)).toNat = (entryFreq (s.entry b)).toNat ∧
          (entryRep (s.entry a)).toNat ≤ (entryRep (s.entry b)).toNat))
      busy := false
      ipend := s.ipend ||| 1 }) ∧
  (∀ (s : State) (a b : Nat), a < 512 → b < 512 → s.busy = true →
    issue (encode (.cmp a b)) s = .next (s.raiseErr .busy)) ∧
  ∀ (s : State) (a b : Nat), a < 512 → b < 512 → s.busy = false →
    issue (encode (.cmp a b)) s = .next (
      if s.phase = .empty then s.raiseErr .sequence
      else if a ≤ 510 ∧ b ≤ 510 ∧ entryValid (s.entry a) = true ∧ entryValid (s.entry b) = true then
        { s with curCmd := BitVec.ofNat 32 (b * 2 ^ 13 + a * 2 ^ 4 + 7), busy := true }
      else s.raiseErr .badOperand)

/-- 41_tree_builder.md R123, R124: the leaves in ascending byte order, the working collection, the phase, and what is left
alone; from any state. -/
def Obligations.InitCreatesTheLeaves : Prop :=
  AcceptedAlways .init 0x00000002 ∧
  ∀ s : State, s.busy = true → ∃ t, exec .init s = .next t ∧
    t.leafCount = (usedBytes s.ft).length ∧ t.nodeNext = t.leafCount ∧
    t.wc = (List.range t.leafCount).map (BitVec.ofNat 9) ∧
    (∀ (j : Nat) (h : j < (usedBytes s.ft).length), t.entry j =
      some (.leaf (BitVec.ofNat 8 (usedBytes s.ft)[j]) ((s.freqOf (usedBytes s.ft)[j]).setWidth 40))) ∧
    (∀ n, t.leafCount ≤ n → t.entry n = none) ∧ (∀ b < 256, t.codeOf b = none) ∧ t.rootIdx = 0 ∧
    t.rootValid = decide (t.leafCount = 1) ∧ t.phase = (if 2 ≤ t.leafCount then .building else .tree) ∧
    t.ft = s.ft ∧ t.cmpRes = s.cmpRes ∧ CompletionFrame s t

/-- 41_tree_builder.md R128 to R132: the two strict minima are merged, the first as the left child; the sum does not wrap; the
new index overwrites the lower slot and the higher is deleted; the last merge finishes; nothing else changes. -/
def Obligations.StepMergesTheTwoMinima : Prop :=
  AcceptedIn .step 0x00000003 (fun p => p == .building) ∧
  ∀ s : State, BlockInv s → s.busy = true → s.phase = .building →
    ∃ (t : State) (i1 i2 : Nat) (a b : NodeIdx), exec .step s = .next t ∧
      s.wc[i1]? = some a ∧ s.wc[i2]? = some b ∧ i1 ≠ i2 ∧
      (∀ (i : Nat) (c : NodeIdx), s.wc[i]? = some c → i ≠ i1 →
        comesBefore (s.entry a.toNat) (s.entry c.toNat) = true ∧
          comesBefore (s.entry c.toNat) (s.entry a.toNat) = false) ∧
      (∀ (i : Nat) (c : NodeIdx), s.wc[i]? = some c → i ≠ i1 → i ≠ i2 →
        comesBefore (s.entry b.toNat) (s.entry c.toNat) = true ∧
          comesBefore (s.entry c.toNat) (s.entry b.toNat) = false) ∧
      entryValid (t.entry s.nodeNext) = true ∧ entryKind (t.entry s.nodeNext) = true ∧
      (entryRep (t.entry s.nodeNext)).toNat =
        min (entryRep (s.entry a.toNat)).toNat (entryRep (s.entry b.toNat)).toNat ∧
      (entryFreq (t.entry s.nodeNext)).toNat =
        (entryFreq (s.entry a.toNat)).toNat + (entryFreq (s.entry b.toNat)).toNat ∧
      entryLeft (t.entry s.nodeNext) = a ∧ entryRight (t.entry s.nodeNext) = b ∧
      (∀ n, n ≠ s.nodeNext → t.entry n = s.entry n) ∧ t.nodeNext = s.nodeNext + 1 ∧
      t.wc = (s.wc.set (min i1 i2) (BitVec.ofNat 9 s.nodeNext)).eraseIdx (max i1 i2) ∧
      t.phase = (if s.wc.length = 2 then .tree else .building) ∧
      t.rootValid = decide (s.wc.length = 2) ∧
      t.rootIdx = (if s.wc.length = 2 then BitVec.ofNat 9 s.nodeNext else 0) ∧
      t.leafCount = s.leafCount ∧ t.ft = s.ft ∧ t.cb = s.cb ∧ t.cmpRes = s.cmpRes ∧ CompletionFrame s t

/-- 41_tree_builder.md R134, R135, R141: from any state, `BUILD` leaves the tree `build(FT)`, the leaves first and in order, no
entry past the last node (R123 clears the store), and an empty code book; nothing else changes. -/
def Obligations.BuildLeavesTheTreeOfTheTable : Prop :=
  AcceptedAlways .build 0x00000004 ∧
  ∀ s : State, s.busy = true → ∃ t, exec .build s = .next t ∧
    t.phase = .tree ∧ t.rootTree = buildTree s.ft ∧ t.rootValid = (buildTree s.ft).isSome ∧
    t.leafCount = (usedBytes s.ft).length ∧ t.nodeNext = 2 * t.leafCount - 1 ∧
    t.wc = (if t.rootValid then [t.rootIdx] else []) ∧
    (∀ (j : Nat) (h : j < (usedBytes s.ft).length), t.entry j =
      some (.leaf (BitVec.ofNat 8 (usedBytes s.ft)[j]) ((s.freqOf (usedBytes s.ft)[j]).setWidth 40))) ∧
    (∀ n, t.nodeNext ≤ n → t.entry n = none) ∧ (∀ b < 256, t.codeOf b = none) ∧
    t.ft = s.ft ∧ t.cmpRes = s.cmpRes ∧ CompletionFrame s t

/-- 41_tree_builder.md R134: `BUILD` ends in the state that `INIT` and `LEAF_COUNT - 1` `STEP`s end in, but for `CUR_CMD`. -/
def Obligations.BuildEqualsInitAndSteps : Prop :=
  ∀ s : State, s.busy = false →
    ∃ t u : State,
      Host.Core.run Sys2Proof.core 2 { s with events := issueAndComplete 0x00000004 } = .next t ∧
      Host.Core.run Sys2Proof.core (2 + 2 * ((usedBytes s.ft).length - 1))
        { s with events := issueAndComplete 0x00000002 ++
            (List.replicate ((usedBytes s.ft).length - 1) (issueAndComplete 0x00000003)).flatten } = .next u ∧
      t.phase = .tree ∧ u = { t with curCmd := u.curCmd }

/-- 42_codebook.md R161, R163, R164: the code book becomes `derive` of the finished tree; nothing else changes. -/
def Obligations.DeriveFillsTheCodeBook : Prop :=
  AcceptedIn .derive 0x00000005 (fun p => p == .tree || p == .codes) ∧
  ∀ s : State, BlockInv s → s.busy = true → s.phase = .tree ∨ s.phase = .codes →
    ∃ t, exec .derive s = .next t ∧ t.phase = .codes ∧
      (∀ b < 256, (t.codeOf b).map codeString = (deriveCodes s.rootTree).lookup (BitVec.ofNat 8 b)) ∧
      (∀ b < 256, ∀ c, t.codeOf b = some c → ∀ i, c.len.toNat ≤ i → c.bits.getLsbD i = false) ∧
      t.nodes = s.nodes ∧ t.wc = s.wc ∧ t.nodeNext = s.nodeNext ∧ t.leafCount = s.leafCount ∧
      t.rootIdx = s.rootIdx ∧ t.rootValid = s.rootValid ∧ t.ft = s.ft ∧ t.cmpRes = s.cmpRes ∧ CompletionFrame s t

/-- 42_codebook.md R168 and 00_scope.md R2: from any state, `RUN` leaves the tree of the table, as `BUILD` does, and its codes;
nothing else changes. -/
def Obligations.RunBuildsAndDerives : Prop :=
  AcceptedAlways .run 0x00000006 ∧
  ∀ s : State, s.busy = true → ∃ t, exec .run s = .next t ∧
    t.phase = .codes ∧ t.rootTree = buildTree s.ft ∧ t.rootValid = (buildTree s.ft).isSome ∧
    t.leafCount = (usedBytes s.ft).length ∧ t.nodeNext = 2 * t.leafCount - 1 ∧
    t.wc = (if t.rootValid then [t.rootIdx] else []) ∧
    (∀ (j : Nat) (h : j < (usedBytes s.ft).length), t.entry j =
      some (.leaf (BitVec.ofNat 8 (usedBytes s.ft)[j]) ((s.freqOf (usedBytes s.ft)[j]).setWidth 40))) ∧
    (∀ n, t.nodeNext ≤ n → t.entry n = none) ∧
    (∀ b < 256, (t.codeOf b).map codeString = (deriveCodes (buildTree s.ft)).lookup (BitVec.ofNat 8 b)) ∧
    (∀ b < 256, ∀ c, t.codeOf b = some c → ∀ i, c.len.toNat ≤ i → c.bits.getLsbD i = false) ∧
    t.ft = s.ft ∧ t.cmpRes = s.cmpRes ∧ CompletionFrame s t

/-- 42_codebook.md R168: `RUN` ends in the state that `BUILD` and then `DERIVE` end in, but for `CUR_CMD`. -/
def Obligations.RunEqualsBuildThenDerive : Prop :=
  ∀ s : State, s.busy = false →
    ∃ t u : State,
      Host.Core.run Sys2Proof.core 2 { s with events := issueAndComplete 0x00000006 } = .next t ∧
      Host.Core.run Sys2Proof.core 4
        { s with events := issueAndComplete 0x00000004 ++ issueAndComplete 0x00000005 } = .next u ∧
      u = { t with curCmd := u.curCmd }

/-! ### The whole machine -/

/-- The reset state meets the invariant, whatever the host will do. -/
def Obligations.ResetMeetsInvariant : Prop :=
  ∀ events : List Event, BlockInv { State.reset with events := events }

/-- Every step keeps the invariant. -/
def Obligations.StepKeepsInvariant : Prop :=
  ∀ s t : State, BlockInv s → step s = .next t → BlockInv t

/-- 43_system.md R184, 60_exceptions.md R208: the block is never stuck, and no accepted command fails. -/
def Obligations.BlockIsNeverStuck : Prop :=
  ∀ s : State, BlockInv s → ∃ t, step s = .next t

/-- 10_state.md R48, all twelve items, for every state a run reaches. -/
def Obligations.ReachableStatesMeetInvariant : Prop :=
  ∀ s : State, Reachable s → BlockInv s

/-- 43_system.md R184, 70_reset_and_hazards.md R232: `BUSY` falls; unless a reset abandoned the command, `DONE` is then
set. The spec gives no bound: that it falls before the events run out, or at the step after the last one, is the model's choice
(log 2). -/
def Obligations.EveryAcceptedCommandCompletes : Prop :=
  ∀ s : State, BlockInv s → s.busy = true →
    ∃ (k : Nat) (t : State), k ≤ s.events.length + 1 ∧ Host.Core.run Sys2Proof.core k s = .next t ∧ t.busy = false ∧
      ((∀ e ∈ s.events, e ≠ .hardReset ∧ e ≠ .write 0x001 0x00000008) → t.doneBit = true)

/-- 43_system.md R183, 20_memory.md R76: a transaction other than a reset disturbs neither the running command nor what it
works on, so its result does not depend on when it completes. -/
def Obligations.RunningCommandIsUndisturbed : Prop :=
  ∀ (s s' : State) (e : Event), BlockInv s → s.busy = true → e ≠ .completion → e ≠ .hardReset →
    e ≠ .write 0x001 0x00000008 → perform e s = .next s' →
    SameResults s s' ∧ s'.curCmd = s.curCmd ∧ s'.busy = true ∧
    ∃ t t', complete s = .next t ∧ complete s' = .next t' ∧ SameResults t t' ∧ t'.doneBit = true

/-- 42_codebook.md R170, and 10_state.md R21, R22, R25, R31 with the table of 20_memory.md R77: who writes which store; a change
of the table makes the construction stale. -/
def Obligations.StoreWriters : Prop :=
  ∀ s t : State, step s = .next t → ¬ NextResets s →
    (t.cb ≠ s.cb → ∃ i, NextCompletes s i ∧ (i = .init ∨ i = .build ∨ i = .derive ∨ i = .run)) ∧
    (t.nodes ≠ s.nodes ∨ t.wc ≠ s.wc ∨ t.nodeNext ≠ s.nodeNext ∨ t.rootIdx ≠ s.rootIdx ∨ t.rootValid ≠ s.rootValid →
      ∃ i, NextCompletes s i ∧ (i = .init ∨ i = .step ∨ i = .build ∨ i = .run)) ∧
    (t.leafCount ≠ s.leafCount → ∃ i, NextCompletes s i ∧ (i = .init ∨ i = .build ∨ i = .run)) ∧
    (t.cmpRes ≠ s.cmpRes → ∃ a b, NextCompletes s (.cmp a b)) ∧
    (t.ft ≠ s.ft → NextCompletes s .clrf ∨
      ∃ b v rest, b < 256 ∧ s.busy = false ∧ s.events = .write (BitVec.ofNat 13 (0x100 + b)) v :: rest) ∧
    (t.ft ≠ s.ft → t.phase = .empty) ∧
    (t.ien ≠ s.ien → ∃ v rest, s.events = .write 0x003 v :: rest)

/-- 41_tree_builder.md R138: which of exactly tied nodes a scan keeps is never observable. -/
def Obligations.TieKeepIsUnobservable : Prop :=
  ∀ (s : State) (keep : TieKeep), BlockInv s →
    selectTwo keep comesBefore s.members = selectTwo Config.tieKeep comesBefore s.members

/-- 41_tree_builder.md R138: the tree does not depend on where in the working collection the members stand. -/
def Obligations.PositionsAreUnobservable : Prop :=
  ∀ l l' : List CodeTree, l.Perm l' → (l.map CodeTree.rep).Nodup → mergeToOne l = mergeToOne l'

/-- 41_tree_builder.md R139: what `BUILD` leaves is a function of `FT` alone; so is what `RUN` leaves. -/
def Obligations.ConstructionIsAFunctionOfTheTable : Prop :=
  ∀ (s s' : State) (i : Instr), i = .build ∨ i = .run → s.busy = true → s'.busy = true → s.ft = s'.ft →
    ∃ t t', exec i s = .next t ∧ exec i s' = .next t' ∧ t'.nodes = t.nodes ∧ t'.wc = t.wc ∧
      t'.nodeNext = t.nodeNext ∧ t'.leafCount = t.leafCount ∧ t'.rootIdx = t.rootIdx ∧
      t'.rootValid = t.rootValid ∧ t'.phase = t.phase ∧ t'.cb = t.cb

/-- 00_scope.md R2, 41_tree_builder.md R141, 42_codebook.md R160: in every reachable state a finished construction is `build`
of the present table, and a derived code book is `derive` of that tree. -/
def Obligations.FinishedTreeAndCodesAreThoseOfTheTable : Prop :=
  ∀ s : State, Reachable s →
    (s.phase = .tree ∨ s.phase = .codes →
      (s.rootValid = false ↔ buildTree s.ft = none) ∧
      (s.rootValid = true → s.treeOf s.rootIdx.toNat = buildTree s.ft)) ∧
    (s.phase = .codes → ∀ b < 256,
      (s.codeOf b).map codeString = (deriveCodes (buildTree s.ft)).lookup (BitVec.ofNat 8 b))

/-- 41_tree_builder.md R142. -/
def Obligations.RootSumsTheTable : Prop :=
  ∀ s : State, BlockInv s → s.phase = .tree ∨ s.phase = .codes → s.rootValid = true →
    (entryFreq (s.entry s.rootIdx.toNat)).toNat = ((List.range 256).map fun b => (s.freqOf b).toNat).sum ∧
    s.freqOf (entryRep (s.entry s.rootIdx.toNat)).toNat ≠ 0 ∧
    ∀ b < 256, s.freqOf b ≠ 0 → (entryRep (s.entry s.rootIdx.toNat)).toNat ≤ b

/-- 41_tree_builder.md R135: how many nodes a finished construction has, and how they are numbered. -/
def Obligations.NodeCountAndNumbering : Prop :=
  ∀ s : State, BlockInv s → s.phase = .tree ∨ s.phase = .codes →
    s.leafCount = (usedBytes s.ft).length ∧ s.leafCount ≤ 256 ∧ s.nodeNext ≤ 511 ∧
    (s.leafCount = 0 → s.nodeNext = 0 ∧ s.rootValid = false) ∧
    (1 ≤ s.leafCount → s.nodeNext = 2 * s.leafCount - 1 ∧ s.rootValid = true ∧
      s.rootIdx.toNat = 2 * s.leafCount - 2) ∧
    (∀ j < s.leafCount, entryKind (s.entry j) = false) ∧
    (∀ j < s.leafCount, ∀ i < j, entryRep (s.entry i) < entryRep (s.entry j)) ∧
    ∀ n, s.leafCount ≤ n → n < s.nodeNext → entryKind (s.entry n) = true ∧
      (entryLeft (s.entry n)).toNat < n ∧ (entryRight (s.entry n)).toNat < n

/-- 42_codebook.md R169: the byte values that occur have codes and no others; their lengths meet the Kraft equality, which
the rule takes from general knowledge and states for two or more codes (it holds of one code, whose length is 0, as well). -/
def Obligations.CodesForExactlyTheUsedBytes : Prop :=
  ∀ s : State, BlockInv s → s.phase = .codes →
    (∀ b < 256, (s.codeOf b).isSome = true ↔ s.freqOf b ≠ 0) ∧
    (1 ≤ s.leafCount → ((List.range 256).map fun b =>
      match s.codeOf b with
      | some c => 2 ^ (255 - c.len.toNat)
      | none => 0).sum = 2 ^ 255)

/-- 42_codebook.md R166. -/
def Obligations.CodesAreAPrefixCode : Prop :=
  ∀ (s : State) (b b' : Nat) (c c' : Code), BlockInv s → s.phase = .codes → b < 256 → b' < 256 → b ≠ b' →
    s.codeOf b = some c → s.codeOf b' = some c' → ¬ codeString c <+: codeString c'

/-- 42_codebook.md R165. -/
def Obligations.CodeLengthIsBelowLeafCount : Prop :=
  ∀ (s : State) (b : Nat) (c : Code), BlockInv s → s.phase = .codes → b < 256 → s.codeOf b = some c →
    c.len.toNat < s.leafCount ∧ s.leafCount ≤ 256

/-- 42_codebook.md R167: no symbol bit stands at or past a code's length, so equal codes have equal records. -/
def Obligations.EqualCodesHaveEqualRecords : Prop :=
  ∀ (s : State) (b b' : Nat) (c c' : Code), Reachable s → s.codeOf b = some c → s.codeOf b' = some c' →
    (∀ i, c.len.toNat ≤ i → c.bits.getLsbD i = false) ∧ (codeString c = codeString c' → c = c')
end

