-- ==== Sys2Proof/Laws/Addresses.lean ====
section
/-! SUPPORT. The address map (spec/20_memory.md R62) read both ways, and a read once its region is known. -/

namespace Sys2Proof.Machine

/-! ### The windows -/

theorem region_ft {b : Nat} (hb : b < 256) : region (BitVec.ofNat 13 (0x100 + b)) = .ft b := by
  unfold region
  have : (BitVec.ofNat 13 (0x100 + b)).toNat = 0x100 + b := by simp; omega
  simp only [this]
  rw [if_neg (by omega), if_neg (by omega), if_pos (by omega)]
  exact congrArg Region.ft (by omega)

theorem region_wc {b : Nat} (hb : b < 256) : region (BitVec.ofNat 13 (0x200 + b)) = .wc b := by
  unfold region
  have : (BitVec.ofNat 13 (0x200 + b)).toNat = 0x200 + b := by simp; omega
  simp only [this]
  rw [if_neg (by omega), if_neg (by omega), if_neg (by omega), if_pos (by omega)]
  exact congrArg Region.wc (by omega)

theorem region_node {n f : Nat} (hn : n < 511) (hf : f < 4) : region (BitVec.ofNat 13 (0x800 + 4 * n + f))
    = .node n f := by
  unfold region
  have : (BitVec.ofNat 13 (0x800 + 4 * n + f)).toNat = 0x800 + 4 * n + f := by simp; omega
  simp only [this]
  rw [if_neg (by omega), if_neg (by omega), if_neg (by omega), if_neg (by omega), if_neg (by omega), if_pos (by omega)]
  congr 1 <;> omega

theorem region_cb {b w : Nat} (hb : b < 256) (hw : w < 16) : region (BitVec.ofNat 13 (0x1000 + 16 * b + w))
    = .cb b w := by
  unfold region
  have : (BitVec.ofNat 13 (0x1000 + 16 * b + w)).toNat = 0x1000 + 16 * b + w := by simp; omega
  simp only [this]
  rw [if_neg (by omega), if_neg (by omega), if_neg (by omega), if_neg (by omega), if_neg (by omega),
      if_neg (by omega), if_neg (by omega)]
  congr 1 <;> omega

/-! ### What a region says of its address -/

theorem region_cmd : region 0x001 = .reg .cmd := by simp [region, regAt]

theorem region_ipend : region 0x004 = .reg .ipend := by simp [region, regAt]

theorem addr_of_region_cmd {addr : Addr} (h : region addr = .reg .cmd) : addr = 1 := by
  rw [← BitVec.toNat_inj, show (1 : Addr).toNat = 1 from rfl]
  unfold region at h
  simp only at h
  generalize addr.toNat = a at *
  by_cases h1 : a < 10
  · rw [if_pos h1] at h
    interval_cases a <;> simp [regAt] at h ⊢
  · rw [if_neg h1] at h
    repeat' split at h
    all_goals simp at h

theorem addr_of_region_ien {addr : Addr} (h : region addr = .reg .ien) : addr = 3 := by
  rw [← BitVec.toNat_inj, show (3 : Addr).toNat = 3 from rfl]
  unfold region at h
  simp only at h
  generalize addr.toNat = a at *
  by_cases h1 : a < 10
  · rw [if_pos h1] at h
    interval_cases a <;> simp [regAt] at h ⊢
  · rw [if_neg h1] at h
    repeat' split at h
    all_goals simp at h

theorem addr_of_region_ipend {addr : Addr} (h : region addr = .reg .ipend) : addr = 4 := by
  rw [← BitVec.toNat_inj, show (4 : Addr).toNat = 4 from rfl]
  unfold region at h
  simp only at h
  generalize addr.toNat = a at *
  by_cases h1 : a < 10
  · rw [if_pos h1] at h
    interval_cases a <;> simp [regAt] at h ⊢
  · rw [if_neg h1] at h
    repeat' split at h
    all_goals simp at h

theorem addr_of_region_ft {addr : Addr} {b : Nat} (h : region addr = .ft b) : b < 256 ∧
    addr = BitVec.ofNat 13 (0x100 + b) := by
  rw [← BitVec.toNat_inj]
  unfold region at h
  simp only at h
  have := addr.isLt
  generalize addr.toNat = a at *
  by_cases h1 : a < 10
  · rw [if_pos h1] at h; simp at h
  · rw [if_neg h1] at h
    split at h
    · simp at h
    · split at h
      · simp at h; subst h; simp; omega
      · repeat' split at h
        all_goals simp at h

/-! ### Reads -/

theorem memRead_idle {s : State} {addr : Addr} {r : Region} (hb : s.busy = false) (hr : region addr = r)
    (hu : r ≠ .unmapped) : memRead addr s = s.reply (s.peek r) := by
  unfold memRead; rw [hr, if_neg hu, hb]; simp

theorem memRead_busy {s : State} {addr : Addr} {r : Region} (hb : s.busy = true) (hr : region addr = r)
    (hu : r ≠ .unmapped) (hs : r ≠ .reg .status) (h : r.busyUnspecified = true) : memRead addr s = s.replyDrawn id := by
  unfold memRead; rw [hr, if_neg hu, hb]; simp [hs, h]

end Sys2Proof.Machine
end

