-- ==== Sys2Proof/Laws/Codec.lean ====
section
/-! SUPPORT. The fields of the one command word that has operands, and the decoder on numbers (spec/30_encoding.md R90,
R94). -/

namespace Sys2Proof

/-- The bits of the number 7. -/
theorem getLsbD_seven (i : Nat) : (7#32).getLsbD i = decide (i < 3) := by
  by_cases h : i < 32
  · have key : ∀ j : Fin 32, (7#32).getLsbD j.val = decide (j.val < 3) := by decide
    exact key ⟨i, h⟩
  · rw [BitVec.getLsbD_of_ge _ _ (by omega)]
    simp; omega

theorem getLsbD_cmpWord (a b i : Nat) : (encode (.cmp a b)).getLsbD i =
    ((decide (i < 32) && (!decide (i < 13) && b.testBit (i - 13))) ||
      (decide (i < 32) && (!decide (i < 4) && a.testBit (i - 4))) || decide (i < 3)) := by
  simp only [encode, BitVec.getLsbD_or, BitVec.getLsbD_shiftLeft, BitVec.getLsbD_ofNat]
  have h7 := getLsbD_seven i
  rw [show (0x00000007 : Word) = 7#32 from rfl, h7]
  by_cases h : i < 32
  · have h1 : i - 13 < 32 := by omega
    have h2 : i - 4 < 32 := by omega
    simp [h, h1, h2]
  · simp [h]

theorem testBit_of_lt_512 {n i : Nat} (hn : n < 512) (hi : 9 ≤ i) : n.testBit i = false :=
  Nat.testBit_lt_two_pow (lt_of_lt_of_le hn ((by norm_num : 512 ≤ 2 ^ 9).trans (Nat.pow_le_pow_right (by norm_num) hi)))

theorem opField_cmpWord (a b : Nat) : opField (encode (.cmp a b)) = 7 := by
  refine BitVec.eq_of_getLsbD_eq fun i hi => ?_
  simp only [opField, BitVec.getLsbD_extractLsb', getLsbD_cmpWord, hi, decide_true, Bool.true_and]
  interval_cases i <;> simp

theorem aField_cmpWord {a b : Nat} (ha : a < 512) : (aField (encode (.cmp a b))).toNat = a := by
  have h : aField (encode (.cmp a b)) = BitVec.ofNat 9 a := by
    refine BitVec.eq_of_getLsbD_eq fun i hi => ?_
    simp only [aField, BitVec.getLsbD_extractLsb', getLsbD_cmpWord, hi, decide_true, Bool.true_and, BitVec.getLsbD_ofNat]
    interval_cases i <;> simp
  rw [h]
  simp; omega

theorem bField_cmpWord {a b : Nat} (ha : a < 512) (hb : b < 512) : (bField (encode (.cmp a b))).toNat = b := by
  have h : bField (encode (.cmp a b)) = BitVec.ofNat 9 b := by
    refine BitVec.eq_of_getLsbD_eq fun i hi => ?_
    have h0 := testBit_of_lt_512 ha (by omega : 9 ≤ 13 + i - 4)
    simp only [bField, BitVec.getLsbD_extractLsb', getLsbD_cmpWord, hi, decide_true, Bool.true_and, BitVec.getLsbD_ofNat, h0]
    interval_cases i <;> simp
  rw [h]
  simp; omega

theorem rsvField_cmpWord {a b : Nat} (ha : a < 512) (hb : b < 512) : rsvField (encode (.cmp a b)) = 0 := by
  refine BitVec.eq_of_getLsbD_eq fun i hi => ?_
  have h0 := testBit_of_lt_512 ha (by omega : 9 ≤ 22 + i - 4)
  have h1 := testBit_of_lt_512 hb (by omega : 9 ≤ 22 + i - 13)
  simp only [rsvField, BitVec.getLsbD_extractLsb', getLsbD_cmpWord, h0, h1]
  interval_cases i <;> simp

/-! ### The decoder on numbers -/

theorem opField_toNat (w : Word) : (opField w).toNat = w.toNat % 16 := by
  simp [opField, BitVec.extractLsb'_toNat]

theorem upperField_eq_zero (w : Word) : upperField w = 0 ↔ w.toNat / 16 = 0 := by
  have h := w.isLt
  rw [← BitVec.toNat_inj]
  simp [upperField, BitVec.extractLsb'_toNat, Nat.shiftRight_eq_div_pow]
  omega

theorem rsvField_eq_zero (w : Word) : rsvField w = 0 ↔ w.toNat / 2 ^ 22 = 0 := by
  have h := w.isLt
  rw [← BitVec.toNat_inj]
  simp [rsvField, BitVec.extractLsb'_toNat, Nat.shiftRight_eq_div_pow]
  omega

theorem aField_toNat (w : Word) : (aField w).toNat = w.toNat / 2 ^ 4 % 2 ^ 9 := by
  simp [aField, BitVec.extractLsb'_toNat, Nat.shiftRight_eq_div_pow]

theorem bField_toNat (w : Word) : (bField w).toNat = w.toNat / 2 ^ 13 % 2 ^ 9 := by
  simp [bField, BitVec.extractLsb'_toNat, Nat.shiftRight_eq_div_pow]

/-- The whole decoder: opcode 7 with its reserved bits, the plain commands, the rest. -/
theorem decode_eq (w : Word) : decode w =
    if w.toNat % 16 = 7 then
      (if w.toNat / 2 ^ 22 = 0 then .ok (.cmp (w.toNat / 2 ^ 4 % 2 ^ 9) (w.toNat / 2 ^ 13 % 2 ^ 9))
        else .error .reservedBits)
    else if w.toNat % 16 ≤ 8 then
      (if w.toNat / 16 = 0 then
        .ok (match w.toNat with
          | 0 => .nop
          | 1 => .clrf
          | 2 => .init
          | 3 => .step
          | 4 => .build
          | 5 => .derive
          | 6 => .run
          | _ => .srst)
        else .error .reservedBits)
    else .error .reservedOpcode := by
  unfold decode plainCommand
  rw [opField_toNat]
  simp only [upperField_eq_zero, rsvField_eq_zero, aField_toNat, bField_toNat]
  have hlt : w.toNat % 16 < 16 := Nat.mod_lt _ (by norm_num)
  rcases Nat.lt_or_ge (w.toNat % 16) 9 with h | h
  · by_cases hu : w.toNat / 16 = 0
    · have he : w.toNat % 16 = w.toNat := by omega
      rw [he] at h ⊢
      generalize hA : w.toNat / 2 ^ 4 % 2 ^ 9 = A
      generalize hB : w.toNat / 2 ^ 13 % 2 ^ 9 = B
      clear hA hB hlt
      generalize w.toNat = n at h hu he
      interval_cases n <;> simp
    · generalize w.toNat % 16 = k at h
      interval_cases k <;> simp [hu]
  · generalize w.toNat % 16 = k at h hlt
    interval_cases k <;> simp

/-- `SRST` has one word. -/
theorem decode_eq_srst_iff (w : Word) : decode w = .ok .srst ↔ w = 0x00000008 := by
  constructor
  · intro h
    rw [decode_eq] at h
    rw [← BitVec.toNat_inj, show (0x00000008 : Word).toNat = 8 from rfl]
    split at h
    · split at h <;> simp at h
    · split at h
      · split at h
        · next h7 h8 hu =>
          have hlt : w.toNat < 9 := by omega
          generalize w.toNat = n at *
          interval_cases n <;> simp_all
        · simp at h
      · simp at h
  · rintro rfl; rfl

end Sys2Proof
end

