-- ==== Sys2Proof/Laws/Selection.lean ====
section
/-! SUPPORT. What minimum selection and pair replacement do, over any comparison. -/

namespace Sys2Proof.Machine

variable {α β : Type}

/-- The scan answers an element of the list at the position it names, which is not the excluded one. -/
theorem scan_mem {keep : TieKeep} {before : α → α → Bool} {excl : Option Nat} :
    ∀ {l : List α} {i j : Nat} {x : α}, scan keep before excl l i = some (j, x) →
      i ≤ j ∧ l[j - i]? = some x ∧ excl ≠ some j
  | [], _, _, _, h => by simp [scan] at h
  | y :: ys, i, j, x, h => by
    have tail : ∀ {j x}, scan keep before excl ys (i + 1) = some (j, x) →
        i ≤ j ∧ (y :: ys)[j - i]? = some x ∧ excl ≠ some j := by
      intro j x h'
      obtain ⟨hle, hget, hne⟩ := scan_mem h'
      refine ⟨by omega, ?_, hne⟩
      obtain ⟨k, rfl⟩ : ∃ k, j = i + 1 + k := ⟨j - (i + 1), by omega⟩
      rw [show i + 1 + k - (i + 1) = k by omega] at hget
      rw [show i + 1 + k - i = k + 1 by omega]
      simpa using hget
    simp only [scan] at h
    split at h
    · exact tail h
    · split at h
      · obtain ⟨rfl, rfl⟩ := by simpa using h
        exact ⟨le_refl _, by simp, by assumption⟩
      · split at h
        · obtain ⟨rfl, rfl⟩ := by simpa using h
          exact ⟨le_refl _, by simp, by assumption⟩
        · next hs _ => exact tail (hs.trans h)

/-- The scan answers nothing exactly when every position is excluded. -/
theorem scan_eq_none {keep : TieKeep} {before : α → α → Bool} {excl : Option Nat} :
    ∀ {l : List α} {i : Nat}, scan keep before excl l i = none ↔ l = [] ∨ (l.length = 1 ∧ excl = some i)
  | [], i => by simp [scan]
  | y :: ys, i => by
    have ih := scan_eq_none (keep := keep) (before := before) (excl := excl) (l := ys) (i := i + 1)
    simp only [scan]
    split
    · next he =>
      rw [ih]
      subst he
      simp
    · next he =>
      split
      · simp [he]
      · split <;> simp [he]

/-- A comparison that is total and transitive. -/
structure TotalOrder (before : α → α → Bool) : Prop where
  total : ∀ x y, before x y = true ∨ before y x = true
  trans : ∀ x y z, before x y = true → before y z = true → before x z = true

theorem TotalOrder.refl {before : α → α → Bool} (h : TotalOrder before) (x : α) : before x x = true :=
  (h.total x x).elim id id

theorem TotalOrder.of_not_replaces {before : α → α → Bool} (h : TotalOrder before) {keep : TieKeep} {x y : α}
    (hn : replaces keep before x y = false) : before y x = true := by
  cases keep with
  | lowestIndex =>
    rcases h.total x y with hxy | hyx
    · simp [replaces, hxy] at hn
    · exact hyx
  | highestIndex =>
    rcases h.total x y with hxy | hyx
    · simpa [replaces, hxy] using hn
    · exact hyx

theorem replaces_before {before : α → α → Bool} {keep : TieKeep} {x y : α} (h : replaces keep before x y = true) :
    before x y = true := by
  cases keep with
  | lowestIndex => exact h
  | highestIndex => simp [replaces] at h; exact h.1

/-- What the scan answers comes before every scanned element. -/
theorem scan_min {before : α → α → Bool} (ho : TotalOrder before) {keep : TieKeep} {excl : Option Nat} :
    ∀ {l : List α} {i j : Nat} {x : α}, scan keep before excl l i = some (j, x) →
      ∀ k y, l[k]? = some y → excl ≠ some (i + k) → before x y = true
  | [], _, _, _, h => by simp [scan] at h
  | z :: zs, i, j, x, h => by
    intro k y hk hne
    have tail : ∀ {j x}, scan keep before excl zs (i + 1) = some (j, x) →
        ∀ k y, zs[k]? = some y → excl ≠ some (i + (k + 1)) → before x y = true := by
      intro j x h' k y hk hne
      exact scan_min ho h' k y hk (by rwa [show i + 1 + k = i + (k + 1) by omega])
    simp only [scan] at h
    split at h
    · next he =>
      cases k with
      | zero => exact absurd he (by simpa using hne)
      | succ k => exact tail h k y (by simpa using hk) hne
    · split at h
      · next hs =>
        obtain ⟨rfl, rfl⟩ := by simpa using h
        rcases (scan_eq_none.mp hs) with rfl | ⟨hlen, hex⟩
        · cases k with
          | zero => obtain rfl := by simpa using hk
                    exact ho.refl _
          | succ k => simp at hk
        · cases k with
          | zero => obtain rfl := by simpa using hk
                    exact ho.refl _
          | succ k =>
            have : k = 0 := by
              have := (List.getElem?_eq_some_iff.mp (by simpa using hk : zs[k]? = some y)).1
              omega
            subst this
            exact absurd hex (by simpa using hne)
      · next j' y' hs =>
        split at h
        · next hr =>
          obtain ⟨rfl, rfl⟩ := by simpa using h
          cases k with
          | zero => obtain rfl := by simpa using hk
                    exact ho.refl _
          | succ k => exact ho.trans _ _ _ (replaces_before hr) (tail hs k y (by simpa using hk) hne)
        · next hr =>
          obtain ⟨rfl, rfl⟩ := by simpa using h
          cases k with
          | zero => obtain rfl := by simpa using hk
                    exact ho.of_not_replaces (by simpa using hr)
          | succ k => exact tail hs k y (by simpa using hk) hne

/-- `select_min` answers the position of a minimum of the positions it does not ignore (41_tree_builder.md R125). -/
theorem selectMin_spec {before : α → α → Bool} (ho : TotalOrder before) {keep : TieKeep} {l : List α} {excl : Option Nat}
    {i : Nat} (h : selectMin keep before l excl = some i) :
    excl ≠ some i ∧ ∃ x, l[i]? = some x ∧ ∀ k y, l[k]? = some y → excl ≠ some k → before x y = true := by
  obtain ⟨⟨j, x⟩, hs, rfl⟩ := Option.map_eq_some_iff.mp h
  obtain ⟨-, hget, hne⟩ := scan_mem hs
  exact ⟨hne, x, by simpa using hget, fun k y hk hx => scan_min ho hs k y hk (by simpa using hx)⟩

/-- `select_min` answers nothing exactly when it has no position to choose from. -/
theorem selectMin_eq_none {before : α → α → Bool} {keep : TieKeep} {l : List α} {excl : Option Nat} :
    selectMin keep before l excl = none ↔ l = [] ∨ (l.length = 1 ∧ excl = some 0) := by
  simp [selectMin, scan_eq_none]

/-- Two members are selected exactly when there are two (R128). -/
theorem selectTwo_isSome {before : α → α → Bool} {keep : TieKeep} {l : List α} :
    (selectTwo keep before l).isSome = true ↔ 2 ≤ l.length := by
  unfold selectTwo
  match h1 : selectMin keep before l none with
  | none =>
    rcases selectMin_eq_none.mp h1 with rfl | ⟨_, h⟩
    · simp
    · simp at h
  | some i1 =>
    obtain ⟨⟨j, x⟩, hs, rfl⟩ := Option.map_eq_some_iff.mp h1
    obtain ⟨-, hget, -⟩ := scan_mem hs
    have hlt := (List.getElem?_eq_some_iff.mp hget).1
    match h2 : selectMin keep before l (some j) with
    | none =>
      rcases selectMin_eq_none.mp h2 with rfl | ⟨hl, -⟩
      · simp at hlt
      · simp [hl, h2]
    | some i2 =>
      have : ¬ (l.length = 1 ∧ some j = some 0) := fun hc =>
        absurd (h2.symm.trans (selectMin_eq_none.mpr (Or.inr hc))) (by simp)
      simp [h2]
      have hj : l.length = 1 → j = 0 := by omega
      by_contra hc
      exact this ⟨by omega, by rw [hj (by omega)]⟩

/-- The two selected positions: distinct, in the list, the first before all, the second before all but the first
(R128). -/
theorem selectTwo_spec {before : α → α → Bool} (ho : TotalOrder before) {keep : TieKeep} {l : List α} {i1 i2 : Nat}
    (h : selectTwo keep before l = some (i1, i2)) :
    i1 ≠ i2 ∧ ∃ x y, l[i1]? = some x ∧ l[i2]? = some y ∧ (∀ z ∈ l, before x z = true) ∧
      ∀ k z, l[k]? = some z → k ≠ i1 → before y z = true := by
  unfold selectTwo at h
  split at h
  · simp at h
  · next j1 h1 =>
    split at h
    · simp at h
    · next j2 h2 =>
      obtain ⟨rfl, rfl⟩ := by simpa using h
      obtain ⟨-, x, hx, hxmin⟩ := selectMin_spec ho h1
      obtain ⟨hne, y, hy, hymin⟩ := selectMin_spec ho h2
      refine ⟨fun he => hne (by rw [he]), x, y, hx, hy, fun z hz => ?_, fun k z hk hkne => hymin k z hk ?_⟩
      · obtain ⟨k, hk⟩ := List.getElem?_of_mem hz
        exact hxmin k z hk (by simp)
      · simpa using fun he => hkne he.symm

/-- The selected positions are distinct positions of the list, whatever the comparison. -/
theorem selectTwo_lt {before : α → α → Bool} {keep : TieKeep} {l : List α} {i1 i2 : Nat}
    (h : selectTwo keep before l = some (i1, i2)) : i1 ≠ i2 ∧ i1 < l.length ∧ i2 < l.length := by
  unfold selectTwo at h
  split at h
  · simp at h
  · next j1 h1 =>
    split at h
    · simp at h
    · next j2 h2 =>
      obtain ⟨rfl, rfl⟩ := by simpa using h
      obtain ⟨⟨k1, x⟩, hs1, rfl⟩ := Option.map_eq_some_iff.mp h1
      obtain ⟨⟨k2, y⟩, hs2, rfl⟩ := Option.map_eq_some_iff.mp h2
      obtain ⟨-, hg1, -⟩ := scan_mem hs1
      obtain ⟨-, hg2, hne⟩ := scan_mem hs2
      exact ⟨fun he => hne (by simpa using he), (List.getElem?_eq_some_iff.mp hg1).1,
        (List.getElem?_eq_some_iff.mp hg2).1⟩

/-- Two lists that a relation matches element by element, under comparisons the relation respects, are scanned alike. -/
theorem scan_forall₂ {R : α → β → Prop} {before : α → α → Bool} {before' : β → β → Bool}
    (hR : ∀ x x' y y', R x y → R x' y' → before x x' = before' y y') {keep : TieKeep} {excl : Option Nat} :
    ∀ {l : List α} {l' : List β}, List.Forall₂ R l l' → ∀ i,
      Option.Rel (fun p q => p.1 = q.1 ∧ R p.2 q.2) (scan keep before excl l i) (scan keep before' excl l' i)
  | [], [], _, _ => by simp [scan]
  | x :: xs, y :: ys, h, i => by
    obtain ⟨hxy, ht⟩ := List.forall₂_cons.mp h
    have ih := scan_forall₂ hR (keep := keep) (excl := excl) ht (i + 1)
    simp only [scan]
    split
    · exact ih
    · generalize scan keep before excl xs (i + 1) = r at ih
      generalize scan keep before' excl ys (i + 1) = r' at ih
      cases ih with
      | none => exact .some ⟨rfl, hxy⟩
      | @some p q hpq =>
        obtain ⟨j, u⟩ := p
        obtain ⟨j', v⟩ := q
        obtain ⟨rfl, huv⟩ := hpq
        have hrep : replaces keep before x u = replaces keep before' y v := by
          cases keep with
          | lowestIndex => exact hR _ _ _ _ hxy huv
          | highestIndex => simp only [replaces, hR _ _ _ _ hxy huv, hR _ _ _ _ huv hxy]
        simp only [hrep]
        split
        · exact .some ⟨rfl, hxy⟩
        · exact .some ⟨rfl, huv⟩

/-- Matched lists have the same two members selected. -/
theorem selectTwo_forall₂ {R : α → β → Prop} {before : α → α → Bool} {before' : β → β → Bool}
    (hR : ∀ x x' y y', R x y → R x' y' → before x x' = before' y y') {keep : TieKeep} {l : List α} {l' : List β}
    (h : List.Forall₂ R l l') : selectTwo keep before l = selectTwo keep before' l' := by
  have hmin : ∀ excl, selectMin keep before l excl = selectMin keep before' l' excl := by
    intro excl
    have := scan_forall₂ hR (keep := keep) (excl := excl) h 0
    unfold selectMin
    generalize scan keep before excl l 0 = r at this
    generalize scan keep before' excl l' 0 = r' at this
    cases this with
    | none => rfl
    | some hpq => simp [hpq.1]
  unfold selectTwo
  rw [hmin none]
  split
  · rfl
  · rw [hmin]

/-- Where distinct positions never tie exactly, which of tied candidates a scan would keep makes no difference
(41_tree_builder.md R138). -/
theorem scan_keep_irrelevant {before : α → α → Bool} {excl : Option Nat} :
    ∀ {l : List α}, l.Pairwise (fun x y => ¬ (before x y = true ∧ before y x = true)) → ∀ (keep keep' : TieKeep) (i : Nat),
      scan keep before excl l i = scan keep' before excl l i
  | [], _, _, _, _ => rfl
  | x :: xs, h, keep, keep', i => by
    obtain ⟨hx, ht⟩ := List.pairwise_cons.mp h
    have ih := scan_keep_irrelevant (excl := excl) ht keep keep' (i + 1)
    simp only [scan, ih]
    split
    · rfl
    · split
      · rfl
      · next j y hs =>
        have hy : y ∈ xs := List.mem_of_getElem? (scan_mem hs).2.1
        have := hx y hy
        have hrep : ∀ k, replaces k before x y = before x y := by
          intro k
          cases k with
          | lowestIndex => rfl
          | highestIndex =>
            simp only [replaces]
            cases h1 : before x y with
            | false => rfl
            | true => simpa [h1] using this
        simp [hrep]

theorem selectTwo_keep_irrelevant {before : α → α → Bool} {l : List α}
    (h : l.Pairwise (fun x y => ¬ (before x y = true ∧ before y x = true))) (keep keep' : TieKeep) :
    selectTwo keep before l = selectTwo keep' before l := by
  have hmin : ∀ excl, selectMin keep before l excl = selectMin keep' before l excl := fun excl => by
    simp [selectMin, scan_keep_irrelevant h keep keep' 0]
  unfold selectTwo
  rw [hmin none]
  split
  · rfl
  · rw [hmin]

/-! ### Replacing the pair -/

/-- A list with two distinct positions taken out, lower first. -/
theorem eraseIdx_pair_perm {l : List α} {p q : Nat} {x y : α} (hpq : p < q) (hp : l[p]? = some x) (hq : l[q]? = some y) :
    l.Perm (x :: y :: ((l.eraseIdx q).eraseIdx p)) := by
  obtain ⟨hq', rfl⟩ := List.getElem?_eq_some_iff.mp hq
  obtain ⟨hp', rfl⟩ := List.getElem?_eq_some_iff.mp hp
  have hp2 : p < (l.eraseIdx q).length := by rw [List.length_eraseIdx]; split <;> omega
  have h1 : (l[q] :: l.eraseIdx q).Perm l := List.getElem_cons_eraseIdx_perm hq'
  have h2 : ((l.eraseIdx q)[p] :: (l.eraseIdx q).eraseIdx p).Perm (l.eraseIdx q) :=
    List.getElem_cons_eraseIdx_perm hp2
  have h3 : (l.eraseIdx q)[p] = l[p] := by simp [List.getElem_eraseIdx, hpq]
  rw [h3] at h2
  exact h1.symm.trans ((h2.symm.cons _).trans (List.Perm.swap _ _ _))

/-- The members a merge leaves: the new one, and all but the two selected (R129). -/
theorem replacePair_perm {l : List α} {i1 i2 : Nat} {x y : α} (n : α) (hne : i1 ≠ i2) (h1 : l[i1]? = some x)
    (h2 : l[i2]? = some y) :
    ∃ rest, l.Perm (x :: y :: rest) ∧ (replacePair l i1 i2 n).Perm (n :: rest) := by
  refine ⟨(l.eraseIdx (max i1 i2)).eraseIdx (min i1 i2), ?_, ?_⟩
  · rcases Nat.lt_or_gt_of_ne hne with h | h
    · rw [max_eq_right h.le, min_eq_left h.le]
      exact eraseIdx_pair_perm h h1 h2
    · rw [max_eq_left h.le, min_eq_right h.le]
      exact (eraseIdx_pair_perm h h2 h1).trans (List.Perm.swap _ _ _)
  · refine List.perm_insertIdx n _ ?_
    have hl1 := (List.getElem?_eq_some_iff.mp h1).1
    have hl2 := (List.getElem?_eq_some_iff.mp h2).1
    simp only [List.length_eraseIdx]
    split <;> split <;> omega

/-- A merge shortens the collection by one (R129). -/
theorem replacePair_length {l : List α} {i1 i2 : Nat} (n : α) (hne : i1 ≠ i2) (h1 : i1 < l.length) (h2 : i2 < l.length) :
    (replacePair l i1 i2 n).length + 1 = l.length := by
  obtain ⟨rest, hp, hr⟩ := replacePair_perm n hne (List.getElem?_eq_getElem h1) (List.getElem?_eq_getElem h2)
  have := hp.length_eq
  have := hr.length_eq
  simp_all

theorem replacePair_map (f : α → β) (l : List α) (i1 i2 : Nat) (n : α) :
    (replacePair l i1 i2 n).map f = replacePair (l.map f) i1 i2 (f n) := by
  simp [replacePair, List.eraseIdx_map, List.map_insertIdx]

end Sys2Proof.Machine
end

