-- ==== Sys2Proof/Laws/State.lean ====
section
/-! SUPPORT. One lemma per field per update of the state, so that no proof unfolds a record update. -/

namespace Sys2Proof.Machine

variable (s : State)

/-! ### `setEntry` -/

@[simp] theorem State.setEntry_ft (n : Nat) (x : Node) : (s.setEntry n x).ft = s.ft := rfl
@[simp] theorem State.setEntry_nodes (n : Nat) (x : Node) : (s.setEntry n x).nodes = s.nodes.setIfInBounds n (some x) := rfl
@[simp] theorem State.setEntry_wc (n : Nat) (x : Node) : (s.setEntry n x).wc = s.wc := rfl
@[simp] theorem State.setEntry_nodeNext (n : Nat) (x : Node) : (s.setEntry n x).nodeNext = s.nodeNext := rfl
@[simp] theorem State.setEntry_leafCount (n : Nat) (x : Node) : (s.setEntry n x).leafCount = s.leafCount := rfl
@[simp] theorem State.setEntry_rootIdx (n : Nat) (x : Node) : (s.setEntry n x).rootIdx = s.rootIdx := rfl
@[simp] theorem State.setEntry_rootValid (n : Nat) (x : Node) : (s.setEntry n x).rootValid = s.rootValid := rfl
@[simp] theorem State.setEntry_cb (n : Nat) (x : Node) : (s.setEntry n x).cb = s.cb := rfl
@[simp] theorem State.setEntry_phase (n : Nat) (x : Node) : (s.setEntry n x).phase = s.phase := rfl
@[simp] theorem State.setEntry_busy (n : Nat) (x : Node) : (s.setEntry n x).busy = s.busy := rfl
@[simp] theorem State.setEntry_curCmd (n : Nat) (x : Node) : (s.setEntry n x).curCmd = s.curCmd := rfl
@[simp] theorem State.setEntry_cmpRes (n : Nat) (x : Node) : (s.setEntry n x).cmpRes = s.cmpRes := rfl
@[simp] theorem State.setEntry_ien (n : Nat) (x : Node) : (s.setEntry n x).ien = s.ien := rfl
@[simp] theorem State.setEntry_ipend (n : Nat) (x : Node) : (s.setEntry n x).ipend = s.ipend := rfl
@[simp] theorem State.setEntry_errCode (n : Nat) (x : Node) : (s.setEntry n x).errCode = s.errCode := rfl
@[simp] theorem State.setEntry_events (n : Nat) (x : Node) : (s.setEntry n x).events = s.events := rfl
@[simp] theorem State.setEntry_replies (n : Nat) (x : Node) : (s.setEntry n x).replies = s.replies := rfl
@[simp] theorem State.setEntry_draws (n : Nat) (x : Node) : (s.setEntry n x).draws = s.draws := rfl

/-! ### `setFreq` -/

@[simp] theorem State.setFreq_ft (b : Nat) (v : Word) : (s.setFreq b v).ft = s.ft.setIfInBounds b v := rfl
@[simp] theorem State.setFreq_nodes (b : Nat) (v : Word) : (s.setFreq b v).nodes = s.nodes := rfl
@[simp] theorem State.setFreq_wc (b : Nat) (v : Word) : (s.setFreq b v).wc = s.wc := rfl
@[simp] theorem State.setFreq_nodeNext (b : Nat) (v : Word) : (s.setFreq b v).nodeNext = s.nodeNext := rfl
@[simp] theorem State.setFreq_leafCount (b : Nat) (v : Word) : (s.setFreq b v).leafCount = s.leafCount := rfl
@[simp] theorem State.setFreq_rootIdx (b : Nat) (v : Word) : (s.setFreq b v).rootIdx = s.rootIdx := rfl
@[simp] theorem State.setFreq_rootValid (b : Nat) (v : Word) : (s.setFreq b v).rootValid = s.rootValid := rfl
@[simp] theorem State.setFreq_cb (b : Nat) (v : Word) : (s.setFreq b v).cb = s.cb := rfl
@[simp] theorem State.setFreq_phase (b : Nat) (v : Word) : (s.setFreq b v).phase = s.phase := rfl
@[simp] theorem State.setFreq_busy (b : Nat) (v : Word) : (s.setFreq b v).busy = s.busy := rfl
@[simp] theorem State.setFreq_curCmd (b : Nat) (v : Word) : (s.setFreq b v).curCmd = s.curCmd := rfl
@[simp] theorem State.setFreq_cmpRes (b : Nat) (v : Word) : (s.setFreq b v).cmpRes = s.cmpRes := rfl
@[simp] theorem State.setFreq_ien (b : Nat) (v : Word) : (s.setFreq b v).ien = s.ien := rfl
@[simp] theorem State.setFreq_ipend (b : Nat) (v : Word) : (s.setFreq b v).ipend = s.ipend := rfl
@[simp] theorem State.setFreq_errCode (b : Nat) (v : Word) : (s.setFreq b v).errCode = s.errCode := rfl
@[simp] theorem State.setFreq_events (b : Nat) (v : Word) : (s.setFreq b v).events = s.events := rfl
@[simp] theorem State.setFreq_replies (b : Nat) (v : Word) : (s.setFreq b v).replies = s.replies := rfl
@[simp] theorem State.setFreq_draws (b : Nat) (v : Word) : (s.setFreq b v).draws = s.draws := rfl

/-! ### `clearFreqs` -/

@[simp] theorem State.clearFreqs_ft : s.clearFreqs.ft = Vector.replicate 256 0 := rfl
@[simp] theorem State.clearFreqs_nodes : s.clearFreqs.nodes = s.nodes := rfl
@[simp] theorem State.clearFreqs_wc : s.clearFreqs.wc = s.wc := rfl
@[simp] theorem State.clearFreqs_nodeNext : s.clearFreqs.nodeNext = s.nodeNext := rfl
@[simp] theorem State.clearFreqs_leafCount : s.clearFreqs.leafCount = s.leafCount := rfl
@[simp] theorem State.clearFreqs_rootIdx : s.clearFreqs.rootIdx = s.rootIdx := rfl
@[simp] theorem State.clearFreqs_rootValid : s.clearFreqs.rootValid = s.rootValid := rfl
@[simp] theorem State.clearFreqs_cb : s.clearFreqs.cb = s.cb := rfl
@[simp] theorem State.clearFreqs_phase : s.clearFreqs.phase = s.phase := rfl
@[simp] theorem State.clearFreqs_busy : s.clearFreqs.busy = s.busy := rfl
@[simp] theorem State.clearFreqs_curCmd : s.clearFreqs.curCmd = s.curCmd := rfl
@[simp] theorem State.clearFreqs_cmpRes : s.clearFreqs.cmpRes = s.cmpRes := rfl
@[simp] theorem State.clearFreqs_ien : s.clearFreqs.ien = s.ien := rfl
@[simp] theorem State.clearFreqs_ipend : s.clearFreqs.ipend = s.ipend := rfl
@[simp] theorem State.clearFreqs_errCode : s.clearFreqs.errCode = s.errCode := rfl
@[simp] theorem State.clearFreqs_events : s.clearFreqs.events = s.events := rfl
@[simp] theorem State.clearFreqs_replies : s.clearFreqs.replies = s.replies := rfl
@[simp] theorem State.clearFreqs_draws : s.clearFreqs.draws = s.draws := rfl

/-! ### `clearCodes` -/

@[simp] theorem State.clearCodes_ft : s.clearCodes.ft = s.ft := rfl
@[simp] theorem State.clearCodes_nodes : s.clearCodes.nodes = s.nodes := rfl
@[simp] theorem State.clearCodes_wc : s.clearCodes.wc = s.wc := rfl
@[simp] theorem State.clearCodes_nodeNext : s.clearCodes.nodeNext = s.nodeNext := rfl
@[simp] theorem State.clearCodes_leafCount : s.clearCodes.leafCount = s.leafCount := rfl
@[simp] theorem State.clearCodes_rootIdx : s.clearCodes.rootIdx = s.rootIdx := rfl
@[simp] theorem State.clearCodes_rootValid : s.clearCodes.rootValid = s.rootValid := rfl
@[simp] theorem State.clearCodes_cb : s.clearCodes.cb = Vector.replicate 256 none := rfl
@[simp] theorem State.clearCodes_phase : s.clearCodes.phase = s.phase := rfl
@[simp] theorem State.clearCodes_busy : s.clearCodes.busy = s.busy := rfl
@[simp] theorem State.clearCodes_curCmd : s.clearCodes.curCmd = s.curCmd := rfl
@[simp] theorem State.clearCodes_cmpRes : s.clearCodes.cmpRes = s.cmpRes := rfl
@[simp] theorem State.clearCodes_ien : s.clearCodes.ien = s.ien := rfl
@[simp] theorem State.clearCodes_ipend : s.clearCodes.ipend = s.ipend := rfl
@[simp] theorem State.clearCodes_errCode : s.clearCodes.errCode = s.errCode := rfl
@[simp] theorem State.clearCodes_events : s.clearCodes.events = s.events := rfl
@[simp] theorem State.clearCodes_replies : s.clearCodes.replies = s.replies := rfl
@[simp] theorem State.clearCodes_draws : s.clearCodes.draws = s.draws := rfl

/-! ### `clearNodes` -/

@[simp] theorem State.clearNodes_ft : s.clearNodes.ft = s.ft := rfl
@[simp] theorem State.clearNodes_nodes : s.clearNodes.nodes = Vector.replicate 511 none := rfl
@[simp] theorem State.clearNodes_wc : s.clearNodes.wc = s.wc := rfl
@[simp] theorem State.clearNodes_nodeNext : s.clearNodes.nodeNext = s.nodeNext := rfl
@[simp] theorem State.clearNodes_leafCount : s.clearNodes.leafCount = s.leafCount := rfl
@[simp] theorem State.clearNodes_rootIdx : s.clearNodes.rootIdx = s.rootIdx := rfl
@[simp] theorem State.clearNodes_rootValid : s.clearNodes.rootValid = s.rootValid := rfl
@[simp] theorem State.clearNodes_cb : s.clearNodes.cb = s.cb := rfl
@[simp] theorem State.clearNodes_phase : s.clearNodes.phase = s.phase := rfl
@[simp] theorem State.clearNodes_busy : s.clearNodes.busy = s.busy := rfl
@[simp] theorem State.clearNodes_curCmd : s.clearNodes.curCmd = s.curCmd := rfl
@[simp] theorem State.clearNodes_cmpRes : s.clearNodes.cmpRes = s.cmpRes := rfl
@[simp] theorem State.clearNodes_ien : s.clearNodes.ien = s.ien := rfl
@[simp] theorem State.clearNodes_ipend : s.clearNodes.ipend = s.ipend := rfl
@[simp] theorem State.clearNodes_errCode : s.clearNodes.errCode = s.errCode := rfl
@[simp] theorem State.clearNodes_events : s.clearNodes.events = s.events := rfl
@[simp] theorem State.clearNodes_replies : s.clearNodes.replies = s.replies := rfl
@[simp] theorem State.clearNodes_draws : s.clearNodes.draws = s.draws := rfl

/-! ### `setPhase` -/

@[simp] theorem State.setPhase_ft (p : Phase) : (s.setPhase p).ft = s.ft := rfl
@[simp] theorem State.setPhase_nodes (p : Phase) : (s.setPhase p).nodes = s.nodes := rfl
@[simp] theorem State.setPhase_wc (p : Phase) : (s.setPhase p).wc = s.wc := rfl
@[simp] theorem State.setPhase_nodeNext (p : Phase) : (s.setPhase p).nodeNext = s.nodeNext := rfl
@[simp] theorem State.setPhase_leafCount (p : Phase) : (s.setPhase p).leafCount = s.leafCount := rfl
@[simp] theorem State.setPhase_rootIdx (p : Phase) : (s.setPhase p).rootIdx = s.rootIdx := rfl
@[simp] theorem State.setPhase_rootValid (p : Phase) : (s.setPhase p).rootValid = s.rootValid := rfl
@[simp] theorem State.setPhase_cb (p : Phase) : (s.setPhase p).cb = s.cb := rfl
@[simp] theorem State.setPhase_phase (p : Phase) : (s.setPhase p).phase = p := rfl
@[simp] theorem State.setPhase_busy (p : Phase) : (s.setPhase p).busy = s.busy := rfl
@[simp] theorem State.setPhase_curCmd (p : Phase) : (s.setPhase p).curCmd = s.curCmd := rfl
@[simp] theorem State.setPhase_cmpRes (p : Phase) : (s.setPhase p).cmpRes = s.cmpRes := rfl
@[simp] theorem State.setPhase_ien (p : Phase) : (s.setPhase p).ien = s.ien := rfl
@[simp] theorem State.setPhase_ipend (p : Phase) : (s.setPhase p).ipend = s.ipend := rfl
@[simp] theorem State.setPhase_errCode (p : Phase) : (s.setPhase p).errCode = s.errCode := rfl
@[simp] theorem State.setPhase_events (p : Phase) : (s.setPhase p).events = s.events := rfl
@[simp] theorem State.setPhase_replies (p : Phase) : (s.setPhase p).replies = s.replies := rfl
@[simp] theorem State.setPhase_draws (p : Phase) : (s.setPhase p).draws = s.draws := rfl

/-! ### `raiseErr` -/

@[simp] theorem State.raiseErr_ft (e : ErrorKind) : (s.raiseErr e).ft = s.ft := rfl
@[simp] theorem State.raiseErr_nodes (e : ErrorKind) : (s.raiseErr e).nodes = s.nodes := rfl
@[simp] theorem State.raiseErr_wc (e : ErrorKind) : (s.raiseErr e).wc = s.wc := rfl
@[simp] theorem State.raiseErr_nodeNext (e : ErrorKind) : (s.raiseErr e).nodeNext = s.nodeNext := rfl
@[simp] theorem State.raiseErr_leafCount (e : ErrorKind) : (s.raiseErr e).leafCount = s.leafCount := rfl
@[simp] theorem State.raiseErr_rootIdx (e : ErrorKind) : (s.raiseErr e).rootIdx = s.rootIdx := rfl
@[simp] theorem State.raiseErr_rootValid (e : ErrorKind) : (s.raiseErr e).rootValid = s.rootValid := rfl
@[simp] theorem State.raiseErr_cb (e : ErrorKind) : (s.raiseErr e).cb = s.cb := rfl
@[simp] theorem State.raiseErr_phase (e : ErrorKind) : (s.raiseErr e).phase = s.phase := rfl
@[simp] theorem State.raiseErr_busy (e : ErrorKind) : (s.raiseErr e).busy = s.busy := rfl
@[simp] theorem State.raiseErr_curCmd (e : ErrorKind) : (s.raiseErr e).curCmd = s.curCmd := rfl
@[simp] theorem State.raiseErr_cmpRes (e : ErrorKind) : (s.raiseErr e).cmpRes = s.cmpRes := rfl
@[simp] theorem State.raiseErr_ien (e : ErrorKind) : (s.raiseErr e).ien = s.ien := rfl
@[simp] theorem State.raiseErr_ipend (e : ErrorKind) : (s.raiseErr e).ipend = s.ipend ||| 2 := rfl
@[simp] theorem State.raiseErr_errCode (e : ErrorKind) : (s.raiseErr e).errCode = if s.errBit then s.errCode else e.code := rfl
@[simp] theorem State.raiseErr_events (e : ErrorKind) : (s.raiseErr e).events = s.events := rfl
@[simp] theorem State.raiseErr_replies (e : ErrorKind) : (s.raiseErr e).replies = s.replies := rfl
@[simp] theorem State.raiseErr_draws (e : ErrorKind) : (s.raiseErr e).draws = s.draws := rfl

/-! ### `ackEvents` -/

@[simp] theorem State.ackEvents_ft (v : Word) : (s.ackEvents v).ft = s.ft := rfl
@[simp] theorem State.ackEvents_nodes (v : Word) : (s.ackEvents v).nodes = s.nodes := rfl
@[simp] theorem State.ackEvents_wc (v : Word) : (s.ackEvents v).wc = s.wc := rfl
@[simp] theorem State.ackEvents_nodeNext (v : Word) : (s.ackEvents v).nodeNext = s.nodeNext := rfl
@[simp] theorem State.ackEvents_leafCount (v : Word) : (s.ackEvents v).leafCount = s.leafCount := rfl
@[simp] theorem State.ackEvents_rootIdx (v : Word) : (s.ackEvents v).rootIdx = s.rootIdx := rfl
@[simp] theorem State.ackEvents_rootValid (v : Word) : (s.ackEvents v).rootValid = s.rootValid := rfl
@[simp] theorem State.ackEvents_cb (v : Word) : (s.ackEvents v).cb = s.cb := rfl
@[simp] theorem State.ackEvents_phase (v : Word) : (s.ackEvents v).phase = s.phase := rfl
@[simp] theorem State.ackEvents_busy (v : Word) : (s.ackEvents v).busy = s.busy := rfl
@[simp] theorem State.ackEvents_curCmd (v : Word) : (s.ackEvents v).curCmd = s.curCmd := rfl
@[simp] theorem State.ackEvents_cmpRes (v : Word) : (s.ackEvents v).cmpRes = s.cmpRes := rfl
@[simp] theorem State.ackEvents_ien (v : Word) : (s.ackEvents v).ien = s.ien := rfl
@[simp] theorem State.ackEvents_ipend (v : Word) : (s.ackEvents v).ipend = s.ipend &&& ~~~(v.extractLsb' 0 2) := rfl
@[simp] theorem State.ackEvents_errCode (v : Word) : (s.ackEvents v).errCode = if (s.ipend &&& ~~~(v.extractLsb' 0 2)).getLsbD 1 then s.errCode else 0 := rfl
@[simp] theorem State.ackEvents_events (v : Word) : (s.ackEvents v).events = s.events := rfl
@[simp] theorem State.ackEvents_replies (v : Word) : (s.ackEvents v).replies = s.replies := rfl
@[simp] theorem State.ackEvents_draws (v : Word) : (s.ackEvents v).draws = s.draws := rfl

/-! ### `latch` -/

@[simp] theorem State.latch_ft (w : Word) : (s.latch w).ft = s.ft := rfl
@[simp] theorem State.latch_nodes (w : Word) : (s.latch w).nodes = s.nodes := rfl
@[simp] theorem State.latch_wc (w : Word) : (s.latch w).wc = s.wc := rfl
@[simp] theorem State.latch_nodeNext (w : Word) : (s.latch w).nodeNext = s.nodeNext := rfl
@[simp] theorem State.latch_leafCount (w : Word) : (s.latch w).leafCount = s.leafCount := rfl
@[simp] theorem State.latch_rootIdx (w : Word) : (s.latch w).rootIdx = s.rootIdx := rfl
@[simp] theorem State.latch_rootValid (w : Word) : (s.latch w).rootValid = s.rootValid := rfl
@[simp] theorem State.latch_cb (w : Word) : (s.latch w).cb = s.cb := rfl
@[simp] theorem State.latch_phase (w : Word) : (s.latch w).phase = s.phase := rfl
@[simp] theorem State.latch_busy (w : Word) : (s.latch w).busy = true := rfl
@[simp] theorem State.latch_curCmd (w : Word) : (s.latch w).curCmd = w := rfl
@[simp] theorem State.latch_cmpRes (w : Word) : (s.latch w).cmpRes = s.cmpRes := rfl
@[simp] theorem State.latch_ien (w : Word) : (s.latch w).ien = s.ien := rfl
@[simp] theorem State.latch_ipend (w : Word) : (s.latch w).ipend = s.ipend := rfl
@[simp] theorem State.latch_errCode (w : Word) : (s.latch w).errCode = s.errCode := rfl
@[simp] theorem State.latch_events (w : Word) : (s.latch w).events = s.events := rfl
@[simp] theorem State.latch_replies (w : Word) : (s.latch w).replies = s.replies := rfl
@[simp] theorem State.latch_draws (w : Word) : (s.latch w).draws = s.draws := rfl

/-! ### `completed` -/

@[simp] theorem State.completed_ft : s.completed.ft = s.ft := rfl
@[simp] theorem State.completed_nodes : s.completed.nodes = s.nodes := rfl
@[simp] theorem State.completed_wc : s.completed.wc = s.wc := rfl
@[simp] theorem State.completed_nodeNext : s.completed.nodeNext = s.nodeNext := rfl
@[simp] theorem State.completed_leafCount : s.completed.leafCount = s.leafCount := rfl
@[simp] theorem State.completed_rootIdx : s.completed.rootIdx = s.rootIdx := rfl
@[simp] theorem State.completed_rootValid : s.completed.rootValid = s.rootValid := rfl
@[simp] theorem State.completed_cb : s.completed.cb = s.cb := rfl
@[simp] theorem State.completed_phase : s.completed.phase = s.phase := rfl
@[simp] theorem State.completed_busy : s.completed.busy = false := rfl
@[simp] theorem State.completed_curCmd : s.completed.curCmd = s.curCmd := rfl
@[simp] theorem State.completed_cmpRes : s.completed.cmpRes = s.cmpRes := rfl
@[simp] theorem State.completed_ien : s.completed.ien = s.ien := rfl
@[simp] theorem State.completed_ipend : s.completed.ipend = s.ipend ||| 1 := rfl
@[simp] theorem State.completed_errCode : s.completed.errCode = s.errCode := rfl
@[simp] theorem State.completed_events : s.completed.events = s.events := rfl
@[simp] theorem State.completed_replies : s.completed.replies = s.replies := rfl
@[simp] theorem State.completed_draws : s.completed.draws = s.draws := rfl

/-! ### `reply` -/

@[simp] theorem State.reply_ft (w : Word) : (s.reply w).ft = s.ft := rfl
@[simp] theorem State.reply_nodes (w : Word) : (s.reply w).nodes = s.nodes := rfl
@[simp] theorem State.reply_wc (w : Word) : (s.reply w).wc = s.wc := rfl
@[simp] theorem State.reply_nodeNext (w : Word) : (s.reply w).nodeNext = s.nodeNext := rfl
@[simp] theorem State.reply_leafCount (w : Word) : (s.reply w).leafCount = s.leafCount := rfl
@[simp] theorem State.reply_rootIdx (w : Word) : (s.reply w).rootIdx = s.rootIdx := rfl
@[simp] theorem State.reply_rootValid (w : Word) : (s.reply w).rootValid = s.rootValid := rfl
@[simp] theorem State.reply_cb (w : Word) : (s.reply w).cb = s.cb := rfl
@[simp] theorem State.reply_phase (w : Word) : (s.reply w).phase = s.phase := rfl
@[simp] theorem State.reply_busy (w : Word) : (s.reply w).busy = s.busy := rfl
@[simp] theorem State.reply_curCmd (w : Word) : (s.reply w).curCmd = s.curCmd := rfl
@[simp] theorem State.reply_cmpRes (w : Word) : (s.reply w).cmpRes = s.cmpRes := rfl
@[simp] theorem State.reply_ien (w : Word) : (s.reply w).ien = s.ien := rfl
@[simp] theorem State.reply_ipend (w : Word) : (s.reply w).ipend = s.ipend := rfl
@[simp] theorem State.reply_errCode (w : Word) : (s.reply w).errCode = s.errCode := rfl
@[simp] theorem State.reply_events (w : Word) : (s.reply w).events = s.events := rfl
@[simp] theorem State.reply_replies (w : Word) : (s.reply w).replies = w :: s.replies := rfl
@[simp] theorem State.reply_draws (w : Word) : (s.reply w).draws = s.draws := rfl

/-! ### `replyDrawn` -/

@[simp] theorem State.replyDrawn_ft (f : Word → Word) : (s.replyDrawn f).ft = s.ft := rfl
@[simp] theorem State.replyDrawn_nodes (f : Word → Word) : (s.replyDrawn f).nodes = s.nodes := rfl
@[simp] theorem State.replyDrawn_wc (f : Word → Word) : (s.replyDrawn f).wc = s.wc := rfl
@[simp] theorem State.replyDrawn_nodeNext (f : Word → Word) : (s.replyDrawn f).nodeNext = s.nodeNext := rfl
@[simp] theorem State.replyDrawn_leafCount (f : Word → Word) : (s.replyDrawn f).leafCount = s.leafCount := rfl
@[simp] theorem State.replyDrawn_rootIdx (f : Word → Word) : (s.replyDrawn f).rootIdx = s.rootIdx := rfl
@[simp] theorem State.replyDrawn_rootValid (f : Word → Word) : (s.replyDrawn f).rootValid = s.rootValid := rfl
@[simp] theorem State.replyDrawn_cb (f : Word → Word) : (s.replyDrawn f).cb = s.cb := rfl
@[simp] theorem State.replyDrawn_phase (f : Word → Word) : (s.replyDrawn f).phase = s.phase := rfl
@[simp] theorem State.replyDrawn_busy (f : Word → Word) : (s.replyDrawn f).busy = s.busy := rfl
@[simp] theorem State.replyDrawn_curCmd (f : Word → Word) : (s.replyDrawn f).curCmd = s.curCmd := rfl
@[simp] theorem State.replyDrawn_cmpRes (f : Word → Word) : (s.replyDrawn f).cmpRes = s.cmpRes := rfl
@[simp] theorem State.replyDrawn_ien (f : Word → Word) : (s.replyDrawn f).ien = s.ien := rfl
@[simp] theorem State.replyDrawn_ipend (f : Word → Word) : (s.replyDrawn f).ipend = s.ipend := rfl
@[simp] theorem State.replyDrawn_errCode (f : Word → Word) : (s.replyDrawn f).errCode = s.errCode := rfl
@[simp] theorem State.replyDrawn_events (f : Word → Word) : (s.replyDrawn f).events = s.events := rfl
@[simp] theorem State.replyDrawn_replies (f : Word → Word) : (s.replyDrawn f).replies = f (Config.any32 s.draws) :: s.replies := rfl
@[simp] theorem State.replyDrawn_draws (f : Word → Word) : (s.replyDrawn f).draws = s.draws + 1 := rfl

/-! ### `mergeSlots` -/

@[simp] theorem State.mergeSlots_ft (i1 i2 : Nat) : (s.mergeSlots i1 i2).ft = s.ft := rfl
@[simp] theorem State.mergeSlots_nodes (i1 i2 : Nat) : (s.mergeSlots i1 i2).nodes = s.nodes.setIfInBounds s.nodeNext (some (s.combine (s.wc.getD i1 0) (s.wc.getD i2 0))) := rfl
@[simp] theorem State.mergeSlots_wc (i1 i2 : Nat) : (s.mergeSlots i1 i2).wc = replacePair s.wc i1 i2 (BitVec.ofNat 9 s.nodeNext) := rfl
@[simp] theorem State.mergeSlots_nodeNext (i1 i2 : Nat) : (s.mergeSlots i1 i2).nodeNext = s.nodeNext + 1 := rfl
@[simp] theorem State.mergeSlots_leafCount (i1 i2 : Nat) : (s.mergeSlots i1 i2).leafCount = s.leafCount := rfl
@[simp] theorem State.mergeSlots_rootIdx (i1 i2 : Nat) : (s.mergeSlots i1 i2).rootIdx = s.rootIdx := rfl
@[simp] theorem State.mergeSlots_rootValid (i1 i2 : Nat) : (s.mergeSlots i1 i2).rootValid = s.rootValid := rfl
@[simp] theorem State.mergeSlots_cb (i1 i2 : Nat) : (s.mergeSlots i1 i2).cb = s.cb := rfl
@[simp] theorem State.mergeSlots_phase (i1 i2 : Nat) : (s.mergeSlots i1 i2).phase = s.phase := rfl
@[simp] theorem State.mergeSlots_busy (i1 i2 : Nat) : (s.mergeSlots i1 i2).busy = s.busy := rfl
@[simp] theorem State.mergeSlots_curCmd (i1 i2 : Nat) : (s.mergeSlots i1 i2).curCmd = s.curCmd := rfl
@[simp] theorem State.mergeSlots_cmpRes (i1 i2 : Nat) : (s.mergeSlots i1 i2).cmpRes = s.cmpRes := rfl
@[simp] theorem State.mergeSlots_ien (i1 i2 : Nat) : (s.mergeSlots i1 i2).ien = s.ien := rfl
@[simp] theorem State.mergeSlots_ipend (i1 i2 : Nat) : (s.mergeSlots i1 i2).ipend = s.ipend := rfl
@[simp] theorem State.mergeSlots_errCode (i1 i2 : Nat) : (s.mergeSlots i1 i2).errCode = s.errCode := rfl
@[simp] theorem State.mergeSlots_events (i1 i2 : Nat) : (s.mergeSlots i1 i2).events = s.events := rfl
@[simp] theorem State.mergeSlots_replies (i1 i2 : Nat) : (s.mergeSlots i1 i2).replies = s.replies := rfl
@[simp] theorem State.mergeSlots_draws (i1 i2 : Nat) : (s.mergeSlots i1 i2).draws = s.draws := rfl

/-! ### `resetBlock` -/

@[simp] theorem State.resetBlock_ft : s.resetBlock.ft = State.reset.ft := rfl
@[simp] theorem State.resetBlock_nodes : s.resetBlock.nodes = State.reset.nodes := rfl
@[simp] theorem State.resetBlock_wc : s.resetBlock.wc = State.reset.wc := rfl
@[simp] theorem State.resetBlock_nodeNext : s.resetBlock.nodeNext = State.reset.nodeNext := rfl
@[simp] theorem State.resetBlock_leafCount : s.resetBlock.leafCount = State.reset.leafCount := rfl
@[simp] theorem State.resetBlock_rootIdx : s.resetBlock.rootIdx = State.reset.rootIdx := rfl
@[simp] theorem State.resetBlock_rootValid : s.resetBlock.rootValid = State.reset.rootValid := rfl
@[simp] theorem State.resetBlock_cb : s.resetBlock.cb = State.reset.cb := rfl
@[simp] theorem State.resetBlock_phase : s.resetBlock.phase = State.reset.phase := rfl
@[simp] theorem State.resetBlock_busy : s.resetBlock.busy = State.reset.busy := rfl
@[simp] theorem State.resetBlock_curCmd : s.resetBlock.curCmd = State.reset.curCmd := rfl
@[simp] theorem State.resetBlock_cmpRes : s.resetBlock.cmpRes = State.reset.cmpRes := rfl
@[simp] theorem State.resetBlock_ien : s.resetBlock.ien = State.reset.ien := rfl
@[simp] theorem State.resetBlock_ipend : s.resetBlock.ipend = State.reset.ipend := rfl
@[simp] theorem State.resetBlock_errCode : s.resetBlock.errCode = State.reset.errCode := rfl
@[simp] theorem State.resetBlock_events : s.resetBlock.events = s.events := rfl
@[simp] theorem State.resetBlock_replies : s.resetBlock.replies = s.replies := rfl
@[simp] theorem State.resetBlock_draws : s.resetBlock.draws = s.draws := rfl

/-! ### `finish` -/

@[simp] theorem State.finish_ft : s.finish.ft = s.ft := by unfold State.finish; split <;> rfl
@[simp] theorem State.finish_nodes : s.finish.nodes = s.nodes := by unfold State.finish; split <;> rfl
@[simp] theorem State.finish_wc : s.finish.wc = s.wc := by unfold State.finish; split <;> rfl
@[simp] theorem State.finish_nodeNext : s.finish.nodeNext = s.nodeNext := by unfold State.finish; split <;> rfl
@[simp] theorem State.finish_leafCount : s.finish.leafCount = s.leafCount := by unfold State.finish; split <;> rfl
@[simp] theorem State.finish_cb : s.finish.cb = s.cb := by unfold State.finish; split <;> rfl
@[simp] theorem State.finish_busy : s.finish.busy = s.busy := by unfold State.finish; split <;> rfl
@[simp] theorem State.finish_curCmd : s.finish.curCmd = s.curCmd := by unfold State.finish; split <;> rfl
@[simp] theorem State.finish_cmpRes : s.finish.cmpRes = s.cmpRes := by unfold State.finish; split <;> rfl
@[simp] theorem State.finish_ien : s.finish.ien = s.ien := by unfold State.finish; split <;> rfl
@[simp] theorem State.finish_ipend : s.finish.ipend = s.ipend := by unfold State.finish; split <;> rfl
@[simp] theorem State.finish_errCode : s.finish.errCode = s.errCode := by unfold State.finish; split <;> rfl
@[simp] theorem State.finish_events : s.finish.events = s.events := by unfold State.finish; split <;> rfl
@[simp] theorem State.finish_replies : s.finish.replies = s.replies := by unfold State.finish; split <;> rfl
@[simp] theorem State.finish_draws : s.finish.draws = s.draws := by unfold State.finish; split <;> rfl
@[simp] theorem State.finish_phase : s.finish.phase = .tree := by unfold State.finish; split <;> rfl

@[simp] theorem State.finish_rootValid : s.finish.rootValid = decide (s.wc.length = 1) := by
  unfold State.finish
  split
  · next r h => simp [h]
  · next h =>
    match hwc : s.wc with
    | [] => simp
    | [r] => exact absurd hwc (h r)
    | _ :: _ :: _ => simp

theorem State.finish_rootIdx (h : s.wc.length ≤ 1) : s.finish.rootIdx = s.wc.headD 0 := by
  unfold State.finish
  split
  · next r h => simp [h]
  · next h' =>
    match hwc : s.wc with
    | [] => simp
    | [r] => exact absurd hwc (h' r)
    | _ :: _ :: _ => simp [hwc] at h

/-! ### The state after reset -/

@[simp] theorem State.reset_ft : State.reset.ft = Vector.replicate 256 0 := rfl
@[simp] theorem State.reset_nodes : State.reset.nodes = Vector.replicate 511 none := rfl
@[simp] theorem State.reset_wc : State.reset.wc = [] := rfl
@[simp] theorem State.reset_nodeNext : State.reset.nodeNext = 0 := rfl
@[simp] theorem State.reset_leafCount : State.reset.leafCount = 0 := rfl
@[simp] theorem State.reset_rootIdx : State.reset.rootIdx = 0 := rfl
@[simp] theorem State.reset_rootValid : State.reset.rootValid = false := rfl
@[simp] theorem State.reset_cb : State.reset.cb = Vector.replicate 256 none := rfl
@[simp] theorem State.reset_phase : State.reset.phase = .empty := rfl
@[simp] theorem State.reset_busy : State.reset.busy = false := rfl
@[simp] theorem State.reset_curCmd : State.reset.curCmd = 0 := rfl
@[simp] theorem State.reset_cmpRes : State.reset.cmpRes = false := rfl
@[simp] theorem State.reset_ien : State.reset.ien = 0 := rfl
@[simp] theorem State.reset_ipend : State.reset.ipend = 0 := rfl
@[simp] theorem State.reset_errCode : State.reset.errCode = 0 := rfl
@[simp] theorem State.reset_events : State.reset.events = [] := rfl
@[simp] theorem State.reset_replies : State.reset.replies = [] := rfl
@[simp] theorem State.reset_draws : State.reset.draws = 0 := rfl

/-! ### Reading the stores -/

theorem entryAt_setIfInBounds {nodes : Vector (Option Node) 511} {n : Nat} (hn : n < 511) (x : Option Node) (m : Nat) :
    entryAt (nodes.setIfInBounds n x) m = if n = m then x else entryAt nodes m := by
  unfold entryAt
  rw [Vector.getElem?_setIfInBounds]
  split <;> simp_all

@[simp] theorem entryAt_replicate (n : Nat) : entryAt (Vector.replicate 511 none) n = none := by
  simp only [entryAt, Vector.getElem?_replicate]
  split <;> rfl

/-- No entry stands past the store. -/
theorem entryAt_of_le {nodes : Vector (Option Node) 511} {n : Nat} (h : 511 ≤ n) : entryAt nodes n = none := by
  simp [entryAt, Vector.getElem?_eq_none (by omega : 511 ≤ n)]

theorem State.freqOf_setFreq {s : State} {b : Nat} (hb : b < 256) (v : Word) (c : Nat) :
    (s.setFreq b v).freqOf c = if b = c then v else s.freqOf c := by
  simp only [State.freqOf, State.setFreq, Vector.getElem?_setIfInBounds]
  split <;> simp_all

@[simp] theorem State.freqOf_clearFreqs (b : Nat) : s.clearFreqs.freqOf b = 0 := by
  simp only [State.freqOf, State.clearFreqs, Vector.getElem?_replicate]
  split <;> rfl

@[simp] theorem State.codeOf_clearCodes (b : Nat) : s.clearCodes.codeOf b = none := by
  simp only [State.codeOf, State.clearCodes, Vector.getElem?_replicate]
  split <;> rfl

/-- A state's entry is its store's. -/
theorem State.entry_eq (n : Nat) : s.entry n = entryAt s.nodes n := rfl

end Sys2Proof.Machine
end

