-- ==== Sys2Proof/Laws/TreeBuilder.lean ====
section
/-! SUPPORT. What leaf creation and one merge do: the order of nodes, the leaves they make, and that a merge of the store
is a merge of the trees it represents. -/

namespace Sys2Proof.Machine

/-! ### The ordering rule -/

theorem comesBefore_iff (x y : Option Node) :
    comesBefore x y = true ↔ entryFreq x < entryFreq y ∨ (entryFreq x = entryFreq y ∧ entryRep x ≤ entryRep y) := by
  simp [comesBefore]

theorem treeBefore_iff (x y : CodeTree) :
    treeBefore x y = true ↔ x.freq < y.freq ∨ (x.freq = y.freq ∧ x.rep ≤ y.rep) := by
  simp [treeBefore]

theorem comesBefore_totalOrder : TotalOrder comesBefore where
  total x y := by
    simp only [comesBefore_iff]
    bv_omega
  trans x y z := by
    simp only [comesBefore_iff]
    bv_omega

theorem treeBefore_totalOrder : TotalOrder treeBefore where
  total x y := by
    simp only [treeBefore_iff]
    bv_omega
  trans x y z := by
    simp only [treeBefore_iff]
    bv_omega

/-- Both directions hold only between equal keys (41_tree_builder.md R121 item 5). -/
theorem comesBefore_antisymm {x y : Option Node} (h : comesBefore x y = true) (h' : comesBefore y x = true) :
    entryFreq x = entryFreq y ∧ entryRep x = entryRep y := by
  rw [comesBefore_iff] at h h'
  bv_omega

/-! ### Trees of a store -/

/-- An entry and a tree have the same key. -/
structure SameKey (x : Option Node) (t : CodeTree) : Prop where
  freq : (entryFreq x).toNat = t.freq
  rep : entryRep x = t.rep

theorem comesBefore_of_sameKey {x x' : Option Node} {t t' : CodeTree} (h : SameKey x t) (h' : SameKey x' t') :
    comesBefore x x' = treeBefore t t' := by
  rw [Bool.eq_iff_iff, comesBefore_iff, treeBefore_iff, ← h.freq, ← h'.freq, ← h.rep, ← h'.rep, BitVec.lt_def,
    BitVec.toNat_eq]

theorem treeWithin_sameKey {nodes : Vector (Option Node) 511} {d n : Nat} {t : CodeTree} (h : treeWithin nodes d n = some t) :
    SameKey (entryAt nodes n) t := by
  cases d with
  | zero => simp [treeWithin] at h
  | succ d =>
    simp only [treeWithin] at h
    split at h
    · simp at h
    · next b f he =>
      obtain rfl := by simpa using h
      rw [he]; exact ⟨rfl, rfl⟩
    · next r f l r' he =>
      split at h
      · obtain rfl := by simpa using h
        rw [he]; exact ⟨rfl, rfl⟩
      · simp at h

/-- What is read out of a store does not change as entries are added to it, or as the depth grows. -/
theorem treeWithin_mono {nodes nodes' : Vector (Option Node) 511}
    (hext : ∀ m x, entryAt nodes m = some x → entryAt nodes' m = some x) :
    ∀ {d d' n : Nat} {t : CodeTree}, d ≤ d' → treeWithin nodes d n = some t → treeWithin nodes' d' n = some t
  | 0, _, _, _, _, h => by simp [treeWithin] at h
  | d + 1, 0, _, _, hd, _ => by omega
  | d + 1, d' + 1, n, t, hd, h => by
    simp only [treeWithin] at h ⊢
    split at h
    · simp at h
    · next b f he => rw [hext n _ he]; exact h
    · next r f l r' he =>
      rw [hext n _ he]
      simp only
      split at h
      · next tl tr hl hr =>
        rw [treeWithin_mono hext (by omega) hl, treeWithin_mono hext (by omega) hr]
        exact h
      · simp at h

theorem treeAt_ext {nodes nodes' : Vector (Option Node) 511}
    (hext : ∀ m x, entryAt nodes m = some x → entryAt nodes' m = some x) {n : Nat} {t : CodeTree}
    (h : treeAt nodes n = some t) : treeAt nodes' n = some t :=
  treeWithin_mono hext (le_refl _) h

theorem treeAt_leaf {nodes : Vector (Option Node) 511} {n : Nat} {b : ByteVal} {f : Freq}
    (h : entryAt nodes n = some (.leaf b f)) : treeAt nodes n = some (.leaf b f.toNat) := by
  simp [treeAt, treeWithin, h]

theorem treeAt_internal {nodes : Vector (Option Node) 511} {n : Nat} {r : ByteVal} {f : Freq} {a b : NodeIdx}
    {ta tb : CodeTree} (h : entryAt nodes n = some (.internal r f a b)) (ha : a.toNat < n) (hb : b.toNat < n)
    (hta : treeAt nodes a.toNat = some ta) (htb : treeAt nodes b.toNat = some tb) :
    treeAt nodes n = some (.node r f.toNat ta tb) := by
  have hta' : treeWithin nodes n a.toNat = some ta := treeWithin_mono (fun _ _ h => h) (by omega) hta
  have htb' : treeWithin nodes n b.toNat = some tb := treeWithin_mono (fun _ _ h => h) (by omega) htb
  simp [treeAt, treeWithin, h, hta', htb']

theorem CodeTree.leaves_ne_nil (t : CodeTree) : t.leaves ≠ [] := by
  induction t with
  | leaf b f => simp [CodeTree.leaves]
  | node r f l r' ihl ihr => simp [CodeTree.leaves, ihl]

/-- A strict binary tree has one node fewer than twice its leaves (41_tree_builder.md R133). -/
theorem CodeTree.size_eq (t : CodeTree) : t.size + 1 = 2 * t.leaves.length := by
  induction t with
  | leaf b f => rfl
  | node r f l r' ihl ihr => simp only [CodeTree.size, CodeTree.leaves, List.length_append]; omega

theorem treeCombine_leaves (x y : CodeTree) : ((treeCombine x y).leaves).Perm (x.leaves ++ y.leaves) := by
  unfold treeCombine
  split
  · exact List.Perm.refl _
  · exact List.perm_append_comm

theorem treeCombine_freq (x y : CodeTree) : (treeCombine x y).freq = x.freq + y.freq := by
  unfold treeCombine; split <;> rfl

theorem treeCombine_rep (x y : CodeTree) : (treeCombine x y).rep = minByte x.rep y.rep := by
  unfold treeCombine; split <;> rfl

theorem minByte_le_left (a b : ByteVal) : minByte a b ≤ a := by
  unfold minByte; split <;> bv_omega

theorem minByte_le_right (a b : ByteVal) : minByte a b ≤ b := by
  unfold minByte; split <;> bv_omega

theorem minByte_eq_or (a b : ByteVal) : minByte a b = a ∨ minByte a b = b := by
  unfold minByte; split <;> simp

/-- Combining keeps a node's summary of its leaves (R126, R136). -/
theorem treeCombine_summarises {x y : CodeTree} (hx : x.Summarises) (hy : y.Summarises) : (treeCombine x y).Summarises := by
  have hp := treeCombine_leaves x y
  refine ⟨?_, ?_, ?_⟩
  · rw [(hp.map Prod.snd).sum_eq, treeCombine_freq, hx.1, hy.1]
    simp
  · rw [treeCombine_rep]
    obtain ⟨p, hpx, hpe⟩ := hx.2.1
    obtain ⟨q, hqy, hqe⟩ := hy.2.1
    rcases minByte_eq_or x.rep y.rep with h | h
    · exact ⟨p, hp.mem_iff.mpr (by simp [hpx]), by rw [h, hpe]⟩
    · exact ⟨q, hp.mem_iff.mpr (by simp [hqy]), by rw [h, hqe]⟩
  · intro p hpm
    rw [treeCombine_rep]
    rcases List.mem_append.mp (hp.mem_iff.mp hpm) with h | h
    · exact BitVec.le_trans (minByte_le_left _ _) (hx.2.2 p h)
    · exact BitVec.le_trans (minByte_le_right _ _) (hy.2.2 p h)

/-! ### Leaf creation -/

/-- The leaf of a byte value (41_tree_builder.md R123). -/
def leafNode (ft : Vector Word 256) (b : Nat) : Node := .leaf (BitVec.ofNat 8 b) ((ft[b]?.getD 0).setWidth 40)

/-- A store whose first entries are a list of nodes and that holds nothing else, with the working collection and the
counter that go with it. -/
structure Filled (s : State) (l : List Node) : Prop where
  entry : ∀ m, entryAt s.nodes m = l[m]?
  wc : s.wc = (List.range l.length).map (BitVec.ofNat 9)
  nodeNext : s.nodeNext = l.length

/-- Leaf creation's rounds change nothing but the store, the collection and the counter. -/
theorem addLeaf_frame (s : State) (b : Nat) (f : Word) :
    ∃ nodes wc k, s.addLeaf b f = { s with nodes := nodes, wc := wc, nodeNext := k } := by
  unfold State.addLeaf
  split
  · exact ⟨s.nodes, s.wc, s.nodeNext, rfl⟩
  · exact ⟨_, _, _, rfl⟩

theorem addLeaf_filled {s : State} {l : List Node} (h : Filled s l) (hl : l.length < 511) (b : Nat) (f : Word) :
    Filled (s.addLeaf b f) (if f = 0 then l else l ++ [.leaf (BitVec.ofNat 8 b) (f.setWidth 40)]) := by
  unfold State.addLeaf
  split
  · exact h
  · refine ⟨fun m => ?_, ?_, ?_⟩
    · have hn := h.nodeNext
      simp only [State.setEntry, hn]
      rw [entryAt_setIfInBounds hl, h.entry]
      split
      · next he => subst he; simp
      · next he =>
        rcases Nat.lt_or_gt_of_ne he with h1 | h1
        · rw [List.getElem?_eq_none (by omega : l.length ≤ m), List.getElem?_eq_none (by simp; omega)]
        · rw [List.getElem?_append_left h1]
    · simp [h.wc, h.nodeNext, List.range_succ]
    · simp [h.nodeNext]

theorem addLeaves_frame (fs : List Word) :
    ∀ (b : Nat) (s : State), ∃ nodes wc k, State.addLeaves fs b s = { s with nodes := nodes, wc := wc, nodeNext := k } := by
  induction fs with
  | nil => intro b s; exact ⟨s.nodes, s.wc, s.nodeNext, rfl⟩
  | cons f fs ih =>
    intro b s
    obtain ⟨nodes, wc, k, h⟩ := addLeaf_frame s b f
    obtain ⟨nodes', wc', k', h'⟩ := ih (b + 1) (s.addLeaf b f)
    exact ⟨nodes', wc', k', by rw [State.addLeaves, h', h]⟩

/-- The leaves that a list of entries, the first that of byte value `b`, gives. -/
def leavesFrom (fs : List Word) (b : Nat) : List Node :=
  ((fs.zipIdx b).filter fun p => p.1 != 0).map fun p => .leaf (BitVec.ofNat 8 p.2) (p.1.setWidth 40)

theorem addLeaves_filled {fs : List Word} : ∀ {b : Nat} {s : State} {l : List Node}, Filled s l →
    l.length + fs.length ≤ 511 → Filled (State.addLeaves fs b s) (l ++ leavesFrom fs b) := by
  induction fs with
  | nil => intro b s l h _; simpa [leavesFrom, State.addLeaves] using h
  | cons f fs ih =>
    intro b s l h hl
    simp only [List.length_cons] at hl
    have h1 := addLeaf_filled h (by omega) b f
    have h3 := ih (b := b + 1) h1 (by split <;> (try simp only [List.length_append, List.length_cons, List.length_nil]) <;> omega)
    rw [State.addLeaves]
    by_cases hf : f = 0
    · rw [if_pos hf] at h3
      simpa [leavesFrom, hf] using h3
    · rw [if_neg hf, List.append_assoc, List.singleton_append] at h3
      rw [leavesFrom, List.zipIdx_cons, List.filter_cons_of_pos (by simpa using hf)]
      exact h3

theorem leavesFrom_table (ft : Vector Word 256) : leavesFrom ft.toList 0 = (usedBytes ft).map (leafNode ft) := by
  have hz : ft.toList.zipIdx = (List.range 256).map fun b => (ft[b]?.getD 0, b) := by
    refine List.ext_getElem? fun b => ?_
    by_cases hb : b < 256
    · simp [hb]
    · rw [List.getElem?_eq_none (by simp; omega), List.getElem?_eq_none (by simp; omega)]
  rw [leavesFrom, hz, List.filter_map, List.map_map]
  rfl

/-- Everything `make_leaves()` does (41_tree_builder.md R123). -/
theorem makeLeaves_spec (s : State) :
    Filled s.makeLeaves ((usedBytes s.ft).map (leafNode s.ft)) ∧
      s.makeLeaves = { s with
        nodes := s.makeLeaves.nodes
        wc := (List.range (usedBytes s.ft).length).map (BitVec.ofNat 9)
        nodeNext := (usedBytes s.ft).length
        leafCount := (usedBytes s.ft).length
        rootValid := false
        rootIdx := 0
        cb := Vector.replicate 256 none } := by
  have h0 : Filled { s.clearNodes.clearCodes with wc := [], nodeNext := 0 } [] := ⟨fun m => by simp, rfl, rfl⟩
  have h := addLeaves_filled (fs := s.ft.toList) (b := 0) h0 (by simp)
  obtain ⟨nodes, wc, k, hfr⟩ := addLeaves_frame s.ft.toList 0 { s.clearNodes.clearCodes with wc := [], nodeNext := 0 }
  rw [hfr, List.nil_append, leavesFrom_table] at h
  have hml : s.makeLeaves = { s with
      nodes := nodes, wc := wc, nodeNext := k, leafCount := k, rootValid := false, rootIdx := 0
      cb := Vector.replicate 256 none } := by
    simp only [State.makeLeaves, hfr]
    rfl
  have hf : Filled s.makeLeaves ((usedBytes s.ft).map (leafNode s.ft)) := by
    rw [hml]; exact ⟨h.entry, h.wc, h.nodeNext⟩
  refine ⟨hf, ?_⟩
  have hwc := hf.wc
  have hnn := hf.nodeNext
  simp only [hml, List.length_map] at hwc hnn
  rw [hml, hwc, hnn]

theorem usedBytes_length_le (ft : Vector Word 256) : (usedBytes ft).length ≤ 256 :=
  (List.length_filter_le _ _).trans (by simp)

theorem usedBytes_lt {ft : Vector Word 256} {b : Nat} (h : b ∈ usedBytes ft) : b < 256 ∧ ft[b]?.getD 0 ≠ 0 := by
  simpa [usedBytes] using h

theorem usedBytes_sorted (ft : Vector Word 256) : (usedBytes ft).Pairwise (· < ·) :=
  List.Pairwise.filter _ (List.pairwise_lt_range)

end Sys2Proof.Machine
end

