-- ==== Sys2Proof/Laws/StoreInv.lean ====
section
/-! SUPPORT. The forest invariant of the node store (spec/10_state.md R48 items 1 to 8, spec/41_tree_builder.md R136): leaf
creation establishes it, a merge keeps it, and a merge of the store is a merge of the trees it represents. -/

namespace Sys2Proof.Machine

/-! ### Leaf creation establishes the invariant -/

theorem filled_usedBytes_entry {s t : State} (h : Filled t ((usedBytes s.ft).map (leafNode s.ft))) {m : Nat}
    (hm : m < (usedBytes s.ft).length) :
    entryAt t.nodes m = some (.leaf (BitVec.ofNat 8 (usedBytes s.ft)[m])
      ((s.ft[(usedBytes s.ft)[m]]?.getD 0).setWidth 40)) := by
  rw [h.entry, List.getElem?_eq_getElem (by simpa using hm)]
  simp [leafNode]

theorem idx_toNat {k : Nat} (h : k < 512) : (BitVec.ofNat 9 k).toNat = k := by
  simp; omega

/-- The working collection after leaf creation. -/
theorem filled_wc_toNat {t : State} {l : List Node} (h : Filled t l) (hl : l.length ≤ 256) :
    t.wc.map BitVec.toNat = List.range l.length := by
  rw [h.wc, List.map_map]
  conv_rhs => rw [← List.map_id (List.range l.length)]
  refine List.map_congr_left fun k hk => ?_
  simpa using idx_toNat (by have := List.mem_range.mp hk; omega)

/-- The forest after leaf creation is the list of the table's leaves. -/
theorem filled_forest {s t : State} (h : Filled t ((usedBytes s.ft).map (leafNode s.ft))) :
    forestOf t.nodes t.wc = (leafTrees s.ft).map some := by
  have hlen := usedBytes_length_le s.ft
  refine List.ext_getElem (by simp [forestOf, h.wc, leafTrees]) fun m h1 h2 => ?_
  have hm : m < (usedBytes s.ft).length := by simpa [forestOf, h.wc] using h1
  have he := filled_usedBytes_entry h hm
  have := treeAt_leaf he
  simp only [forestOf, h.wc, List.getElem_map, List.getElem_range, leafTrees]
  rw [idx_toNat (by omega), this, BitVec.toNat_setWidth, Nat.mod_eq_of_lt]
  exact (BitVec.isLt _).trans (by decide)

theorem makeLeaves_storeInv (s : State) :
    StoreInv s.makeLeaves.nodes s.makeLeaves.wc s.makeLeaves.nodeNext s.makeLeaves.leafCount := by
  obtain ⟨hf, heq⟩ := makeLeaves_spec s
  have hlen := usedBytes_length_le s.ft
  have hnn := hf.nodeNext
  have hlc : s.makeLeaves.leafCount = (usedBytes s.ft).length := by rw [heq]
  rw [List.length_map] at hnn
  have hE := @filled_usedBytes_entry s s.makeLeaves hf
  have hbyte : ∀ m (hm : m < (usedBytes s.ft).length), (usedBytes s.ft)[m] < 256 ∧ s.ft[(usedBytes s.ft)[m]]?.getD 0 ≠ 0 :=
    fun m hm => usedBytes_lt (List.getElem_mem hm)
  have hwcN := filled_wc_toNat hf (by rw [List.length_map]; exact hlen)
  rw [List.length_map] at hwcN
  have hwcl : s.makeLeaves.wc.length = (usedBytes s.ft).length := by simp [hf.wc]
  have hchild : ∀ m ∈ List.range (usedBytes s.ft).length, entryChildren (entryAt s.makeLeaves.nodes m) = [] := by
    intro m hm
    rw [hE (List.mem_range.mp hm)]
    rfl
  rw [hnn, hlc]
  refine
    { nodeNext_le := by omega
      leafCount_le := hlen
      leafCount_le_nodeNext := le_refl _
      valid_iff := fun n hn => ?_
      leaf_kind := fun n hn => by rw [hE hn]; rfl
      internal_kind := fun n hn hle => absurd hn (by omega)
      leaves_ascending := fun j hj i hi => ?_
      once := ?_
      wc_length := by omega
      summary := fun n hn => ?_
      wc_reps := ?_
      leaf_freq := fun n hn => ?_
      forest_leaves := ?_ }
  · rw [hf.entry]
    by_cases h : n < (usedBytes s.ft).length
    · rw [List.getElem?_eq_getElem (by simpa using h)]; simp [entryValid, h]
    · rw [List.getElem?_eq_none (by simpa using h)]; simp [entryValid, h]
  · rw [hE hj, hE (by omega)]
    have hlt := List.pairwise_iff_getElem.mp (usedBytes_sorted s.ft) i j (by omega) hj hi
    have := (hbyte j hj).1
    have := (hbyte i (by omega)).1
    simp only [entryRep, BitVec.lt_def, BitVec.toNat_ofNat]
    omega
  · have : childrenBelow s.makeLeaves.nodes (usedBytes s.ft).length = [] := by
      simp only [childrenBelow, List.flatMap_eq_nil_iff]
      exact hchild
    rw [this, List.append_nil, hwcN]
  · refine ⟨_, treeAt_leaf (hE hn), ?_, ?_, ?_⟩
    · simp [CodeTree.freq, CodeTree.leaves]
    · simp [CodeTree.rep, CodeTree.leaves]
    · simp [CodeTree.rep, CodeTree.leaves]
  · rw [hf.wc, List.map_map, List.length_map]
    refine List.Nodup.map_on (fun a ha b hb hab => ?_) List.nodup_range
    have ha' := List.mem_range.mp ha
    have hb' := List.mem_range.mp hb
    simp only [Function.comp, idx_toNat (show a < 512 by omega), idx_toNat (show b < 512 by omega), hE ha', hE hb',
      entryRep] at hab
    have h3 := congrArg BitVec.toNat hab
    have := (hbyte a ha').1
    have := (hbyte b hb').1
    simp only [BitVec.toNat_ofNat] at h3
    rw [Nat.mod_eq_of_lt (by omega), Nat.mod_eq_of_lt (by omega)] at h3
    by_contra hne
    rcases Nat.lt_or_gt_of_ne hne with h | h
    · exact absurd (List.pairwise_iff_getElem.mp (usedBytes_sorted s.ft) a b ha' hb' h) (by omega)
    · exact absurd (List.pairwise_iff_getElem.mp (usedBytes_sorted s.ft) b a hb' ha' h) (by omega)
  · rw [hE hn]
    have h2 := (hbyte n hn).2
    have hlt := (s.ft[(usedBytes s.ft)[n]]?.getD 0).isLt
    have h0 : (s.ft[(usedBytes s.ft)[n]]?.getD 0).toNat ≠ 0 := fun h => h2 (BitVec.eq_of_toNat_eq (by simpa using h))
    simp only [entryFreq, BitVec.toNat_setWidth]
    rw [Nat.mod_eq_of_lt (by omega)]
    omega
  · rw [filled_forest hf]
    have h1 : ((leafTrees s.ft).map some).reduceOption = leafTrees s.ft := by simp [List.reduceOption]
    rw [h1]
    have h2 : (leafTrees s.ft).flatMap CodeTree.leaves = leafPairs s.makeLeaves.nodes (usedBytes s.ft).length := by
      refine List.ext_getElem ?_ fun m h1 h2 => ?_
      · simp [leafTrees, leafPairs, CodeTree.leaves, List.flatMap_map, List.length_flatMap]
      · have hm : m < (usedBytes s.ft).length := by simpa [leafPairs] using h2
        have : (leafTrees s.ft).flatMap CodeTree.leaves =
            (usedBytes s.ft).map fun b => (BitVec.ofNat 8 b, (s.ft[b]?.getD 0).toNat) := by
          simp [leafTrees, CodeTree.leaves, List.flatMap_map]
          exact List.flatMap_pure_eq_map _ _
        simp only [this, leafPairs, List.getElem_map, List.getElem_range, hE hm, entryRep, entryFreq, BitVec.toNat_setWidth]
        rw [Nat.mod_eq_of_lt]
        have := (s.ft[(usedBytes s.ft)[m]]?.getD 0).isLt
        omega
    rw [h2]

/-! ### A merge keeps the invariant -/

/-- A store without an entry, with that entry added. -/
theorem entryAt_added {nodes : Vector (Option Node) 511} {n : Nat} (hn : n < 511) (h0 : entryAt nodes n = none) (x : Node) :
    (∀ m y, entryAt nodes m = some y → entryAt (nodes.setIfInBounds n (some x)) m = some y) ∧
      (∀ m, m ≠ n → entryAt (nodes.setIfInBounds n (some x)) m = entryAt nodes m) ∧
      entryAt (nodes.setIfInBounds n (some x)) n = some x := by
  refine ⟨fun m y h => ?_, fun m h => ?_, ?_⟩
  · rw [entryAt_setIfInBounds hn]
    split
    · next he => subst he; simp [h0] at h
    · exact h
  · rw [entryAt_setIfInBounds hn, if_neg (Ne.symm h)]
  · rw [entryAt_setIfInBounds hn, if_pos rfl]

section Merge

variable {nodes : Vector (Option Node) 511} {wc : List NodeIdx} {nodeNext leafCount : Nat}

/-- No entry stands at or past `NODE_NEXT` (10_state.md R48 item 2). -/
theorem StoreInv.entry_none (h : StoreInv nodes wc nodeNext leafCount) {n : Nat} (hn : nodeNext ≤ n) :
    entryAt nodes n = none := by
  by_cases h511 : n < 511
  · simpa [entryValid, Nat.not_lt.mpr hn] using h.valid_iff n h511
  · simp [entryAt, h511]

/-- A member of the working collection names a valid entry (10_state.md R25). -/
theorem StoreInv.member_lt (h : StoreInv nodes wc nodeNext leafCount) {n : NodeIdx} (hn : n ∈ wc) : n.toNat < nodeNext :=
  List.mem_range.mp (h.once.mem_iff.mp (List.mem_append_left _ (List.mem_map_of_mem hn)))

theorem StoreInv.wc_nodup (h : StoreInv nodes wc nodeNext leafCount) : (wc.map BitVec.toNat).Nodup :=
  (List.nodup_append.mp (h.once.nodup_iff.mpr List.nodup_range)).1

/-- The members are the roots of trees, each summarised by its root. -/
theorem StoreInv.exists_forest (h : StoreInv nodes wc nodeNext leafCount) :
    ∃ F : List CodeTree, forestOf nodes wc = F.map some ∧ (∀ t ∈ F, t.Summarises) ∧
      (F.flatMap CodeTree.leaves).Perm (leafPairs nodes leafCount) := by
  have key : ∀ l : List NodeIdx, (∀ n ∈ l, n ∈ wc) →
      ∃ F : List CodeTree, forestOf nodes l = F.map some ∧ ∀ t ∈ F, t.Summarises := by
    intro l
    induction l with
    | nil => exact fun _ => ⟨[], rfl, by simp⟩
    | cons n l ih =>
      intro hl
      obtain ⟨F, hF, hs⟩ := ih fun m hm => hl m (List.mem_cons_of_mem _ hm)
      obtain ⟨t, ht, hts⟩ := h.summary _ (h.member_lt (hl n List.mem_cons_self))
      refine ⟨t :: F, ?_, ?_⟩
      · rw [forestOf, List.map_cons, List.map_cons, Option.mem_def.mp ht, ← hF, forestOf]
      · simpa using ⟨hts, hs⟩
  obtain ⟨F, hF, hs⟩ := key wc fun _ h => h
  refine ⟨F, hF, hs, ?_⟩
  have := h.forest_leaves
  rwa [hF, show (F.map some).reduceOption = F by simp [List.reduceOption]] at this

theorem forest_sameKey {F : List CodeTree} (hF : forestOf nodes wc = F.map some) :
    List.Forall₂ SameKey (wc.map fun n => entryAt nodes n.toNat) F := by
  induction wc generalizing F with
  | nil => cases F <;> simp_all [forestOf]
  | cons n wc ih =>
    cases F with
    | nil => simp [forestOf] at hF
    | cons t F =>
      simp only [forestOf, List.map_cons, List.cons.injEq] at hF
      exact .cons (treeWithin_sameKey hF.1) (ih hF.2)

/-- The frequencies of the members add up to no more than all leaves can hold (41_tree_builder.md R137). -/
theorem StoreInv.forest_freq_lt (h : StoreInv nodes wc nodeNext leafCount) {F : List CodeTree}
    (hs : ∀ t ∈ F, t.Summarises) (hl : (F.flatMap CodeTree.leaves).Perm (leafPairs nodes leafCount)) :
    (F.map CodeTree.freq).sum < 2 ^ 40 := by
  have h1 : (F.map CodeTree.freq).sum = ((F.flatMap CodeTree.leaves).map Prod.snd).sum := by
    clear hl
    induction F with
    | nil => rfl
    | cons t F ih =>
      rw [List.map_cons, List.sum_cons, List.flatMap_cons, List.map_append, List.sum_append,
        ih fun u hu => hs u (List.mem_cons_of_mem _ hu), (hs t List.mem_cons_self).1]
  have h2 : ((leafPairs nodes leafCount).map Prod.snd).sum ≤ leafCount * (2 ^ 32 - 1) := by
    have : ∀ x ∈ (leafPairs nodes leafCount).map Prod.snd, x ≤ 2 ^ 32 - 1 := by
      intro x hx
      simp only [leafPairs, List.map_map, List.mem_map, List.mem_range, Function.comp] at hx
      obtain ⟨j, hj, rfl⟩ := hx
      have := (h.leaf_freq j hj).2
      omega
    have := List.sum_le_card_nsmul _ _ this
    simpa [leafPairs] using this
  rw [h1, (hl.map Prod.snd).sum_eq]
  have := h.leafCount_le
  have : leafCount * (2 ^ 32 - 1) ≤ 256 * (2 ^ 32 - 1) := Nat.mul_le_mul_right _ this
  omega

/-- One merge, complete (41_tree_builder.md R129, R136, R141): two members are selected, the store stays a forest, the
collection is one shorter, and the trees it holds are those of one round of the abstract construction. -/
theorem StoreInv.merge {s : State} (h : StoreInv s.nodes s.wc s.nodeNext s.leafCount) (hlen : 2 ≤ s.wc.length) :
    ∃ i1 i2, selectTwo Config.tieKeep comesBefore s.members = some (i1, i2) ∧ s.nodeNext < 511 ∧
      StoreInv (s.mergeSlots i1 i2).nodes (s.mergeSlots i1 i2).wc (s.mergeSlots i1 i2).nodeNext s.leafCount ∧
      (s.mergeSlots i1 i2).wc.length + 1 = s.wc.length ∧
      mergeTrees (forestOf s.nodes s.wc).reduceOption =
        some (forestOf (s.mergeSlots i1 i2).nodes (s.mergeSlots i1 i2).wc).reduceOption := by
  obtain ⟨F, hF, hsum, hleaves⟩ := h.exists_forest
  have hred : ∀ G : List CodeTree, (G.map some).reduceOption = G := fun G => by simp [List.reduceOption]
  have hFlen : F.length = s.wc.length := by simpa [forestOf] using (congrArg List.length hF).symm
  have hkey := forest_sameKey hF
  have hsel := selectTwo_forall₂ (R := SameKey) (keep := Config.tieKeep)
    (fun _ _ _ _ h h' => comesBefore_of_sameKey h h') hkey
  have hsome : (selectTwo Config.tieKeep treeBefore F).isSome = true := selectTwo_isSome.mpr (by omega)
  obtain ⟨⟨i1, i2⟩, hsel2⟩ := Option.isSome_iff_exists.mp hsome
  obtain ⟨hne, hl1, hl2⟩ := selectTwo_lt hsel2
  have hn : s.nodeNext < 511 := by have := h.wc_length; have := h.leafCount_le; omega
  have hw1 : i1 < s.wc.length := by omega
  have hw2 : i2 < s.wc.length := by omega
  -- the two members and their trees
  obtain ⟨a, hadef⟩ : ∃ a, a = s.wc[i1] := ⟨_, rfl⟩
  obtain ⟨b, hbdef⟩ : ∃ b, b = s.wc[i2] := ⟨_, rfl⟩
  obtain ⟨ta, htadef⟩ : ∃ t, t = F[i1] := ⟨_, rfl⟩
  obtain ⟨tb, htbdef⟩ : ∃ t, t = F[i2] := ⟨_, rfl⟩
  have hta : treeAt s.nodes a.toNat = some ta := by
    have := List.getElem_of_eq hF (i := i1) (by simpa [forestOf] using hw1)
    simpa [forestOf, hadef, htadef] using this
  have htb : treeAt s.nodes b.toNat = some tb := by
    have := List.getElem_of_eq hF (i := i2) (by simpa [forestOf] using hw2)
    simpa [forestOf, hbdef, htbdef] using this
  have hka := treeWithin_sameKey hta
  have hkb := treeWithin_sameKey htb
  have ha := h.member_lt (n := a) (hadef ▸ List.getElem_mem hw1)
  have hb := h.member_lt (n := b) (hbdef ▸ List.getElem_mem hw2)
  have hab : a.toNat ≠ b.toNat := by
    intro he
    have hnd := h.wc_nodup
    refine hne ((List.Nodup.getElem_inj_iff hnd (hi := by simpa using hw1) (hj := by simpa using hw2)).mp ?_)
    simpa [hadef, hbdef] using he
  have haw : s.wc[i1]? = some a := by rw [hadef]; exact List.getElem?_eq_getElem hw1
  have hbw : s.wc[i2]? = some b := by rw [hbdef]; exact List.getElem?_eq_getElem hw2
  have hFa : F[i1]? = some ta := by rw [htadef]; exact List.getElem?_eq_getElem hl1
  have hFb : F[i2]? = some tb := by rw [htbdef]; exact List.getElem?_eq_getElem hl2
  obtain ⟨restW, hpW, hrW⟩ := replacePair_perm (BitVec.ofNat 9 s.nodeNext) hne haw hbw
  obtain ⟨restF, hpF, hrF⟩ := replacePair_perm (treeCombine ta tb) hne hFa hFb
  -- the sum does not wrap
  have hfreq : ta.freq + tb.freq < 2 ^ 40 := by
    have h1 := h.forest_freq_lt hsum hleaves
    rw [(hpF.map CodeTree.freq).sum_eq] at h1
    simp only [List.map_cons, List.sum_cons] at h1
    omega
  -- the new entry
  have hnone : entryAt s.nodes s.nodeNext = none := h.entry_none (Nat.le_refl _)
  obtain ⟨x, hxdef⟩ : ∃ x, x = s.combine (s.wc.getD i1 0) (s.wc.getD i2 0) := ⟨_, rfl⟩
  have hga : s.wc.getD i1 0 = a := by simp [List.getD, haw]
  have hgb : s.wc.getD i2 0 = b := by simp [List.getD, hbw]
  have hsumNat : (entryFreq (s.entry a.toNat) + entryFreq (s.entry b.toNat)).toNat = ta.freq + tb.freq := by
    rw [BitVec.toNat_add, State.entry_eq, State.entry_eq, hka.freq, hkb.freq, Nat.mod_eq_of_lt hfreq]
  have hxshape : ∃ l r, x = .internal (minByte ta.rep tb.rep) (entryFreq (s.entry a.toNat) + entryFreq (s.entry b.toNat)) l r ∧
      ((l = a ∧ r = b ∧ treeBefore ta tb = true) ∨ (l = b ∧ r = a ∧ treeBefore ta tb = false)) := by
    rw [hxdef, hga, hgb]
    unfold State.combine
    simp only [State.entry_eq, comesBefore_of_sameKey hka hkb, hka.rep, hkb.rep]
    split
    · next hc => exact ⟨a, b, rfl, .inl ⟨rfl, rfl, hc⟩⟩
    · next hc => exact ⟨b, a, rfl, .inr ⟨rfl, rfl, by simpa using hc⟩⟩
  obtain ⟨l, r, hx, hlr⟩ := hxshape
  obtain ⟨hext, hold, hnew⟩ := entryAt_added hn hnone x
  have hnodes : (s.mergeSlots i1 i2).nodes = s.nodes.setIfInBounds s.nodeNext (some x) := by
    rw [State.mergeSlots_nodes, hxdef]
  have hll : l.toNat < s.nodeNext := by rcases hlr with ⟨rfl, _, _⟩ | ⟨rfl, _, _⟩ <;> assumption
  have hrl : r.toNat < s.nodeNext := by rcases hlr with ⟨_, rfl, _⟩ | ⟨_, rfl, _⟩ <;> assumption
  have hidx : (BitVec.ofNat 9 s.nodeNext).toNat = s.nodeNext := idx_toNat (by omega)
  have htree : treeAt (s.mergeSlots i1 i2).nodes s.nodeNext = some (treeCombine ta tb) := by
    rw [hnodes]
    have ha' := treeAt_ext hext hta
    have hb' := treeAt_ext hext htb
    rcases hlr with ⟨rfl, rfl, hc⟩ | ⟨rfl, rfl, hc⟩
    · rw [treeAt_internal (hnew.trans (congrArg some hx)) hll hrl ha' hb', hsumNat]
      simp [treeCombine, hc]
    · rw [treeAt_internal (hnew.trans (congrArg some hx)) hll hrl hb' ha', hsumNat]
      simp [treeCombine, hc]
  have hlenW := replacePair_length (BitVec.ofNat 9 s.nodeNext) hne hw1 hw2
  -- the forest
  have hforest : forestOf (s.mergeSlots i1 i2).nodes (s.mergeSlots i1 i2).wc =
      (replacePair F i1 i2 (treeCombine ta tb)).map some := by
    rw [forestOf, State.mergeSlots_wc, replacePair_map, hidx, htree, replacePair_map]
    congr 1
    rw [← hF, forestOf]
    refine List.map_congr_left fun m hm => ?_
    obtain ⟨k, hk, rfl⟩ := List.mem_iff_getElem.mp hm
    have : treeAt s.nodes (s.wc[k]).toNat = some (F[k]'(by omega)) := by
      have := List.getElem_of_eq hF (i := k) (by simpa [forestOf] using hk)
      simpa [forestOf] using this
    rw [this, hnodes]
    exact treeAt_ext hext this
  refine ⟨i1, i2, hsel.trans hsel2, hn, ?_, hlenW, ?_⟩
  · have hxsum : (treeCombine ta tb).Summarises := treeCombine_summarises
      (hsum ta (htadef ▸ List.getElem_mem hl1)) (hsum tb (htbdef ▸ List.getElem_mem hl2))
    have hsmall : ∀ m < s.nodeNext, entryAt (s.mergeSlots i1 i2).nodes m = entryAt s.nodes m := fun m hm => by
      rw [hnodes]; exact hold m (by omega)
    have hnew' : entryAt (s.mergeSlots i1 i2).nodes s.nodeNext = some x := by rw [hnodes]; exact hnew
    have hle := h.leafCount_le_nodeNext
    refine
      { nodeNext_le := by rw [State.mergeSlots_nodeNext]; omega
        leafCount_le := h.leafCount_le
        leafCount_le_nodeNext := by rw [State.mergeSlots_nodeNext]; omega
        valid_iff := fun m hm => ?_
        leaf_kind := fun m hm => by rw [hsmall m (by omega)]; exact h.leaf_kind m hm
        internal_kind := fun m hm hlm => ?_
        leaves_ascending := fun j hj i hi => by
          rw [hsmall j (by omega), hsmall i (by omega)]; exact h.leaves_ascending j hj i hi
        once := ?_
        wc_length := by
          have := h.wc_length
          rw [State.mergeSlots_wc, State.mergeSlots_nodeNext]
          omega
        summary := fun m hm => ?_
        wc_reps := ?_
        leaf_freq := fun m hm => by rw [hsmall m (by omega)]; exact h.leaf_freq m hm
        forest_leaves := ?_ }
    · rw [State.mergeSlots_nodeNext]
      by_cases he : m = s.nodeNext
      · subst he; rw [hnew']; simp [entryValid]
      · rw [hnodes, hold m he, h.valid_iff m hm]
        exact decide_eq_decide.mpr (by omega)
    · rw [State.mergeSlots_nodeNext] at hm
      by_cases he : m = s.nodeNext
      · subst he
        rw [hnew', hx]
        refine ⟨rfl, hll, hrl, fun hc => hab ?_⟩
        simp only [entryLeft, entryRight] at hc
        rcases hlr with ⟨rfl, rfl, _⟩ | ⟨rfl, rfl, _⟩ <;> rw [hc]
      · rw [hsmall m (by omega)]; exact h.internal_kind m (by omega) hlm
    · rw [State.mergeSlots_wc, State.mergeSlots_nodeNext]
      have hch : childrenBelow (s.mergeSlots i1 i2).nodes (s.nodeNext + 1) =
          childrenBelow s.nodes s.nodeNext ++ [l.toNat, r.toNat] := by
        rw [childrenBelow, List.range_succ, List.flatMap_append, List.flatMap_singleton, hnew', hx]
        congr 1
        exact List.flatMap_congr fun m hm => by rw [hsmall m (List.mem_range.mp hm)]
      have hlrp : [l.toNat, r.toNat].Perm [a.toNat, b.toNat] := by
        rcases hlr with ⟨rfl, rfl, _⟩ | ⟨rfl, rfl, _⟩
        · exact List.Perm.refl _
        · exact List.Perm.swap _ _ _
      rw [hch, List.range_succ]
      have hw := hrW.map BitVec.toNat
      simp only [List.map_cons, hidx] at hw
      have h0 := (hpW.map BitVec.toNat).symm.append_right (childrenBelow s.nodes s.nodeNext)
      have h1 := h0.trans h.once
      simp only [List.map_cons] at h1
      have h2 : ((s.nodeNext :: restW.map BitVec.toNat) ++ (childrenBelow s.nodes s.nodeNext ++ [a.toNat, b.toNat])).Perm
          (s.nodeNext :: ((a.toNat :: b.toNat :: restW.map BitVec.toNat) ++ childrenBelow s.nodes s.nodeNext)) := by
        rw [List.cons_append]
        refine List.Perm.cons _ ?_
        rw [← List.append_assoc]
        exact List.perm_append_comm
      exact (hw.append (hlrp.append_left _)).trans
        (h2.trans ((h1.cons _).trans (List.perm_append_comm (l₁ := [s.nodeNext]))))
    · rw [State.mergeSlots_nodeNext] at hm
      by_cases he : m = s.nodeNext
      · subst he
        exact ⟨_, htree, hxsum⟩
      · obtain ⟨t, ht, hts⟩ := h.summary m (by omega)
        exact ⟨t, by rw [hnodes]; exact treeAt_ext hext ht, hts⟩
    · rw [State.mergeSlots_wc]
      have hp := hrW.map fun n => entryRep (entryAt (s.mergeSlots i1 i2).nodes n.toNat)
      rw [hp.nodup_iff, List.map_cons, hidx, hnew', hx]
      have hq := (hpW.map fun n => entryRep (entryAt s.nodes n.toNat)).nodup_iff.mp h.wc_reps
      simp only [List.map_cons, List.nodup_cons, List.mem_cons, not_or] at hq
      have hrest : restW.map (fun n => entryRep (entryAt (s.mergeSlots i1 i2).nodes n.toNat)) =
          restW.map fun n => entryRep (entryAt s.nodes n.toNat) := by
        refine List.map_congr_left fun m hm => ?_
        rw [hsmall]
        exact h.member_lt (hpW.mem_iff.mpr (by simp [hm]))
      rw [hrest, List.nodup_cons]
      refine ⟨?_, hq.2.2⟩
      simp only [entryRep]
      rcases minByte_eq_or ta.rep tb.rep with hm | hm
      · rw [hm, ← hka.rep]; exact hq.1.2
      · rw [hm, ← hkb.rep]; exact hq.2.1
    · rw [hforest, hred]
      have hlp : leafPairs (s.mergeSlots i1 i2).nodes s.leafCount = leafPairs s.nodes s.leafCount := by
        refine List.map_congr_left fun j hj => ?_
        rw [hsmall j (by have := List.mem_range.mp hj; omega)]
      rw [hlp]
      have h1 := hrF.flatMap_right CodeTree.leaves
      have h2 := (hpF.flatMap_right CodeTree.leaves).symm.trans hleaves
      simp only [List.flatMap_cons] at h1 h2
      rw [← List.append_assoc] at h2
      exact h1.trans (((treeCombine_leaves ta tb).append_right _).trans h2)
  · rw [hforest, hF, hred, hred, mergeTrees, hsel2]
    simp only [hFa, hFb]

end Merge

end Sys2Proof.Machine
end

