-- ==== Sys2Proof/Laws/Construction.lean ====
section
/-! SUPPORT. What `merge()` and the body of `BUILD` do to the whole state (spec/41_tree_builder.md R129, R131, R134), and that
they carry out the abstract construction (R141). -/

namespace Sys2Proof.Machine

/-! ### The abstract construction, round by round -/

theorem mergeTrees_length {l l' : List CodeTree} (h : mergeTrees l = some l') : l'.length + 1 = l.length := by
  unfold mergeTrees at h
  split at h
  · simp at h
  · next i1 i2 hs =>
    obtain ⟨hne, h1, h2⟩ := selectTwo_lt hs
    split at h
    · obtain rfl := by simpa using h
      exact replacePair_length _ hne h1 h2
    · simp at h

/-- A round does not change what the construction ends in. -/
theorem mergeToOne_step {l l' : List CodeTree} (h : mergeTrees l = some l') : mergeToOne l = mergeToOne l' := by
  have := mergeTrees_length h
  rw [mergeToOne, mergeToOne, ← this]
  simp only [mergeLoop, h]

theorem mergeToOne_of_length_le {l : List CodeTree} (h : l.length ≤ 1) : mergeToOne l = l.head? := by
  have hnone : mergeTrees l = none := by
    cases hm : mergeTrees l with
    | none => rfl
    | some l' =>
      exfalso
      unfold mergeTrees at hm
      split at hm
      · simp at hm
      · next hs =>
        have := (selectTwo_isSome (keep := Config.tieKeep) (before := treeBefore) (l := l)).mp (by rw [hs]; rfl)
        omega
  rw [mergeToOne]
  cases hl : l.length with
  | zero => rfl
  | succ k => simp only [mergeLoop, hnone]

/-! ### Merges of the state -/

/-- `merge()` on a forest with at least two members: complete, with its frame. -/
theorem merge_spec {s : State} (h : StoreInv s.nodes s.wc s.nodeNext s.leafCount) (hlen : 2 ≤ s.wc.length) :
    ∃ nodes wc, StoreInv nodes wc (s.nodeNext + 1) s.leafCount ∧ wc.length + 1 = s.wc.length ∧
      (∀ m < s.nodeNext, entryAt nodes m = entryAt s.nodes m) ∧
      mergeTrees (forestOf s.nodes s.wc).reduceOption = some (forestOf nodes wc).reduceOption ∧
      s.merge = some (if wc.length = 1 then ({ s with nodes := nodes, wc := wc, nodeNext := s.nodeNext + 1 } : State).finish
        else { s with nodes := nodes, wc := wc, nodeNext := s.nodeNext + 1 }) := by
  obtain ⟨i1, i2, hsel, hn, hinv, hl, htrees⟩ := h.merge hlen
  refine ⟨_, _, hinv, hl, fun m hm => ?_, htrees, ?_⟩
  · rw [State.mergeSlots_nodes]
    exact (entryAt_setIfInBounds hn _ m).trans (if_neg (by omega))
  · unfold State.merge
    rw [hsel]
    simp only [hn, if_true]
    rfl

/-- All the merges of a construction with at least two members: they end with one, and `finish` has run. -/
theorem mergeAll_spec : ∀ {k : Nat} {s : State}, StoreInv s.nodes s.wc s.nodeNext s.leafCount → 2 ≤ s.wc.length →
    s.wc.length ≤ k → ∃ nodes wc n, StoreInv nodes wc n s.leafCount ∧ wc.length = 1 ∧ s.nodeNext ≤ n ∧
      (∀ m < s.nodeNext, entryAt nodes m = entryAt s.nodes m) ∧
      mergeToOne (forestOf s.nodes s.wc).reduceOption = mergeToOne (forestOf nodes wc).reduceOption ∧
      State.mergeAll k s = some ({ s with nodes := nodes, wc := wc, nodeNext := n } : State).finish
  | 0, _, _, h2, hk => by omega
  | k + 1, s, h, h2, hk => by
    obtain ⟨nodes, wc, hinv, hl, hold, htrees, hm⟩ := merge_spec h h2
    have hnot : ¬ s.wc.length < 2 := by omega
    by_cases h1 : wc.length = 1
    · refine ⟨nodes, wc, s.nodeNext + 1, hinv, h1, by omega, hold, mergeToOne_step htrees, ?_⟩
      simp only [State.mergeAll, if_neg hnot, hm, if_pos h1]
      cases k with
      | zero => rfl
      | succ k => simp only [State.mergeAll, State.finish_wc, h1, if_pos (by omega : 1 < 2)]
    · obtain ⟨nodes', wc', n, hinv', hl', hle', hold', htrees', hm'⟩ :=
        mergeAll_spec (k := k) (s := { s with nodes := nodes, wc := wc, nodeNext := s.nodeNext + 1 }) hinv
          (by simp only; omega) (by simp only; omega)
      simp only at hinv' hle' hold' htrees' hm'
      refine ⟨nodes', wc', n, hinv', hl', by omega, fun m hm0 => ?_, (mergeToOne_step htrees).trans htrees', ?_⟩
      · rw [hold' m (by omega), hold m hm0]
      · simp only [State.mergeAll, if_neg hnot, hm, if_neg h1, hm']

/-- The root of a construction with at most one member. -/
theorem forest_root {nodes : Vector (Option Node) 511} {wc : List NodeIdx} {n k : Nat} (h : StoreInv nodes wc n k)
    (hl : wc.length ≤ 1) :
    mergeToOne (forestOf nodes wc).reduceOption =
      if decide (wc.length = 1) = true then treeAt nodes (wc.headD 0).toNat else none := by
  obtain ⟨F, hF, -, -⟩ := h.exists_forest
  have hFl : F.length = wc.length := by simpa [forestOf] using (congrArg List.length hF).symm
  rw [hF, show (F.map some).reduceOption = F by simp [List.reduceOption], mergeToOne_of_length_le (by omega)]
  match wc, F, hF with
  | [], [], _ => rfl
  | [r], [t], hF => simpa [forestOf] using hF.symm
  | [], _ :: _, hF => simp [forestOf] at hF
  | [_], [], hF => simp [forestOf] at hF
  | [_], _ :: _ :: _, hF => simp at hFl
  | _ :: _ :: _, _, _ => simp at hl

theorem filled_table {s t : State} (h : Filled t ((usedBytes s.ft).map (leafNode s.ft))) :
    (List.range (usedBytes s.ft).length).map (entryAt t.nodes) =
      (usedBytes s.ft).map fun b => some (.leaf (BitVec.ofNat 8 b) ((s.ft[b]?.getD 0).setWidth 40)) := by
  refine List.ext_getElem (by simp) fun m h1 h2 => ?_
  have hm : m < (usedBytes s.ft).length := by simpa using h2
  simp only [List.getElem_map, List.getElem_range]
  rw [filled_usedBytes_entry h hm]

theorem buildBody_of_mergeAll {s t u : State} (ht : s.makeLeaves = t) (h : State.mergeAll t.wc.length t = some u) :
    s.buildBody = some (if u.leafCount ≤ 1 then u.finish else u) := by
  subst ht
  unfold State.buildBody
  generalize s.makeLeaves = t at h
  simp only [h]

/-- Finishing a state whose collection has at most one member. -/
theorem finish_eq (s : State) (h : s.wc.length ≤ 1) :
    s.finish = { s with rootIdx := s.wc.headD 0, rootValid := decide (s.wc.length = 1), phase := .tree } := by
  have e1 := State.finish_rootValid s
  have e2 := State.finish_rootIdx s h
  rw [← e1, ← e2]
  unfold State.finish
  split <;> rfl

/-- The body of `BUILD`, complete (41_tree_builder.md R134, R141): it never fails, its store is a forest with at most one
member, that member's tree is `build(FT)`, and the rest of the state is as it was. -/
theorem buildBody_spec (s : State) :
    ∃ nodes wc n, StoreInv nodes wc n (usedBytes s.ft).length ∧ wc.length ≤ 1 ∧
      (List.range (usedBytes s.ft).length).map (entryAt nodes) =
        ((usedBytes s.ft).map fun b => some (.leaf (BitVec.ofNat 8 b) ((s.freqOf b).setWidth 40))) ∧
      mergeToOne (forestOf nodes wc).reduceOption = buildTree s.ft ∧
      s.buildBody = some { s with
        nodes := nodes, wc := wc, nodeNext := n, leafCount := (usedBytes s.ft).length
        rootValid := decide (wc.length = 1), rootIdx := wc.headD 0
        cb := Vector.replicate 256 none, phase := .tree } := by
  obtain ⟨hf, heq⟩ := makeLeaves_spec s
  have hinv := makeLeaves_storeInv s
  have htab := filled_table hf
  have hforest := filled_forest hf
  have hred : ∀ G : List CodeTree, (G.map some).reduceOption = G := fun G => by simp [List.reduceOption]
  have hwl : s.makeLeaves.wc.length = (usedBytes s.ft).length := by simp [hf.wc]
  have hlc : s.makeLeaves.leafCount = (usedBytes s.ft).length := by rw [heq]
  have hnn : s.makeLeaves.nodeNext = (usedBytes s.ft).length := by rw [heq]
  obtain ⟨t, ht⟩ : ∃ t, s.makeLeaves = t := ⟨_, rfl⟩
  rw [ht] at hf heq hinv htab hforest hwl hlc hnn
  by_cases h2 : 2 ≤ t.wc.length
  · obtain ⟨nodes, wc, n, hinv', hl1, hle, hold, htrees, hm⟩ := mergeAll_spec hinv h2 (le_refl _)
    rw [hlc] at hinv'
    refine ⟨nodes, wc, n, hinv', by omega, ?_, ?_, ?_⟩
    · refine Eq.trans ?_ htab
      exact List.map_congr_left fun m hm => hold m (by have := List.mem_range.mp hm; omega)
    · rw [← htrees, hforest, hred]; rfl
    · rw [buildBody_of_mergeAll ht hm, State.finish_leafCount, if_neg (by simp only; omega)]
      obtain ⟨l, hl⟩ : ∃ l, (usedBytes s.ft).length = l := ⟨_, rfl⟩
      obtain ⟨n0, hn0⟩ : ∃ n, t.nodes = n := ⟨_, rfl⟩
      rw [hn0, hl] at heq
      rw [hl]
      subst heq
      exact congrArg some (finish_eq _ (by simp only; omega))
  · have hw : t.wc.length ≤ 1 := by omega
    refine ⟨t.nodes, t.wc, t.nodeNext, by rw [← hlc]; exact hinv, hw, htab, ?_, ?_⟩
    · rw [hforest, hred]; rfl
    · have hmall : State.mergeAll t.wc.length t = some t := by
        cases t.wc.length with
        | zero => rfl
        | succ k => simp only [State.mergeAll, if_pos (by omega : t.wc.length < 2)]
      rw [buildBody_of_mergeAll ht hmall, if_pos (by omega)]
      obtain ⟨l, hl⟩ : ∃ l, (usedBytes s.ft).length = l := ⟨_, rfl⟩
      obtain ⟨n0, hn0⟩ : ∃ n, t.nodes = n := ⟨_, rfl⟩
      rw [hn0, hl] at heq
      rw [hl]
      subst heq
      exact congrArg some (finish_eq _ hw)

end Sys2Proof.Machine
end

