-- ==== Sys2Proof/Laws/Traversal.lean ====
section
/-! SUPPORT. The traversal of `DERIVE` (spec/42_codebook.md R161) computes the abstract code derivation (R160) and stores it in
the one stored form (R167). -/

namespace Sys2Proof.Machine

/-! ### Strings of symbols as stored codes -/

/-- The bits of a string: symbol `i` in bit `i` (30_encoding.md R101). -/
def strBits (str : List Bool) : BitVec 256 := (BitVec.ofBoolListLE str).setWidth 256

/-- The stored code of a string. -/
def codeOfString (str : List Bool) : Code := ⟨BitVec.ofNat 8 str.length, strBits str⟩

theorem getLsbD_strBits (str : List Bool) (i : Nat) :
    (strBits str).getLsbD i = (decide (i < 256) && str.getD i false) := by
  simp [strBits, BitVec.getLsbD_setWidth, BitVec.getLsbD_ofBoolListLE]

theorem strBits_append_false (str : List Bool) : strBits (str ++ [false]) = strBits str := by
  refine BitVec.eq_of_getLsbD_eq fun i _ => ?_
  simp only [getLsbD_strBits, List.getD_eq_getElem?_getD]
  congr 1
  rw [List.getElem?_append]
  split
  · rfl
  · next h =>
    rw [List.getElem?_eq_none (by omega : str.length ≤ i)]
    cases i - str.length <;> simp

theorem strBits_append_true (str : List Bool) :
    strBits (str ++ [true]) = strBits str ||| (1#256 <<< str.length) := by
  refine BitVec.eq_of_getLsbD_eq fun i hi => ?_
  simp only [BitVec.getLsbD_or, getLsbD_strBits, hi, decide_true, Bool.true_and, BitVec.getLsbD_shiftLeft,
    List.getD_eq_getElem?_getD, List.getElem?_append]
  split
  · next h => simp [h]
  · next h =>
    rw [List.getElem?_eq_none (by omega : str.length ≤ i)]
    have : (decide (i < str.length)) = false := by simpa using h
    rw [this]
    cases i - str.length <;> simp [BitVec.getLsbD_one]

theorem strBits_nil : strBits [] = 0 := by
  refine BitVec.eq_of_getLsbD_eq fun i _ => ?_
  simp [getLsbD_strBits]

theorem codeString_codeOfString {str : List Bool} (hs : str.length ≤ 255) : codeString (codeOfString str) = str := by
  have hlen : (codeOfString str).len.toNat = str.length := by simp [codeOfString]; omega
  refine List.ext_getElem (by simp [codeString, hlen]) fun i h1 h2 => ?_
  simp only [codeString, List.getElem_map, List.getElem_range]
  have : (codeOfString str).bits = strBits str := rfl
  rw [this, getLsbD_strBits]
  simp [List.getD_eq_getElem?_getD, List.getElem?_eq_getElem h2, show i < 256 by omega]

/-- The stored form (R167). -/
theorem codeOfString_canonical {str : List Bool} (hs : str.length ≤ 255) :
    (codeOfString str).bits >>> (codeOfString str).len.toNat = 0 := by
  have hlen : (codeOfString str).len.toNat = str.length := by simp [codeOfString]; omega
  rw [hlen]
  refine BitVec.eq_of_getLsbD_eq fun i _ => ?_
  rw [BitVec.getLsbD_ushiftRight, show (codeOfString str).bits = strBits str from rfl, getLsbD_strBits]
  simp [List.getD_eq_getElem?_getD]

/-! ### Heights and code lengths -/

/-- The number of branches on the longest path of a tree. -/
def CodeTree.height : CodeTree → Nat
  | .leaf _ _ => 0
  | .node _ _ l r => max l.height r.height + 1

/-- A leaf has fewer ancestors than the tree has leaves (R165). -/
theorem CodeTree.height_lt (t : CodeTree) : t.height < t.leaves.length := by
  induction t with
  | leaf b f => simp [CodeTree.height, CodeTree.leaves]
  | node r f l r' ihl ihr =>
    simp only [CodeTree.height, CodeTree.leaves, List.length_append]
    omega

theorem treeCodes_length_le : ∀ {t : CodeTree} {str : List Bool} {p : ByteVal × List Bool}, p ∈ treeCodes t str →
    p.2.length ≤ str.length + t.height
  | .leaf b f, str, p, h => by
    obtain rfl := by simpa [treeCodes] using h
    simp
  | .node r f l r', str, p, h => by
    rcases List.mem_append.mp h with h | h
    · have := treeCodes_length_le h
      simp only [List.length_append, List.length_cons, List.length_nil, CodeTree.height] at this ⊢
      omega
    · have := treeCodes_length_le h
      simp only [List.length_append, List.length_cons, List.length_nil, CodeTree.height] at this ⊢
      omega

/-- The byte values with codes are those of the leaves, in the same order. -/
theorem treeCodes_keys (t : CodeTree) (str : List Bool) : (treeCodes t str).map Prod.fst = t.leaves.map Prod.fst := by
  induction t generalizing str with
  | leaf b f => rfl
  | node r f l r' ihl ihr => simp [treeCodes, CodeTree.leaves, ihl, ihr]

/-! ### The traversal -/

/-- The code book with a list of codes written into it. -/
def fillCodes (cb : Vector (Option Code) 256) (l : List (ByteVal × List Bool)) : Vector (Option Code) 256 :=
  l.foldl (fun cb p => cb.setIfInBounds p.1.toNat (some (codeOfString p.2))) cb

theorem fillCodes_append (cb : Vector (Option Code) 256) (l l' : List (ByteVal × List Bool)) :
    fillCodes cb (l ++ l') = fillCodes (fillCodes cb l) l' := List.foldl_append

/-- The traversal of a subtree pops each of its nodes once and writes exactly the codes of its leaves. -/
theorem traverse_tree {nodes : Vector (Option Node) 511} : ∀ {t : CodeTree} {d : Nat} {n : NodeIdx} {str : List Bool}
    {pops : Nat} {rest : List Pending} {cb : Vector (Option Code) 256}, treeWithin nodes d n.toNat = some t →
    str.length + t.height ≤ Config.codeMax →
    traverse nodes (pops + t.size) ((n, strBits str, str.length) :: rest) cb =
      traverse nodes pops rest (fillCodes cb (treeCodes t str))
  | .leaf b f, 0, _, _, _, _, _, h, _ => by simp [treeWithin] at h
  | .node r f l r', 0, _, _, _, _, _, h, _ => by simp [treeWithin] at h
  | .leaf b f, d + 1, n, str, pops, rest, cb, h, _ => by
    simp only [treeWithin] at h
    split at h
    · simp at h
    · next b' f' he =>
      obtain ⟨rfl, -⟩ := by simpa using h
      simp only [CodeTree.size, traverse, he]
      rfl
    · split at h <;> simp at h
  | .node r f l r', d + 1, n, str, pops, rest, cb, h, hh => by
    simp only [treeWithin] at h
    split at h
    · simp at h
    · simp at h
    · next rr ff left right he =>
      split at h
      · next tl tr hl hr =>
        obtain ⟨-, -, rfl, rfl⟩ := by simpa using h
        simp only [CodeTree.height] at hh
        have hc : Config.codeMax = 255 := rfl
        have hlt : str.length < Config.codeMax := by omega
        have hL := traverse_tree (str := str ++ [false]) (pops := pops + tr.size)
          (rest := (right, strBits str ||| (1#256 <<< str.length), str.length + 1) :: rest) (cb := cb) hl
          (by simp only [List.length_append, List.length_cons, List.length_nil]; omega)
        have hR := traverse_tree (str := str ++ [true]) (pops := pops) (rest := rest)
          (cb := fillCodes cb (treeCodes tl (str ++ [false]))) hr
          (by simp only [List.length_append, List.length_cons, List.length_nil]; omega)
        rw [strBits_append_false] at hL
        rw [strBits_append_true] at hR
        simp only [List.length_append, List.length_cons, List.length_nil, Nat.zero_add] at hL hR
        have hsz : pops + (CodeTree.node r f tl tr).size = pops + tr.size + tl.size + 1 := by simp only [CodeTree.size]; omega
        rw [hsz]
        simp only [traverse, he, if_pos hlt]
        rw [hL, hR, treeCodes, fillCodes_append]
      · simp at h

theorem traverse_done (nodes : Vector (Option Node) 511) (pops : Nat) (cb : Vector (Option Code) 256) :
    traverse nodes pops [] cb = some cb := by
  cases pops <;> rfl

theorem getElem_fillCodes {l : List (ByteVal × List Bool)} : ∀ {cb : Vector (Option Code) 256},
    (l.map Prod.fst).Nodup → ∀ (b : Nat) (_ : b < 256),
    (fillCodes cb l)[b]?.getD none = ((l.lookup (BitVec.ofNat 8 b)).map codeOfString).or (cb[b]?.getD none) := by
  induction l with
  | nil => intro cb _ b _; simp [fillCodes]
  | cons p l ih =>
    intro cb hnd b hb
    obtain ⟨k, str⟩ := p
    simp only [List.map_cons, List.nodup_cons] at hnd
    have h1 := ih (cb := cb.setIfInBounds k.toNat (some (codeOfString str))) hnd.2 b hb
    rw [show fillCodes cb ((k, str) :: l) = fillCodes (cb.setIfInBounds k.toNat (some (codeOfString str))) l from rfl, h1,
      Vector.getElem?_setIfInBounds, List.lookup_cons]
    by_cases he : k = BitVec.ofNat 8 b
    · have hk : k.toNat = b := by rw [he]; simp; omega
      have hnone : l.lookup (BitVec.ofNat 8 b) = none := by
        rw [List.lookup_eq_none_iff]
        intro q hq
        have : q.1 ≠ k := fun hc => hnd.1 (hc ▸ List.mem_map_of_mem hq)
        simpa [← he] using fun hc => this hc.symm
      rw [hnone, if_pos hk, he]
      simp [Nat.mod_lt]
    · have hk : k.toNat ≠ b := fun hc => he (BitVec.eq_of_toNat_eq (by simp [hc]; omega))
      rw [if_neg hk]
      have : (BitVec.ofNat 8 b == k) = false := by simpa using fun hc => he hc.symm
      rw [this]

/-- The leaves of a forest's member carry distinct byte values, and are no more than all leaves. -/
theorem StoreInv.member_tree {nodes : Vector (Option Node) 511} {wc : List NodeIdx} {n k : Nat}
    (h : StoreInv nodes wc n k) {r : NodeIdx} (hr : r ∈ wc) :
    ∃ t, treeAt nodes r.toNat = some t ∧ (t.leaves.map Prod.fst).Nodup ∧ t.leaves.length ≤ 256 := by
  obtain ⟨F, hF, -, hl⟩ := h.exists_forest
  have hmem : treeAt nodes r.toNat ∈ F.map some := by
    rw [← hF]; exact List.mem_map.mpr ⟨r, hr, rfl⟩
  obtain ⟨t, htF, hte⟩ := List.mem_map.mp hmem
  have hsub : t.leaves.Sublist (F.flatMap CodeTree.leaves) := by
    obtain ⟨F₁, F₂, rfl⟩ := List.append_of_mem htF
    rw [List.flatMap_append, List.flatMap_cons]
    exact (List.sublist_append_left _ _).trans (List.sublist_append_right _ _)
  refine ⟨t, hte.symm, ?_, ?_⟩
  · refine (hsub.map Prod.fst).nodup ((hl.map Prod.fst).nodup_iff.mpr ?_)
    rw [leafPairs, List.map_map]
    refine List.Nodup.map_on (fun a ha b hb hab => ?_) List.nodup_range
    have ha' := List.mem_range.mp ha
    have hb' := List.mem_range.mp hb
    simp only [Function.comp] at hab
    by_contra hne
    rcases Nat.lt_or_gt_of_ne hne with hlt | hlt
    · have := h.leaves_ascending b hb' a hlt
      rw [hab] at this
      exact absurd this (BitVec.lt_irrefl _)
    · have := h.leaves_ascending a ha' b hlt
      rw [hab] at this
      exact absurd this (BitVec.lt_irrefl _)
  · have h1 := hsub.length_le
    rw [hl.length_eq] at h1
    have := h.leafCount_le
    simp [leafPairs] at h1
    omega

/-- The body of `DERIVE`, complete (42_codebook.md R161 to R164, R167): on a forest whose root, if there is one, is a member,
it never fails, every byte value gets exactly the code of the abstract derivation, in the one stored form, and the rest of
the state is as it was. -/
theorem deriveBody_spec {s : State} (h : StoreInv s.nodes s.wc s.nodeNext s.leafCount)
    (hroot : s.rootValid = true → s.rootIdx ∈ s.wc) :
    ∃ cb : Vector (Option Code) 256, s.deriveBody = some { s with cb := cb, phase := .codes } ∧
      (∀ b < 256, cb[b]?.getD none = ((deriveCodes s.rootTree).lookup (BitVec.ofNat 8 b)).map codeOfString) ∧
      ∀ p ∈ deriveCodes s.rootTree, p.2.length ≤ 255 := by
  by_cases hv : s.rootValid = true
  · obtain ⟨t, ht, hnd, hlen⟩ := h.member_tree (hroot hv)
    have hrt : s.rootTree = some t := by simp [State.rootTree, hv, State.treeOf, ht]
    have hsz := t.size_eq
    have hht := t.height_lt
    have hc : Config.codeMax = 255 := rfl
    have htr := traverse_tree (str := []) (pops := 511 - t.size) (rest := []) (cb := Vector.replicate 256 none) ht
      (by simp only [List.length_nil]; omega)
    rw [show 511 - t.size + t.size = Config.maxPops by simp only [Config.maxPops]; omega, strBits_nil, traverse_done] at htr
    refine ⟨fillCodes (Vector.replicate 256 none) (treeCodes t []), ?_, fun b hb => ?_, fun p hp => ?_⟩
    · unfold State.deriveBody
      simp only [State.clearCodes_rootValid, hv, if_true]
      erw [htr]
      rfl
    · rw [hrt, getElem_fillCodes (by rw [treeCodes_keys]; exact hnd) b hb, deriveCodes]
      simp [hb]
    · rw [hrt] at hp
      have := treeCodes_length_le hp
      simp only [List.length_nil] at this
      omega
  · have hv' : s.rootValid = false := by simpa using hv
    have hrt : s.rootTree = none := by simp [State.rootTree, hv']
    refine ⟨Vector.replicate 256 none, ?_, fun b hb => ?_, fun p hp => ?_⟩
    · unfold State.deriveBody
      rw [if_neg (by simp [hv'])]
      rfl
    · rw [hrt]
      simp [deriveCodes, hb]
    · rw [hrt] at hp
      simp [deriveCodes] at hp

end Sys2Proof.Machine
end

