-- ==== Sys2Proof/Laws/Root.lean ====
section
/-! SUPPORT. What a good state with a finished construction says of its root,
    its leaves and the table (spec/41_tree_builder.md
R135, R141, R142). -/

namespace Sys2Proof.Machine

/-- A finished construction: the tree is the table's, and the collection is the root alone or empty. -/
theorem root_facts {s : State} (h : BlockInv s) (hp : s.phase = .tree ∨ s.phase = .codes) :
    s.rootTree = buildTree s.ft ∧ (s.rootValid = false → s.wc = [] ) ∧
    (s.rootValid = true → s.wc = [s.rootIdx] ∧ ∃ t, treeAt s.nodes s.rootIdx.toNat = some t) := by
  have hf : s.phase.finished = true := by rcases hp with h | h <;> rw [h] <;> rfl
  obtain ⟨hl, hrv, hri⟩ := h.finished hf
  have hb := h.built (by rcases hp with h | h <;> rw [h] <;> simp)
  rw [forest_root h.store hl] at hb
  refine ⟨?_, fun hv => ?_, fun hv => ?_⟩
  · unfold State.rootTree State.treeOf; rw [hrv, hri]; exact hb
  · rw [hv] at hrv; simp at hrv; exact List.length_eq_zero_iff.mp (by omega)
  · rw [hv] at hrv
    have : s.wc.length = 1 := by simpa using hrv.symm
    obtain ⟨r, hr⟩ := List.length_eq_one_iff.mp this
    rw [hr] at hri; simp at hri
    subst hri
    refine ⟨hr, ?_⟩
    obtain ⟨t, ht, -⟩ := h.store.member_tree (r := s.rootIdx) (by rw [hr]; simp)
    exact ⟨t, ht⟩

/-- The leaves of the node store are the used bytes of the table and their frequencies. -/
theorem leafPairs_table {s : State} (h : BlockInv s) (hp : s.phase ≠ .empty) :
    leafPairs s.nodes s.leafCount = (usedBytes s.ft).map fun b => (BitVec.ofNat 8 b, (s.freqOf b).toNat) := by
  have ht := h.table hp
  have := congrArg (List.map fun e => (entryRep e, (entryFreq e).toNat)) ht
  rw [List.map_map, List.map_map] at this
  unfold leafPairs
  refine (show _ = _ from this).trans ?_
  refine List.map_congr_left fun b _ => ?_
  simp [entryRep, entryFreq]
  have := (s.freqOf b).isLt
  omega

/-- The root's tree and its leaves. -/
theorem root_leaves {s : State} (h : BlockInv s) (hp : s.phase = .tree ∨ s.phase = .codes) (hv : s.rootValid = true) :
    ∃ t, treeAt s.nodes s.rootIdx.toNat = some t ∧ t.Summarises ∧
      t.leaves.Perm ((usedBytes s.ft).map fun b => (BitVec.ofNat 8 b, (s.freqOf b).toNat)) := by
  obtain ⟨hw, t, ht⟩ := (root_facts h hp).2.2 hv
  refine ⟨t, ht, ?_, ?_⟩
  · have hlt : s.rootIdx.toNat < s.nodeNext := h.store.member_lt (by rw [hw]; simp)
    obtain ⟨t', ht', hs⟩ := h.store.summary _ hlt
    simp only [Option.mem_def] at ht'
    rw [ht] at ht'
    cases ht'; exact hs
  · have := h.store.forest_leaves
    rw [hw, leafPairs_table h (by rcases hp with h | h <;> rw [h] <;> simp)] at this
    simpa [forestOf, ht, List.reduceOption] using this

theorem sum_filter (f : Nat → Nat) : ∀ (l : List Nat) (p : Nat → Bool), (∀ b, p b = false → f b = 0) →
    ((l.filter p).map f).sum = (l.map f).sum
  | [], _, _ => rfl
  | b :: l, p, h => by
    have ih := sum_filter f l p h
    rw [List.filter_cons]
    split
    · simp [ih]
    · next hb => simp only [Bool.not_eq_true] at hb; simp [ih, h b hb]

end Sys2Proof.Machine
end

