-- ==== Sys2Proof/Laws/Codes.lean ====
section
/-! SUPPORT. The codes of a tree as strings (spec/42_codebook.md R160, R166, R169),
    and the code book of a good state. -/

namespace Sys2Proof.Machine

/-! ### Strings of a tree -/

/-- The Kraft sum of the codes of a tree, to the base of any bound on their lengths. -/
theorem treeCodes_kraft (H : Nat) : ∀ (t : CodeTree) (str : List Bool), str.length + t.height ≤ H →
    ((treeCodes t str).map fun p => 2 ^ (H - p.2.length)).sum = 2 ^ (H - str.length)
  | .leaf b f, str, _ => by simp [treeCodes]
  | .node r f l r', str, h => by
    have h : str.length + (max l.height r'.height + 1) ≤ H := h
    have h1 := treeCodes_kraft H l (str ++ [false]) (by simp; omega)
    have h2 := treeCodes_kraft H r' (str ++ [true]) (by simp; omega)
    simp only [treeCodes, List.map_append, List.sum_append, h1, h2, List.length_append, List.length_singleton]
    rw [show H - str.length = (H - (str.length + 1)) + 1 by omega, pow_succ]; omega

theorem treeCodes_starts : ∀ (t : CodeTree) (str : List Bool) p, p ∈ treeCodes t str → str <+: p.2
  | .leaf b f, str, p, h => by simp [treeCodes] at h; subst h; simp
  | .node r f l r', str, p, h => by
    simp only [treeCodes, List.mem_append] at h
    rcases h with h | h
    · exact (List.prefix_append _ _).trans (treeCodes_starts l _ p h)
    · exact (List.prefix_append _ _).trans (treeCodes_starts r' _ p h)

/-- No code of a tree is a prefix of another leaf's. -/
theorem treeCodes_prefixFree : ∀ (t : CodeTree) (str : List Bool) p q, p ∈ treeCodes t str → q ∈ treeCodes t str →
    p.1 ≠ q.1 → ¬ p.2 <+: q.2
  | .leaf b f, str, p, q, hp, hq, hn => by simp [treeCodes] at hp hq; subst hp; subst hq; simp at hn
  | .node r f l r', str, p, q, hp, hq, hn => by
    simp only [treeCodes, List.mem_append] at hp hq
    have cross : ∀ (x y : Bool) (u v w : List Bool), x ≠ y → u ++ [x] <+: v → u ++ [y] <+: w → ¬ v <+: w := by
      intro x y u v w hxy ⟨a, ha⟩ ⟨b, hb⟩ ⟨c, hc⟩
      subst ha; rw [← hb] at hc
      simp at hc; exact hxy hc.1
    rcases hp with hp | hp <;> rcases hq with hq | hq
    · exact treeCodes_prefixFree l _ p q hp hq hn
    · exact cross _ _ _ _ _ (by simp) (treeCodes_starts _ _ _ hp) (treeCodes_starts _ _ _ hq)
    · exact cross _ _ _ _ _ (by simp) (treeCodes_starts _ _ _ hp) (treeCodes_starts _ _ _ hq)
    · exact treeCodes_prefixFree r' _ p q hp hq hn

/-! ### Lookups -/

theorem lookup_mem {l : List (ByteVal × List Bool)} {b : ByteVal} {x : List Bool} (h : l.lookup b = some x) : (b, x)
    ∈ l := by
  induction l with
  | nil => simp at h
  | cons p l ih =>
    rw [List.lookup_cons] at h
    split at h
    · next hb => simp at hb h; subst hb; subst h; simp
    · exact List.mem_cons_of_mem _ (ih h)

theorem lookup_isSome (l : List (ByteVal × List Bool)) (b : ByteVal)
    : (l.lookup b).isSome = true ↔ b ∈ l.map Prod.fst := by
  induction l with
  | nil => simp
  | cons p l ih =>
    rw [List.lookup_cons]
    split
    · next hb => simp at hb; simp [hb]
    · next hb => simp at hb; rw [ih]; simp [hb]

/-- The code of a byte value is its string in the root's tree. -/
theorem codes_root {s : State} (h : BlockInv s) (hp : s.phase = .codes) {b : Nat} (hb : b < 256)
    {c : Code} (hc : s.codeOf b = some c) :
    ∃ t, treeAt s.nodes s.rootIdx.toNat = some t ∧ s.rootValid = true ∧ (BitVec.ofNat 8 b, codeString c)
        ∈ treeCodes t [] := by
  have := h.codes hp b hb
  rw [hc] at this
  by_cases hv : s.rootValid = true
  · obtain ⟨-, t, ht⟩ := (root_facts h (Or.inr hp)).2.2 hv
    refine ⟨t, ht, hv, ?_⟩
    unfold State.rootTree State.treeOf at this
    rw [if_pos hv, ht] at this
    exact lookup_mem this.symm
  · unfold State.rootTree at this
    rw [if_neg hv] at this
    simp [deriveCodes] at this

end Sys2Proof.Machine
end

