-- ==== Sys2Proof/Laws/Memory.lean ====
section
/-! SUPPORT. The stored form of the stores (spec/42_codebook.md R167): reset has it and every operation on the stores keeps
it, from any state. -/

namespace Sys2Proof.Machine

/-- The stored form, said through the one reader of the code book. -/
theorem memory_wf_iff {s : State} : Memory.wf s ↔ ∀ b, ∀ c, s.codeOf b = some c → c.bits >>> c.len.toNat = 0 := by
  constructor
  · intro h b c hc
    by_cases hb : b < 256
    · refine h ⟨b, hb⟩ c ?_
      simpa [State.codeOf, hb] using hc
    · simp [State.codeOf, Vector.getElem?_eq_none (by omega : 256 ≤ b)] at hc
  · intro h b c hc
    refine h b.val c ?_
    simpa [State.codeOf] using hc

/-- The stored form is a property of the code book alone. -/
theorem memory_wf_of_cb {s t : State} (h : Memory.wf s) (hcb : t.cb = s.cb) : Memory.wf t := by
  intro b c hc
  rw [hcb] at hc
  exact h b c hc

theorem memory_wf_replicate {s : State} (hcb : s.cb = Vector.replicate 256 none) : Memory.wf s := by
  intro b c hc
  rw [hcb] at hc
  simp at hc

theorem reset_memory_wf : Memory.wf State.reset := memory_wf_replicate rfl

theorem resetBlock_memory_wf (s : State) : Memory.wf s.resetBlock := memory_wf_replicate rfl

theorem clearCodes_memory_wf (s : State) : Memory.wf s.clearCodes := memory_wf_replicate rfl

theorem setFreq_memory_wf {s : State} (h : Memory.wf s) (b : Nat) (v : Word) : Memory.wf (s.setFreq b v) :=
  memory_wf_of_cb h rfl

theorem clearFreqs_memory_wf {s : State} (h : Memory.wf s) : Memory.wf s.clearFreqs := memory_wf_of_cb h rfl

theorem setEntry_memory_wf {s : State} (h : Memory.wf s) (n : Nat) (x : Node) : Memory.wf (s.setEntry n x) :=
  memory_wf_of_cb h rfl

theorem clearNodes_memory_wf {s : State} (h : Memory.wf s) : Memory.wf s.clearNodes := memory_wf_of_cb h rfl

theorem makeLeaves_memory_wf (s : State) : Memory.wf s.makeLeaves :=
  memory_wf_replicate (by rw [(makeLeaves_spec s).2])

theorem merge_cb {s t : State} (h : s.merge = some t) : t.cb = s.cb := by
  unfold State.merge at h
  split at h
  · simp at h
  · split at h
    · injection h with h
      subst h
      split_ifs
      · rw [State.finish_cb, State.mergeSlots_cb]
      · rw [State.mergeSlots_cb]
    · simp at h

theorem merge_memory_wf {s t : State} (hs : Memory.wf s) (h : s.merge = some t) : Memory.wf t := memory_wf_of_cb hs (merge_cb h)

/-- The stored form of one code book. -/
abbrev CodesCanonical (cb : Vector (Option Code) 256) : Prop := ∀ b : Fin 256, ∀ c ∈ cb[b], c.bits >>> c.len.toNat = 0

theorem CodesCanonical.set {cb : Vector (Option Code) 256} (h : CodesCanonical cb) {bits : BitVec 256} {len : Nat}
    (hl : len ≤ 255) (hb : bits >>> len = 0) (n : Nat) :
    CodesCanonical (cb.setIfInBounds n (some ⟨BitVec.ofNat 8 len, bits⟩)) := by
  intro b c hc
  simp only [Fin.getElem_fin, Vector.getElem_setIfInBounds, Option.mem_def] at hc
  split at hc
  · obtain rfl := by simpa using hc
    have : (BitVec.ofNat 8 len).toNat = len := by simp; omega
    rw [this]; exact hb
  · exact h b c hc

/-- A symbol appended at the end keeps the bits above the string clear. -/
theorem ushiftRight_append {bits : BitVec 256} {len : Nat} (h : bits >>> len = 0) :
    bits >>> (len + 1) = 0 ∧ (bits ||| (1#256 <<< len)) >>> (len + 1) = 0 := by
  have hb : ∀ i, bits.getLsbD (len + i) = false := fun i => by
    have := congrArg (fun v => v.getLsbD i) h
    simpa using this
  refine ⟨BitVec.eq_of_getLsbD_eq fun i _ => ?_, BitVec.eq_of_getLsbD_eq fun i _ => ?_⟩
  · rw [BitVec.getLsbD_ushiftRight, show len + 1 + i = len + (i + 1) by omega, hb]; simp
  · rw [BitVec.getLsbD_ushiftRight, BitVec.getLsbD_or, show len + 1 + i = len + (i + 1) by omega, hb,
      BitVec.getLsbD_shiftLeft, show len + (i + 1) - len = i + 1 by omega]
    simp [BitVec.getLsbD_one]

/-- The traversal stores nothing but canonical codes, from any stack of canonical strings. -/
theorem traverse_canonical {nodes : Vector (Option Node) 511} : ∀ {pops : Nat} {stack : List Pending}
    {cb cb' : Vector (Option Code) 256}, CodesCanonical cb → (∀ e ∈ stack, e.2.2 ≤ 255 ∧ e.2.1 >>> e.2.2 = 0) →
    traverse nodes pops stack cb = some cb' → CodesCanonical cb'
  | 0, [], cb, cb', h, _, ht => by
    obtain rfl := by simpa [traverse] using ht
    exact h
  | 0, _ :: _, _, _, _, _, ht => by simp [traverse] at ht
  | _ + 1, [], cb, cb', h, _, ht => by
    obtain rfl := by simpa [traverse] using ht
    exact h
  | pops + 1, (n, bits, len) :: rest, cb, cb', h, hs, ht => by
    obtain ⟨hl, hb⟩ := hs _ List.mem_cons_self
    have hrest : ∀ e ∈ rest, e.2.2 ≤ 255 ∧ e.2.1 >>> e.2.2 = 0 := fun e he => hs e (List.mem_cons_of_mem _ he)
    simp only at hl hb
    simp only [traverse] at ht
    split at ht
    · split at ht
      · next hlt =>
        have hc : Config.codeMax = 255 := rfl
        obtain ⟨h1, h2⟩ := ushiftRight_append hb
        refine traverse_canonical h (fun e he => ?_) ht
        rcases List.mem_cons.mp he with rfl | he
        · exact ⟨by simp only; omega, h1⟩
        · rcases List.mem_cons.mp he with rfl | he
          · exact ⟨by simp only; omega, h2⟩
          · exact hrest e he
      · simp at ht
    · exact traverse_canonical (h.set hl hb _) hrest ht
    · exact traverse_canonical (h.set hl hb _) hrest ht

theorem deriveBody_memory_wf {s t : State} (h : s.deriveBody = some t) : Memory.wf t := by
  unfold State.deriveBody at h
  simp only at h
  split at h
  · split at h
    · simp at h
    · next cb hcb =>
      obtain rfl := by simpa using h
      exact traverse_canonical (clearCodes_memory_wf s) (by simp) hcb
  · obtain rfl := by simpa using h
    exact clearCodes_memory_wf s

end Sys2Proof.Machine
end

