-- ==== Sys2Proof/Laws/Step.lean ====
section
/-! SUPPORT. What issue, the port procedures, the two stages of each command and one step can do, said once. -/

namespace Sys2Proof.Machine

/-! ### The two stages of each command -/

theorem twoStage_busy {i : Instr} {f : State → Result} {s : State} (h : s.busy = true) : twoStage i f s = f s := by
  simp [twoStage, h]

theorem twoStage_idle {i : Instr} {f : State → Result} {s : State} (h : s.busy = false) :
    twoStage i f s = .next (s.issueLegal i) := by
  simp [twoStage, h]

/-- What a command does at its completion. -/
def completionOf : Instr → State → Result
  | .nop => nopCompletion
  | .clrf => clrfCompletion
  | .init => initCompletion
  | .step => stepCompletion
  | .build => buildCompletion
  | .derive => deriveCompletion
  | .run => runCompletion
  | .cmp a b => cmpCompletion a b
  | .srst => execSrst

/-- A command other than `SRST` is its completion while `BUSY = 1`. -/
theorem exec_busy {i : Instr} {s : State} (h : s.busy = true) : exec i s = completionOf i s := by
  cases i <;> first | exact twoStage_busy h | rfl

/-- A command other than `SRST` is its issue while `BUSY = 0`. -/
theorem exec_idle {i : Instr} (hi : i ≠ .srst) {s : State} (h : s.busy = false) : exec i s = .next (s.issueLegal i) := by
  cases i <;> first | exact twoStage_idle h | exact absurd rfl hi

theorem issueLegal_accepted {i : Instr} {s : State} (h : s.objection i = none) : s.issueLegal i = s.latch (encode i) := by
  simp [State.issueLegal, h]

theorem issueLegal_refused {i : Instr} {s : State} {e : ErrorKind} (h : s.objection i = some e) :
    s.issueLegal i = s.raiseErr e := by
  simp [State.issueLegal, h]

/-! ### Issue, completion and the port procedures -/

/-- Everything issue can do (43_system.md R182). -/
theorem issue_cases {w : Word} {s t : State} (h : issue w s = .next t) :
    (decode w = .ok .srst ∧ t = s.resetBlock) ∨
    (s.busy = true ∧ decode w ≠ .ok .srst ∧ t = s.raiseErr .busy) ∨
    (s.busy = false ∧ (∃ e, decode w = .error e) ∧ t = s.raiseErr .illegalCmd) ∨
    (s.busy = false ∧ ∃ i, i ≠ .srst ∧ decode w = .ok i ∧ t = s.issueLegal i) := by
  unfold issue at h
  split at h
  · next hd => exact .inl ⟨hd, by simpa [exec, execSrst] using h.symm⟩
  · next i hne hd =>
    split at h
    · next hb => exact .inr (.inl ⟨hb, by rw [hd]; simpa using hne, by simpa using h.symm⟩)
    · next hb =>
      have hb' : s.busy = false := by simpa using hb
      rw [exec_idle (by simpa using hne) hb'] at h
      exact .inr (.inr (.inr ⟨hb', i, by simpa using hne, hd, by simpa using h.symm⟩))
  · next e hd =>
    split at h
    · next hb => exact .inr (.inl ⟨hb, by rw [hd]; simp, by simpa using h.symm⟩)
    · next hb => exact .inr (.inr (.inl ⟨by simpa using hb, ⟨e, hd⟩, by simpa using h.symm⟩))

/-- Everything the sequencer's turn can do (43_system.md R183). -/
theorem complete_cases {s t : State} (h : complete s = .next t) :
    (s.busy = false ∧ t = s) ∨
    (s.busy = true ∧ ∃ i, i ≠ .srst ∧ decode s.curCmd = .ok i ∧ completionOf i s = .next t) := by
  unfold complete at h
  split at h
  · next hb =>
    split at h
    · simp at h
    · next i hne hd => exact .inr ⟨hb, i, by simpa using hne, hd, by rwa [exec_busy hb] at h⟩
    · simp at h
  · next hb => exact .inl ⟨by simpa using hb, by simpa using h.symm⟩

/-- Everything a host write can do (20_memory.md R82). -/
theorem memWrite_cases {addr : Addr} {v : Word} {s t : State} (h : memWrite addr v s = .next t) :
    (region addr = .reg .cmd ∧ issue v s = .next t) ∨
    (region addr = .reg .ien ∧ t = { s with ien := v.extractLsb' 0 2 }) ∨
    (region addr = .reg .ipend ∧ t = s.ackEvents v) ∨
    (∃ b, region addr = .ft b ∧ t = s.hostFreqWrite b v) ∨
    (region addr = .unmapped ∧ t = s.raiseErr .badAddr) ∨
    t = s.raiseErr .roWrite := by
  unfold memWrite at h
  split at h
  · next hr => exact .inl ⟨hr, h⟩
  · next hr => exact .inr (.inl ⟨hr, by simpa using h.symm⟩)
  · next hr => exact .inr (.inr (.inl ⟨hr, by simpa using h.symm⟩))
  · next b hr => exact .inr (.inr (.inr (.inl ⟨b, hr, by simpa using h.symm⟩)))
  · next hr => exact .inr (.inr (.inr (.inr (.inl ⟨hr, by simpa using h.symm⟩))))
  all_goals exact .inr (.inr (.inr (.inr (.inr (by simpa using h.symm)))))

/-- Everything a host read can do (20_memory.md R81). -/
theorem memRead_cases (addr : Addr) (s : State) :
    (region addr = .unmapped ∧ memRead addr s = (s.raiseErr .badAddr).reply 0) ∨
    (region addr ≠ .unmapped ∧ s.busy = true ∧ ∃ f, memRead addr s = s.replyDrawn f) ∨
    (region addr ≠ .unmapped ∧ memRead addr s = s.reply (s.peek (region addr))) := by
  unfold memRead
  split
  · next hr => exact .inl ⟨hr, rfl⟩
  · next hr =>
    split
    · next hb => exact .inr (.inl ⟨hr, by simp at hb; exact hb.1, _, rfl⟩)
    · split
      · next hb => exact .inr (.inl ⟨hr, by simp at hb; exact hb.1, _, rfl⟩)
      · exact .inr (.inr ⟨hr, rfl⟩)

/-- Everything a step can do (20_memory.md R74). -/
theorem step_cases {s t : State} (h : step s = .next t) :
    (s.events = [] ∧ complete s = .next t) ∨
    ∃ rest, (s.events = .completion :: rest ∧ complete { s with events := rest } = .next t) ∨
      (∃ addr, s.events = .read addr :: rest ∧ t = memRead addr { s with events := rest }) ∨
      (∃ addr v, s.events = .write addr v :: rest ∧ memWrite addr v { s with events := rest } = .next t) ∨
      (s.events = .hardReset :: rest ∧ t = ({ s with events := rest } : State).resetBlock) := by
  unfold step at h
  split at h
  · next he => exact .inl ⟨he, h⟩
  · next e rest he =>
    refine .inr ⟨rest, ?_⟩
    rw [he]
    cases e with
    | read addr => exact .inr (.inl ⟨addr, rfl, by simpa [perform] using h.symm⟩)
    | write addr v => exact .inr (.inr (.inl ⟨addr, v, rfl, h⟩))
    | completion => exact .inl ⟨rfl, h⟩
    | hardReset => exact .inr (.inr (.inr ⟨rfl, by simpa [perform] using h.symm⟩))

end Sys2Proof.Machine
end

