-- ==== Sys2Proof/Laws/Invariant.lean ====
section
/-! SUPPORT. Each operation of the machine keeps the invariant of Safety.lean (spec/10_state.md R48), and each completion of
an accepted command answers a next state (spec/60_exceptions.md R208). -/

namespace Sys2Proof.Machine

variable {s : State}

/-! ### Reset -/

theorem empty_storeInv : StoreInv (Vector.replicate 511 none) [] 0 0 where
  nodeNext_le := by omega
  leafCount_le := by omega
  leafCount_le_nodeNext := by omega
  valid_iff n _ := by simp [entryValid]
  leaf_kind n hn := absurd hn (by omega)
  internal_kind n hn := absurd hn (by omega)
  leaves_ascending j hj := absurd hj (by omega)
  once := by simp [childrenBelow]
  wc_length := rfl
  summary n hn := absurd hn (by omega)
  wc_reps := by simp
  leaf_freq n hn := absurd hn (by omega)
  forest_leaves := by simp [forestOf, leafPairs, List.reduceOption]

theorem inv_resetBlock (s : State) : BlockInv s.resetBlock where
  store := empty_storeInv
  building h := by simp at h
  finished h := by simp [Phase.finished] at h
  no_codes h := by simp at h
  codes h := by simp at h
  err := by simp [State.errBit]
  table h := by simp at h
  built h := by simp at h
  stored := resetBlock_memory_wf s
  latched h := by simp at h

/-! ### Events, errors, the host's accesses -/

theorem BlockInv.withEvents (h : BlockInv s) (es : List Event) : BlockInv { s with events := es } :=
  ⟨h.store, h.building, h.finished, h.no_codes, h.codes, h.err, h.table, h.built, h.stored, h.latched⟩

theorem BlockInv.reply (h : BlockInv s) (w : Word) : BlockInv (s.reply w) :=
  ⟨h.store, h.building, h.finished, h.no_codes, h.codes, h.err, h.table, h.built, h.stored, h.latched⟩

theorem BlockInv.replyDrawn (h : BlockInv s) (f : Word → Word) : BlockInv (s.replyDrawn f) :=
  ⟨h.store, h.building, h.finished, h.no_codes, h.codes, h.err, h.table, h.built, h.stored, h.latched⟩

theorem BlockInv.setIen (h : BlockInv s) (v : BitVec 2) : BlockInv { s with ien := v } :=
  ⟨h.store, h.building, h.finished, h.no_codes, h.codes, h.err, h.table, h.built, h.stored, h.latched⟩

theorem errorCode_ne_zero (e : ErrorKind) : e.code ≠ 0 := by cases e <;> decide

theorem errBit_raised (v : BitVec 2) : (v ||| 2).getLsbD 1 = true := by
  revert v; decide

theorem BlockInv.raiseErr (h : BlockInv s) (e : ErrorKind) : BlockInv (s.raiseErr e) where
  store := h.store
  building := h.building
  finished := h.finished
  no_codes := h.no_codes
  codes := h.codes
  err := by
    have h1 : (s.raiseErr e).errBit = true := errBit_raised s.ipend
    rw [h1, State.raiseErr_errCode]
    split
    · next hb => simpa [hb] using h.err
    · simpa using errorCode_ne_zero e
  table := h.table
  built := h.built
  stored := h.stored
  latched := h.latched

theorem BlockInv.ackEvents (h : BlockInv s) (v : Word) : BlockInv (s.ackEvents v) where
  store := h.store
  building := h.building
  finished := h.finished
  no_codes := h.no_codes
  codes := h.codes
  err := by
    have hb : (s.ackEvents v).errBit = (s.ipend &&& ~~~(v.extractLsb' 0 2)).getLsbD 1 := rfl
    rw [hb, State.ackEvents_errCode]
    have hmono : ∀ p q : BitVec 2, (p &&& q).getLsbD 1 = true → p.getLsbD 1 = true := by decide
    split
    · next hc =>
      have hs : s.errBit = true := hmono _ _ hc
      rw [h.err, hs, hc]
    · next hc => simpa using hc
  table := h.table
  built := h.built
  stored := h.stored
  latched := h.latched

theorem BlockInv.latch (h : BlockInv s) {i : Instr} {w : Word} (hd : decode w = .ok i) (hi : i ≠ .srst)
    (ho : s.objection i = none) : BlockInv (s.latch w) :=
  ⟨h.store, h.building, h.finished, h.no_codes, h.codes, h.err, h.table, h.built, h.stored, fun _ => ⟨i, hd, hi, ho⟩⟩

/-- A construction that is not current constrains nothing but the store (10_state.md R50). -/
theorem inv_of_empty {t : State} (hst : StoreInv t.nodes t.wc t.nodeNext t.leafCount) (hp : t.phase = .empty)
    (herr : t.errCode = 0 ↔ t.errBit = false) (hm : Memory.wf t) (hb : t.busy = false) : BlockInv t where
  store := hst
  building h := by simp [hp] at h
  finished h := by simp [hp, Phase.finished] at h
  no_codes h := by simp [hp] at h
  codes h := by simp [hp] at h
  err := herr
  table h := absurd hp h
  built h := absurd hp h
  stored := hm
  latched h := by simp [hb] at h

theorem BlockInv.hostFreqWrite (h : BlockInv s) (b : Nat) (v : Word) : BlockInv (s.hostFreqWrite b v) := by
  unfold State.hostFreqWrite
  split
  · exact h.raiseErr _
  · next hb => exact inv_of_empty h.store rfl h.err h.stored (by simpa using hb)

/-! ### Completions -/

theorem errBit_completed (s : State) : s.completed.errBit = s.errBit := by
  have : ∀ v : BitVec 2, (v ||| 1).getLsbD 1 = v.getLsbD 1 := by decide
  exact this s.ipend

/-- The last line of a completion keeps everything but what a busy block's invariant says. -/
theorem inv_completed {t : State} (hst : StoreInv t.nodes t.wc t.nodeNext t.leafCount)
    (hbu : t.phase = .building → 2 ≤ t.wc.length ∧ t.rootValid = false ∧ t.rootIdx = 0)
    (hfi : t.phase.finished = true →
      t.wc.length ≤ 1 ∧ t.rootValid = decide (t.wc.length = 1) ∧ t.rootIdx = t.wc.headD 0)
    (hnc : t.phase = .building ∨ t.phase = .tree → ∀ b < 256, t.codeOf b = none)
    (hco : t.phase = .codes →
      ∀ b < 256, (t.codeOf b).map codeString = (deriveCodes t.rootTree).lookup (BitVec.ofNat 8 b))
    (herr : t.errCode = 0 ↔ t.errBit = false)
    (hta : t.phase ≠ .empty → (List.range t.leafCount).map t.entry =
      (usedBytes t.ft).map fun b => some (.leaf (BitVec.ofNat 8 b) ((t.freqOf b).setWidth 40)))
    (hbt : t.phase ≠ .empty → mergeToOne (forestOf t.nodes t.wc).reduceOption = buildTree t.ft)
    (hme : Memory.wf t) : BlockInv t.completed where
  store := hst
  building := hbu
  finished := hfi
  no_codes := hnc
  codes := hco
  err := by rw [errBit_completed]; exact herr
  table := hta
  built := hbt
  stored := hme
  latched h := by simp at h

theorem BlockInv.completed (h : BlockInv s) : BlockInv s.completed :=
  inv_completed h.store h.building h.finished h.no_codes h.codes h.err h.table h.built h.stored

theorem BlockInv.cmpCompletion (h : BlockInv s) (a b : Nat) : ∃ t, Machine.cmpCompletion a b s = .next t ∧ BlockInv t ∧ t.busy = false :=
  ⟨_, rfl, inv_completed h.store h.building h.finished h.no_codes h.codes h.err h.table h.built h.stored, rfl⟩

theorem BlockInv.clrfCompletion (h : BlockInv s) : ∃ t, Machine.clrfCompletion s = .next t ∧ BlockInv t ∧ t.busy = false := by
  refine ⟨_, rfl, inv_of_empty h.store rfl ?_ h.stored rfl, rfl⟩
  rw [errBit_completed]
  exact h.err

theorem codeOf_replicate {t : State} (h : t.cb = Vector.replicate 256 none) (b : Nat) : t.codeOf b = none := by
  have := State.codeOf_clearCodes t b
  simpa [State.codeOf, State.clearCodes, h] using this

theorem BlockInv.initCompletion (h : BlockInv s) : ∃ t, Machine.initCompletion s = .next t ∧ BlockInv t ∧ t.busy = false := by
  obtain ⟨hf, heq⟩ := makeLeaves_spec s
  have hinv := makeLeaves_storeInv s
  have htab := filled_table hf
  have hforest := filled_forest hf
  have hred : ∀ G : List CodeTree, (G.map some).reduceOption = G := fun G => by simp [List.reduceOption]
  have hcb : s.makeLeaves.cb = Vector.replicate 256 none := by rw [heq]
  have hft : s.makeLeaves.ft = s.ft := by rw [heq]
  have hlc : s.makeLeaves.leafCount = (usedBytes s.ft).length := by rw [heq]
  have herr : s.makeLeaves.errCode = 0 ↔ s.makeLeaves.errBit = false := by
    have h1 : s.makeLeaves.errCode = s.errCode := by rw [heq]
    have h2 : s.makeLeaves.ipend = s.ipend := by rw [heq]
    rw [h1, State.errBit, h2]
    exact h.err
  have hrv : s.makeLeaves.rootValid = false := by rw [heq]
  have hri : s.makeLeaves.rootIdx = 0 := by rw [heq]
  have hbt : mergeToOne (forestOf s.makeLeaves.nodes s.makeLeaves.wc).reduceOption = buildTree s.makeLeaves.ft := by
    rw [hft, hforest, hred]; rfl
  have htab' : (List.range s.makeLeaves.leafCount).map (entryAt s.makeLeaves.nodes) =
      (usedBytes s.makeLeaves.ft).map fun b =>
        some (.leaf (BitVec.ofNat 8 b) ((s.makeLeaves.ft[b]?.getD 0).setWidth 40)) := by rw [hlc, hft]; exact htab
  unfold Machine.initCompletion
  generalize s.makeLeaves = u at hinv hcb herr hrv hri hbt htab'
  refine ⟨_, rfl, ?_, rfl⟩
  split
  · next h2 =>
    refine inv_completed hinv (fun _ => ⟨h2, hrv, hri⟩) (fun hp => by simp [Phase.finished] at hp)
      (fun _ b _ => codeOf_replicate hcb b) (fun hp => by simp at hp) herr (fun _ => htab') (fun _ => hbt)
      (memory_wf_replicate hcb)
  · next h2 =>
    have hw : u.wc.length ≤ 1 := by omega
    rw [finish_eq u hw]
    refine inv_completed hinv (fun hp => by simp at hp) (fun _ => ⟨hw, rfl, rfl⟩)
      (fun _ b _ => codeOf_replicate hcb b) (fun hp => by simp at hp) herr (fun _ => htab') (fun _ => hbt)
      (memory_wf_replicate hcb)

/-- A merge of a current construction keeps the invariant; what it returns is unfinished or finished as R129 says. -/
theorem BlockInv.stepCompletion (h : BlockInv s) (hp : s.phase = .building) :
    ∃ t, Machine.stepCompletion s = .next t ∧ BlockInv t ∧ t.busy = false := by
  obtain ⟨h2, hrv, hri⟩ := h.building hp
  obtain ⟨nodes, wc, hinv, hl, hold, htrees, hm⟩ := merge_spec h.store h2
  have hne : s.phase ≠ .empty := by simp [hp]
  have hnc := h.no_codes (.inl hp)
  have htab : (List.range s.leafCount).map (entryAt nodes) =
      (usedBytes s.ft).map fun b => some (.leaf (BitVec.ofNat 8 b) ((s.freqOf b).setWidth 40)) := by
    rw [← h.table hne]
    refine List.map_congr_left fun m hm => hold m ?_
    have := h.store.leafCount_le_nodeNext
    have := List.mem_range.mp hm
    omega
  have hbt : mergeToOne (forestOf nodes wc).reduceOption = buildTree s.ft := by
    rw [← mergeToOne_step htrees]; exact h.built hne
  refine ⟨_, by simp only [Machine.stepCompletion, hm]; rfl, ?_, rfl⟩
  split
  · next h1 =>
    rw [finish_eq _ (by simp only; omega)]
    exact inv_completed hinv (fun hp => by simp at hp) (fun _ => ⟨by simp only; omega, rfl, rfl⟩) (fun _ => hnc)
      (fun hp => by simp at hp) h.err (fun _ => htab) (fun _ => hbt) (memory_wf_of_cb h.stored rfl)
  · next h1 =>
    refine inv_completed hinv (fun _ => ⟨?_, hrv, hri⟩) (fun hf => ?_) (fun _ => hnc) (fun hc => ?_) h.err
      (fun _ => htab) (fun _ => hbt) (memory_wf_of_cb h.stored rfl)
    · simp only; omega
    · simp [hp, Phase.finished] at hf
    · simp [hp] at hc

/-- The body of `BUILD` leaves a finished construction, from any state whose error record is consistent. -/
theorem inv_buildBody (herr : s.errCode = 0 ↔ s.errBit = false) :
    ∃ u, s.buildBody = some u ∧ u.phase = .tree ∧ BlockInv u.completed ∧ (u.rootValid = true → u.rootIdx ∈ u.wc) := by
  obtain ⟨nodes, wc, n, hinv, hl, htab, hbt, hb⟩ := buildBody_spec s
  generalize (usedBytes s.ft).length = l at hinv htab hb
  refine ⟨_, hb, rfl, ?_, fun hv => ?_⟩
  · exact inv_completed hinv (fun hp => by simp at hp) (fun _ => ⟨hl, rfl, rfl⟩)
      (fun _ b _ => codeOf_replicate rfl b) (fun hp => by simp at hp) herr (fun _ => htab) (fun _ => hbt)
      (memory_wf_replicate rfl)
  · obtain ⟨r, hr⟩ := List.length_eq_one_iff.mp (of_decide_eq_true hv)
    show wc.headD 0 ∈ wc
    rw [hr]
    exact List.mem_cons_self

theorem BlockInv.buildCompletion (h : BlockInv s) : ∃ t, Machine.buildCompletion s = .next t ∧ BlockInv t ∧ t.busy = false := by
  obtain ⟨u, hu, -, hinv, -⟩ := inv_buildBody h.err
  refine ⟨u.completed, ?_, hinv, rfl⟩
  unfold Machine.buildCompletion
  rw [hu]

/-- Deriving the code book of a finished construction keeps the invariant. -/
theorem inv_deriveCompletion {u : State} (hinv : BlockInv u.completed) (hp : u.phase.finished = true)
    (hroot : u.rootValid = true → u.rootIdx ∈ u.wc) :
    ∃ t, Machine.deriveCompletion u = .next t ∧ BlockInv t ∧ t.busy = false := by
  obtain ⟨cb, hd, hcb, hlen⟩ := deriveBody_spec (s := u) hinv.store hroot
  have hne : u.phase ≠ .empty := fun he => by simp [he, Phase.finished] at hp
  refine ⟨_, by simp only [Machine.deriveCompletion, hd]; rfl, ?_, rfl⟩
  refine inv_completed hinv.store (fun hp => by simp at hp) (fun _ => hinv.finished hp) (fun hp => by simp at hp)
    (fun _ b hb => ?_) ?_ (fun _ => hinv.table hne) (fun _ => hinv.built hne) (deriveBody_memory_wf hd)
  · have hc := hcb b hb
    show (cb[b]?.getD none).map codeString = _
    rw [hc]
    change _ = (deriveCodes u.rootTree).lookup (BitVec.ofNat 8 b)
    cases hl : (deriveCodes u.rootTree).lookup (BitVec.ofNat 8 b) with
    | none => rfl
    | some str =>
      have : (BitVec.ofNat 8 b, str) ∈ deriveCodes u.rootTree := by
        obtain ⟨l1, l2, he, -⟩ := List.lookup_eq_some_iff.mp hl
        rw [he]; simp
      simp only [Option.map_some]
      rw [codeString_codeOfString (hlen _ this)]
  · have := hinv.err
    rwa [errBit_completed] at this

theorem BlockInv.root_mem (h : BlockInv s) (hp : s.phase.finished = true) (hv : s.rootValid = true) : s.rootIdx ∈ s.wc := by
  obtain ⟨hl, hrv, hri⟩ := h.finished hp
  rw [hv] at hrv
  rw [hri]
  match hwc : s.wc, hl with
  | [], _ => simp [hwc] at hrv
  | [r], _ => exact List.mem_cons_self

theorem BlockInv.deriveCompletion (h : BlockInv s) (hp : s.phase.finished = true) :
    ∃ t, Machine.deriveCompletion s = .next t ∧ BlockInv t ∧ t.busy = false :=
  inv_deriveCompletion h.completed hp (h.root_mem hp)

theorem BlockInv.runCompletion (h : BlockInv s) : ∃ t, Machine.runCompletion s = .next t ∧ BlockInv t ∧ t.busy = false := by
  obtain ⟨u, hu, hp, hinv, hroot⟩ := inv_buildBody h.err
  unfold Machine.runCompletion
  rw [hu]
  exact inv_deriveCompletion hinv (by rw [hp]; rfl) hroot

end Sys2Proof.Machine
end

