-- ==== Sys2Proof/Laws/Frames.lean ====
section
/-! SUPPORT. What the bodies of the commands and their completions leave alone, issue by cases, and runs step by step. -/

namespace Sys2Proof.Machine

/-- A merge writes the store, the collection, the counter and, if it is the last, what `finish` writes. -/
theorem merge_fields {s t : State} (h : s.merge = some t) : t.ft = s.ft ∧ t.cb = s.cb ∧ t.leafCount = s.leafCount ∧
    t.cmpRes = s.cmpRes ∧ t.ien = s.ien ∧ t.ipend = s.ipend ∧ t.errCode = s.errCode ∧ t.curCmd = s.curCmd ∧
    t.events = s.events ∧ t.replies = s.replies ∧ t.draws = s.draws ∧ t.busy = s.busy := by
  unfold State.merge at h
  split at h
  · simp at h
  · split at h
    · simp only [Option.some.injEq] at h
      subst h
      split <;> simp
    · simp at h

/-- The body of `BUILD` leaves these alone. -/
theorem build_fields {s t : State} (h : s.buildBody = some t) : t.ft = s.ft ∧ t.cmpRes = s.cmpRes ∧ t.ien = s.ien ∧
    t.ipend = s.ipend ∧ t.errCode = s.errCode ∧ t.curCmd = s.curCmd ∧ t.events = s.events ∧ t.replies = s.replies ∧
    t.draws = s.draws := by
  obtain ⟨nodes, wc, n, -, -, -, -, hb⟩ := buildBody_spec s
  generalize (usedBytes s.ft).length = l at hb
  rw [hb] at h
  obtain rfl := by simpa using h
  simp

/-- The body of `DERIVE` writes the code book and the phase. -/
theorem derive_fields {s t : State} (h : s.deriveBody = some t) : ∃ cb, t = { s with cb := cb, phase := .codes } := by
  unfold State.deriveBody at h
  simp only at h
  split at h
  · split at h
    · simp at h
    · next cb _ => exact ⟨cb, (by simpa using h.symm : t = ({ s with cb := cb } : State).setPhase .codes)⟩
  · exact ⟨s.clearCodes.cb, (by simpa using h.symm : t = s.clearCodes.setPhase .codes)⟩

/-- The last line of every completion (43_system.md R183), and what a completion never writes. -/
theorem completion_fields {i : Instr} (hi : i ≠ .srst) {s t : State} (h : completionOf i s = .next t) :
    t.busy = false ∧ t.ipend = s.ipend ||| 1 ∧ t.curCmd = s.curCmd ∧ t.ien = s.ien ∧ t.errCode = s.errCode ∧
      t.events = s.events ∧ t.replies = s.replies ∧ t.draws = s.draws := by
  cases i with
  | nop => obtain rfl := by simpa [completionOf, nopCompletion] using h
           exact ⟨rfl, rfl, rfl, rfl, rfl, rfl, rfl, rfl⟩
  | clrf => obtain rfl := by simpa [completionOf, clrfCompletion] using h
            exact ⟨rfl, rfl, rfl, rfl, rfl, rfl, rfl, rfl⟩
  | init =>
    obtain ⟨-, heq⟩ := makeLeaves_spec s
    generalize (usedBytes s.ft).length = l at heq
    simp only [completionOf, initCompletion] at h
    generalize s.makeLeaves = u at h heq
    obtain rfl := by simpa using h
    rw [heq]
    split <;> simp [State.completed]
  | step =>
    simp only [completionOf, stepCompletion] at h
    split at h
    · simp at h
    · next u hu =>
      obtain rfl := by simpa using h
      have := merge_fields hu
      simp [State.completed, this]
  | build =>
    have h : buildCompletion s = .next t := h
    unfold buildCompletion at h
    obtain ⟨u, hu⟩ : ∃ u, s.buildBody = u := ⟨_, rfl⟩
    rw [hu] at h
    cases u with
    | none => simp at h
    | some u =>
      simp only [Host.Outcome.next.injEq] at h
      subst h
      have := build_fields hu
      clear hu
      simp [State.completed, this]
  | derive =>
    simp only [completionOf, deriveCompletion] at h
    split at h
    · simp at h
    · next u hu =>
      obtain rfl := by simpa using h
      obtain ⟨cb, rfl⟩ := derive_fields hu
      clear hu
      exact ⟨rfl, rfl, rfl, rfl, rfl, rfl, rfl, rfl⟩
  | run =>
    have h : runCompletion s = .next t := h
    unfold runCompletion at h
    obtain ⟨u, hu⟩ : ∃ u, s.buildBody = u := ⟨_, rfl⟩
    rw [hu] at h
    cases u with
    | none => simp at h
    | some u =>
      have := build_fields hu
      clear hu
      simp only [deriveCompletion] at h
      split at h
      · simp at h
      · next v hv =>
        simp only [Host.Outcome.next.injEq] at h
        subst h
        obtain ⟨cb, rfl⟩ := derive_fields hv
        clear hv
        simp [State.completed, this]
  | cmp a b =>
    obtain rfl := by simpa [completionOf, cmpCompletion] using h
    exact ⟨rfl, rfl, rfl, rfl, rfl, rfl, rfl, rfl⟩
  | srst => exact absurd rfl hi

/-- The sequencer's step while a command runs. -/
theorem complete_busy {s : State} {i : Instr} (hb : s.busy = true) (hd : decode s.curCmd = .ok i) (hi : i ≠ .srst)
    : complete s = exec i s := by
  unfold complete
  rw [if_pos hb, hd]
  cases i <;> first | rfl | exact absurd rfl hi

/-- An event leaves the events after it alone. -/
theorem perform_events {s t : State} {e : Event} (hp : perform e s = .next t) : t.events = s.events := by
  cases e with
  | completion =>
    rcases complete_cases (show complete s = .next t from hp) with ⟨-, rfl⟩ | ⟨-, i, hi, -, hc⟩
    · rfl
    · exact (completion_fields hi hc).2.2.2.2.2.1
  | hardReset => simp only [perform, Host.Outcome.next.injEq] at hp; subst hp; rfl
  | read addr =>
    simp only [perform, Host.Outcome.next.injEq] at hp
    subst hp
    rcases memRead_cases addr s with h' | ⟨-, -, f, h'⟩ | ⟨-, h'⟩
    · rw [h'.2]; rfl
    · rw [h']; rfl
    · rw [h']; rfl
  | write addr v =>
    rcases memWrite_cases (show memWrite addr v s = .next t from hp) with ⟨-, hi⟩ | ⟨-, rfl⟩ | ⟨-, rfl⟩ | ⟨b, -,
        rfl⟩ | ⟨-, rfl⟩ | rfl
    · rcases issue_cases hi with ⟨-, rfl⟩ | ⟨-, -, rfl⟩ | ⟨-, -, rfl⟩ | ⟨-, i, hi, hd, rfl⟩
      · rfl
      · rfl
      · rfl
      · unfold State.issueLegal; split <;> rfl
    · rfl
    · rfl
    · unfold State.hostFreqWrite; split <;> rfl
    · rfl
    · rfl

/-! ### Issue -/

theorem issue_of_busy {w : Word} {s : State} (h : w ≠ 0x00000008) (hb : s.busy = true) :
    issue w s = .next (s.raiseErr .busy) := by
  unfold issue
  split
  · next hd => exact absurd ((decode_eq_srst_iff w).mp hd) h
  · simp [hb]
  · simp [hb]

theorem issue_of_idle {w : Word} {s : State} {i : Instr} (hd : decode w = .ok i) (h : i ≠ .srst) (hb : s.busy = false) :
    issue w s = .next (s.issueLegal i) := by
  unfold issue
  rw [hd]
  cases i <;> first | exact absurd rfl h | (simp only [hb]; exact exec_idle h hb)

/-- An index past the store names no entry. -/
theorem entry_of_le {s : State} {n : Nat} (h : 511 ≤ n) : s.entry n = none := by
  simp [State.entry, entryAt, show ¬ n < 511 by omega]

/-! ### Runs -/

theorem run_zero (t : State) : Host.Core.run Sys2Proof.core 0 t = .next t := by simp only [Host.Core.run]

theorem core_run_succ (M : Host.Core) (s t : M.State) (k : Nat) (h : M.step s = .next t) : M.run (k + 1)
    s = M.run k t := by
  simp only [Host.Core.run, h]

theorem run_succ (s t : State) (k : Nat) (h : step s = .next t) : Host.Core.run Sys2Proof.core (k + 1)
    s = Host.Core.run Sys2Proof.core k t :=
  core_run_succ Sys2Proof.core s t k h

end Sys2Proof.Machine
end

