-- ==== Sys2Proof/Laws/Independence.lean ====
section
/-! SUPPORT. The constructions neither read nor write the event, command and model fields, and depend on the table alone
(spec/41_tree_builder.md R139, spec/20_memory.md R76). -/

namespace Sys2Proof.Machine

/-- The values of the fields no command works on. -/
structure Outside where
  ien : BitVec 2
  ipend : BitVec 2
  errCode : BitVec 4
  curCmd : Word
  replies : List Word
  draws : Nat
  busy : Bool
  events : List Event

/-- A state with those fields set. -/
def State.outside (s : State) (r : Outside) : State :=
  { s with
    ien := r.ien
    ipend := r.ipend
    errCode := r.errCode
    curCmd := r.curCmd
    replies := r.replies
    draws := r.draws
    busy := r.busy
    events := r.events }

theorem outside_addLeaf (s r b f) : (State.outside s r).addLeaf b f = State.outside (s.addLeaf b f) r := by
  unfold State.addLeaf
  split <;> rfl

theorem outside_addLeaves (l : List Word) : ∀ b s r, State.addLeaves l b (State.outside s r)
    = State.outside (State.addLeaves l b s) r := by
  induction l with
  | nil => intro b s r; rfl
  | cons f l ih => intro b s r; rw [State.addLeaves, State.addLeaves, outside_addLeaf, ih]

theorem outside_makeLeaves (s r) : (State.outside s r).makeLeaves = State.outside s.makeLeaves r := by
  have := outside_addLeaves s.ft.toList 0 { s.clearNodes.clearCodes with wc := [], nodeNext := 0 } r
  unfold State.makeLeaves
  rw [show (State.outside s r).ft = s.ft from rfl]
  generalize s.ft.toList = l at *
  rw [show ({ (State.outside s r).clearNodes.clearCodes with wc := [], nodeNext := 0 } : State)
      = State.outside { s.clearNodes.clearCodes with wc := [], nodeNext := 0 } r from rfl, this]
  rfl

theorem outside_finish (s r) : (State.outside s r).finish = State.outside s.finish r := by
  unfold State.finish
  rw [show (State.outside s r).wc = s.wc from rfl]
  split <;> rfl

theorem outside_merge (s r) : (State.outside s r).merge = s.merge.map fun t => State.outside t r := by
  unfold State.merge
  rw [show (State.outside s r).members = s.members from rfl]
  split
  · rfl
  · next i1 i2 _ =>
    rw [show (State.outside s r).nodeNext = s.nodeNext from rfl]
    split
    · simp only [Option.map_some, Option.some.injEq]
      rw [show (State.outside s r).mergeSlots i1 i2 = State.outside (s.mergeSlots i1 i2) r from rfl]
      rw [show (State.outside (s.mergeSlots i1 i2) r).wc = (s.mergeSlots i1 i2).wc from rfl]
      split
      · exact outside_finish _ _
      · rfl
    · rfl

theorem outside_mergeAll (k) : ∀ s r, State.mergeAll k (State.outside s r)
    = (State.mergeAll k s).map fun t => State.outside t r := by
  induction k with
  | zero => intro s r; rfl
  | succ k ih =>
    intro s r
    simp only [State.mergeAll]
    rw [show (State.outside s r).wc = s.wc from rfl]
    split
    · rfl
    · rw [outside_merge]
      cases s.merge with
      | none => rfl
      | some t => simp [ih]

theorem outside_buildBody (s r) : (State.outside s r).buildBody = s.buildBody.map fun t => State.outside t r := by
  unfold State.buildBody
  simp only [outside_makeLeaves]
  generalize s.makeLeaves = u
  rw [show (State.outside u r).wc = u.wc from rfl, outside_mergeAll]
  cases State.mergeAll u.wc.length u with
  | none => rfl
  | some t =>
    simp only [Option.map_some, Option.some.injEq]
    rw [show (State.outside t r).leafCount = t.leafCount from rfl]
    split
    · exact outside_finish _ _
    · rfl

theorem outside_deriveBody (s r) : (State.outside s r).deriveBody = s.deriveBody.map fun t => State.outside t r := by
  unfold State.deriveBody
  simp only
  rw [show (State.outside s r).clearCodes.rootValid = s.clearCodes.rootValid from rfl]
  split
  · rw [show (State.outside s r).clearCodes.nodes = s.clearCodes.nodes from rfl,
      show (State.outside s r).clearCodes.cb = s.clearCodes.cb from rfl,
      show (State.outside s r).clearCodes.rootIdx = s.clearCodes.rootIdx from rfl]
    split
    · rfl
    · rfl
  · rfl

/-- Two states that agree on everything a construction reads or writes, but for the phase. -/
structure SameWork (a b : State) : Prop where
  ft : b.ft = a.ft
  nodes : b.nodes = a.nodes
  wc : b.wc = a.wc
  nodeNext : b.nodeNext = a.nodeNext
  leafCount : b.leafCount = a.leafCount
  rootIdx : b.rootIdx = a.rootIdx
  rootValid : b.rootValid = a.rootValid
  cb : b.cb = a.cb

theorem SameWork.finish {a b : State} (h : SameWork a b) : SameWork a.finish b.finish := by
  obtain ⟨h1, h2, h3, h4, h5, h6, h7, h8⟩ := h
  unfold State.finish
  rw [h3]
  split <;> constructor <;> simp [*]

theorem SameWork.merge {a b t : State} (h : SameWork a b) (hm : a.merge = some t) : ∃ t', b.merge = some t' ∧
    SameWork t t' := by
  have hmem : b.members = a.members := by simp only [State.members, State.entry, h.wc, h.nodes]
  unfold State.merge at hm ⊢
  rw [hmem]
  split at hm
  · simp at hm
  · next i1 i2 he =>
    simp only at hm ⊢
    rw [h.nodeNext]
    split at hm
    · next hn =>
      rw [if_pos hn]
      simp only [Option.some.injEq] at hm
      refine ⟨_, rfl, ?_⟩
      have hR : SameWork (a.mergeSlots i1 i2) (b.mergeSlots i1 i2) := by
        obtain ⟨h1, h2, h3, h4, h5, h6, h7, h8⟩ := h
        constructor <;> simp [State.mergeSlots, State.setEntry, State.combine, State.entry, *]
      subst hm
      rw [hR.wc]
      split
      · exact hR.finish
      · exact hR
    · simp at hm

theorem SameWork.mergeAll : ∀ {k} {a b t : State}, SameWork a b → State.mergeAll k a = some t → ∃ t',
    State.mergeAll k b = some t' ∧ SameWork t t'
  | 0, a, b, t, h, hm => by simp only [State.mergeAll, Option.some.injEq] at hm; subst hm; exact ⟨b, rfl, h⟩
  | k + 1, a, b, t, h, hm => by
    simp only [State.mergeAll] at hm ⊢
    rw [h.wc]
    split at hm
    · next hl => rw [if_pos hl]; simp only [Option.some.injEq] at hm; subst hm; exact ⟨b, rfl, h⟩
    · next hl =>
      rw [if_neg hl]
      cases hma : a.merge with
      | none => rw [hma] at hm; simp at hm
      | some u =>
        rw [hma] at hm
        obtain ⟨u', hu', hR⟩ := h.merge hma
        rw [hu']
        exact hR.mergeAll hm

theorem SameWork.addLeaves (l : List Word) : ∀ {n : Nat} {a b : State}, a.ft = b.ft → a.nodes = b.nodes →
    a.wc = b.wc → a.nodeNext = b.nodeNext → a.cb = b.cb →
    let x := State.addLeaves l n a
    let y := State.addLeaves l n b
    x.ft = y.ft ∧ x.nodes = y.nodes ∧ x.wc = y.wc ∧ x.nodeNext = y.nodeNext ∧ x.cb = y.cb := by
  induction l with
  | nil => intro n a b h1 h2 h3 h4 h5; exact ⟨h1, h2, h3, h4, h5⟩
  | cons c l ih =>
    intro n a b h1 h2 h3 h4 h5
    rw [State.addLeaves, State.addLeaves]
    apply ih
    all_goals
      unfold State.addLeaf
      split <;> simp [State.setEntry, *]

theorem SameWork.makeLeaves {a b : State} (h : a.ft = b.ft) : SameWork a.makeLeaves b.makeLeaves := by
  have := SameWork.addLeaves a.ft.toList (n := 0) (a := { a.clearNodes.clearCodes with wc := [], nodeNext := 0 })
      (b := { b.clearNodes.clearCodes with wc := [], nodeNext := 0 }) h rfl rfl rfl rfl
  unfold State.makeLeaves
  rw [← h]
  generalize a.ft.toList = l at *
  obtain ⟨h1, h2, h3, h4, h5⟩ := this
  exact ⟨h1.symm, h2.symm, h3.symm, h4.symm, h4.symm, rfl, rfl, h5.symm⟩

theorem SameWork.buildBody {a b t : State} (h : a.ft = b.ft) (hm : a.buildBody = some t) : ∃ t',
    b.buildBody = some t' ∧ SameWork t t' := by
  have hR := SameWork.makeLeaves h
  unfold State.buildBody at hm ⊢
  generalize a.makeLeaves = u at *
  generalize b.makeLeaves = v at *
  simp only at hm ⊢
  rw [hR.wc]
  cases hma : State.mergeAll u.wc.length u with
  | none => rw [hma] at hm; simp at hm
  | some u' =>
    rw [hma] at hm
    obtain ⟨v', hv', hR'⟩ := hR.mergeAll hma
    rw [hv']
    simp only [Option.some.injEq] at hm ⊢
    refine ⟨_, rfl, ?_⟩
    subst hm
    rw [hR'.leafCount]
    split
    · exact hR'.finish
    · exact hR'

theorem SameWork.deriveBody {a b t : State} (h : SameWork a b) (hm : a.deriveBody = some t) : ∃ t',
    b.deriveBody = some t' ∧ SameWork t t' := by
  unfold State.deriveBody at hm ⊢
  simp only at hm ⊢
  rw [show b.clearCodes.rootValid = a.clearCodes.rootValid from h.rootValid,
      show b.clearCodes.nodes = a.clearCodes.nodes from h.nodes, show b.clearCodes.cb = a.clearCodes.cb from rfl,
      show b.clearCodes.rootIdx = a.clearCodes.rootIdx from h.rootIdx]
  split at hm
  · next hv =>
    rw [if_pos hv]
    split at hm
    · simp at hm
    · next cb hcb =>
      simp only [Option.some.injEq] at hm ⊢
      refine ⟨_, rfl, ?_⟩
      subst hm
      exact ⟨h.ft, rfl, h.wc, h.nodeNext, h.leafCount, rfl, rfl, rfl⟩
  · next hv =>
    rw [if_neg hv]
    simp only [Option.some.injEq] at hm ⊢
    refine ⟨_, rfl, ?_⟩
    subst hm
    exact ⟨h.ft, h.nodes, h.wc, h.nodeNext, h.leafCount, h.rootIdx, h.rootValid, rfl⟩

end Sys2Proof.Machine
end

