-- ==== Sys2Proof/Laws/PerInstr.lean ====
section
/-! SUPPORT. Statements made per instruction: every well-formed command's word is a legal form (spec/30_encoding.md R94). -/

namespace Sys2Proof.Laws

/-- The encoder writes only legal words. -/
def LegalWord.Statement (i : Instr) : Prop := i.WellFormed → legalForm (encode i) = true

theorem LegalWord.nop : LegalWord.Statement .nop := fun _ => by decide
theorem LegalWord.clrf : LegalWord.Statement .clrf := fun _ => by decide
theorem LegalWord.init : LegalWord.Statement .init := fun _ => by decide
theorem LegalWord.step : LegalWord.Statement .step := fun _ => by decide
theorem LegalWord.build : LegalWord.Statement .build := fun _ => by decide
theorem LegalWord.derive : LegalWord.Statement .derive := fun _ => by decide
theorem LegalWord.run : LegalWord.Statement .run := fun _ => by decide

theorem LegalWord.cmp (a b : Nat) : LegalWord.Statement (.cmp a b) := fun h => by
  simp only [Instr.WellFormed, Instr.wellFormed, operandFits, Bool.and_eq_true, decide_eq_true_eq] at h
  simp [legalForm, opField_cmpWord, rsvField_cmpWord h.1 h.2]

theorem LegalWord.srst : LegalWord.Statement .srst := fun _ => by decide

end Sys2Proof.Laws
end

