-- ==== Sys2Proof/Tests/Slice0.lean ====
section
/-! SUPPORT. The model's own tests: what WellFormed refuses, decoding of words written out from the spec's encodings, one
step of each command with the values of spec/95_test_vectors.md, and for each statement with hypotheses a witness that
meets them. -/

namespace Sys2Proof.Tests

-- one after the other: side by side, the kernel evaluations below need too much memory
set_option Elab.async false

open Sys2Proof.Machine

/-! ### Small states -/

/-- The state a result answers, the reset state where it stops. -/
def answer : Result → State
  | .next t => t
  | .fault _ => State.reset
  | .refused _ => State.reset

/-- Whether a result is a next state. -/
def goesOn : Result → Bool
  | .next _ => true
  | .fault _ => false
  | .refused _ => false

/-- The reset state with a frequency table written by the host. -/
def table (l : List (Nat × Word)) : State := l.foldl (fun s p => s.hostFreqWrite p.1 p.2) State.reset

/-- The table of vector T1. -/
def tableT1 : State := table [(97, 2), (98, 4), (99, 8), (100, 16), (102, 2)]

/-- The table of vectors T4 and T20. -/
def tableT4 : State := table [(97, 10), (98, 10)]

/-- The table of vector T6. -/
def tableT6 : State := table [(97, 5), (98, 1)]

/-- A command accepted, its completion the next event. -/
def running (w : Word) (s : State) : State := { s.latch w with events := [.completion] }

/-- The host's write of a word at an address is the next event. -/
def writing (addr : Addr) (v : Word) (s : State) : State := { s with events := [.write addr v] }

/-- The host's write of a command word is the next event. -/
def issuing (w : Word) (s : State) : State := writing 0x001 w s

/-- A command accepted and completed, `DONE` then acknowledged. -/
def done (w : Word) (s : State) : State := (answer (complete (s.latch w))).ackEvents 1

/-- One step and then the word a location reads as. -/
def stepThenPeek (s : State) (addr : Addr) : Word := (answer (step s)).peek (region addr)

/-! ### WellFormed -/

theorem test_wellFormed_refuses_wide_operand_a : ¬ (Instr.cmp 512 0).WellFormed := by decide

theorem test_wellFormed_refuses_wide_operand_b : ¬ (Instr.cmp 0 512).WellFormed := by decide

theorem test_wellFormed_admits_511 : (Instr.cmp 511 511).WellFormed := by decide

/-! ### Decoding (30_encoding.md R90, R91): `RSV B A OP` written out -/

theorem test_decode_nop : decode 0b0000000000_000000000_000000000_0000 = .ok .nop := by decide

theorem test_decode_clrf : decode 0b0000000000_000000000_000000000_0001 = .ok .clrf := by decide

theorem test_decode_init : decode 0b0000000000_000000000_000000000_0010 = .ok .init := by decide

theorem test_decode_step : decode 0b0000000000_000000000_000000000_0011 = .ok .step := by decide

theorem test_decode_build : decode 0b0000000000_000000000_000000000_0100 = .ok .build := by decide

theorem test_decode_derive : decode 0b0000000000_000000000_000000000_0101 = .ok .derive := by decide

theorem test_decode_run : decode 0b0000000000_000000000_000000000_0110 = .ok .run := by decide

theorem test_decode_cmp : decode 0b0000000000_100000010_010000001_0111 = .ok (.cmp 129 258) := by decide

theorem test_decode_srst : decode 0b0000000000_000000000_000000000_1000 = .ok .srst := by decide

/-- The illegal words of vector T16, each rejected by its name. -/
theorem test_decode_illegal :
    decode 0x00000009 = .error .reservedOpcode ∧ decode 0x0000000F = .error .reservedOpcode ∧
    decode 0xFFFFFFFF = .error .reservedOpcode ∧ decode 0x00000010 = .error .reservedBits ∧
    decode 0x00000014 = .error .reservedBits ∧ decode 0x00000018 = .error .reservedBits ∧
    decode 0x80000004 = .error .reservedBits ∧ decode 0x00400007 = .error .reservedBits := by decide

/-! ### Commands -/

/-- T18: `NOP` with `IEN = 1` raises the interrupt line. -/
theorem test_nop : (answer (step (running 0 { State.reset with ien := 1 }))).irq = true ∧
    stepThenPeek (running 0 { State.reset with ien := 1 }) 0x002 = 0x00000080 := by decide +kernel

/-- T15: `CLRF` after `RUN` clears the table and `PHASE`, and keeps the stale nodes. -/
theorem test_clrf :
    stepThenPeek (running 1 (done 6 tableT1)) 0x161 = 0 ∧
    stepThenPeek (running 1 (done 6 tableT1)) 0x002 = 0x00000080 ∧
    stepThenPeek (running 1 (done 6 tableT1)) 0x822 = 0xC1840607 := by decide +kernel

/-- T1 after `INIT`. -/
theorem test_init : stepThenPeek (running 2 tableT1) 0x007 = 0x00050005 ∧
    stepThenPeek (running 2 tableT1) 0x002 = 0x00000082 ∧ stepThenPeek (running 2 tableT1) 0x204 = 4 ∧
    stepThenPeek (running 2 tableT1) 0x812 = 0x81980000 := by decide +kernel

/-- T2: `INIT` of a single leaf finishes. -/
theorem test_init_single_leaf : stepThenPeek (running 2 (table [(97, 4)])) 0x002 = 0x00000094 ∧
    stepThenPeek (running 2 (table [(97, 4)])) 0x006 = 0x80000000 := by decide +kernel

/-- T1, first `STEP`: slots 0 and 4. -/
theorem test_step : (answer (step (running 3 (done 2 tableT1)))).wc = [5, 1, 2, 3] ∧
    stepThenPeek (running 3 (done 2 tableT1)) 0x816 = 0xC1840800 := by decide +kernel

/-- T6: the lesser frequency goes left, the representative comes from the right child. -/
theorem test_step_rep_from_right_child : stepThenPeek (running 3 (done 2 tableT6)) 0x808 = 6 ∧
    stepThenPeek (running 3 (done 2 tableT6)) 0x80A = 0xC1840001 ∧
    stepThenPeek (running 3 (done 2 tableT6)) 0x006 = 0x80000002 := by decide +kernel

/-- T12 after `BUILD`: a merge of slots 0 and 2, and the root. -/
theorem test_build :
    let s := running 4 (table [(0, 5), (1, 9), (2, 12), (3, 13), (4, 16), (5, 45)])
    stepThenPeek s 0x822 = 0xC0000806 ∧ stepThenPeek s 0x82A = 0xC0001205 ∧ stepThenPeek s 0x006 = 0x8000000A ∧
      stepThenPeek s 0x007 = 0x000B0006 := by decide +kernel

/-- T3: the empty table is no error. -/
theorem test_build_empty : stepThenPeek (running 4 State.reset) 0x002 = 0x0000008C ∧
    stepThenPeek (running 4 State.reset) 0x005 = 0 := by decide +kernel

/-- T12: the codes of bytes 1 ("1101") and 5 ("0"). -/
theorem test_derive :
    let s := running 5 (done 4 (table [(0, 5), (1, 9), (2, 12), (3, 13), (4, 16), (5, 45)]))
    stepThenPeek s 0x1010 = 0xB ∧ stepThenPeek s 0x1018 = 0x80000004 ∧ stepThenPeek s 0x1050 = 0 ∧
      stepThenPeek s 0x1058 = 0x80000001 := by decide +kernel

/-- T2: a single leaf has the empty code. -/
theorem test_derive_single_leaf :
    stepThenPeek (running 5 (done 4 (table [(97, 4)]))) 0x1618 = 0x80000000 ∧
    stepThenPeek (running 5 (done 4 (table [(97, 4)]))) 0x1610 = 0 ∧
    stepThenPeek (running 5 (done 4 (table [(97, 4)]))) 0x002 = 0x00000096 := by decide +kernel

/-- T1 after `RUN`: the code of byte 102 ("0001"), no code for byte 101. -/
theorem test_run : stepThenPeek (running 6 tableT1) 0x1660 = 8 ∧
    stepThenPeek (running 6 tableT1) 0x1668 = 0x80000004 ∧ stepThenPeek (running 6 tableT1) 0x1658 = 0 ∧
    stepThenPeek (running 6 tableT1) 0x002 = 0x00000086 := by decide +kernel

/-- T8: the sum of the two widest entries needs the high word. -/
theorem test_run_widest :
    let s := running 6 (table [(0, 0xFFFFFFFF), (255, 0xFFFFFFFF)])
    stepThenPeek s 0x808 = 0xFFFFFFFE ∧ stepThenPeek s 0x809 = 1 ∧ stepThenPeek s 0x80A = 0xC0000200 ∧
      stepThenPeek s 0x1FF0 = 1 := by decide +kernel

/-- T20: `CMP 0, 1`, `CMP 1, 0` and `CMP 0, 0` on equal frequencies. -/
theorem test_cmp : stepThenPeek (running 0x00002007 (done 2 tableT4)) 0x002 = 0x000000A2 ∧
    stepThenPeek (running 0x00000017 (done 2 tableT4)) 0x002 = 0x00000082 ∧
    stepThenPeek (running 0x00000007 (done 2 tableT4)) 0x002 = 0x000000A2 := by decide +kernel

/-- T20, T16: an operand that names no valid entry, and the phase test before the operand test. -/
theorem test_cmp_refused : stepThenPeek (issuing 0x00004007 (done 2 tableT4)) 0x005 = 6 ∧
    stepThenPeek (issuing 0x003FFFF7 (done 2 tableT4)) 0x005 = 6 ∧
    stepThenPeek (issuing 0x003FFFF7 tableT4) 0x005 = 2 := by decide +kernel

/-- T18: `SRST` while `RUN` runs leaves the reset state, `DONE` stays 0. -/
theorem test_srst : stepThenPeek (issuing 8 (tableT1.latch 6)) 0x002 = 0 ∧
    stepThenPeek (issuing 8 (tableT1.latch 6)) 0x001 = 0 ∧ stepThenPeek (issuing 8 (tableT1.latch 6)) 0x161 = 0 ∧
    (answer (step (issuing 8 (tableT1.latch 6)))).busy = false := by decide +kernel

/-! ### The host port -/

/-- T19: the address class before `BUSY`, `BUSY` before legality, the first error stays. -/
theorem test_error_priority :
    (answer (memWrite 0x002 0 (tableT1.latch 4))).errCode = 5 ∧ (answer (issue 9 (tableT1.latch 4))).errCode = 3 ∧
    (answer (memWrite 0x00A 0 (tableT1.latch 4))).errCode = 4 ∧
    (answer (issue 9 (State.reset.raiseErr .sequence))).errCode = 2 := by decide +kernel

/-- T18: acknowledging. -/
theorem test_acknowledge :
    let s : State := { State.reset with ipend := 3, errCode := 2 }
    (s.ackEvents 1).ipend = 2 ∧ (s.ackEvents 1).errCode = 2 ∧ (s.ackEvents 2).errCode = 0 ∧
      (s.ackEvents 0xFFFFFFFC).ipend = 3 ∧ (s.ackEvents 0xFFFFFFFC).errCode = 2 := by decide +kernel

/-- T15: the same value written to the table makes the construction out of date and keeps the stale code book. -/
theorem test_table_write :
    let s := answer (memWrite 0x161 2 (done 6 tableT1))
    s.phase = .empty ∧ s.peek (region 0x822) = 0xC1840607 ∧ s.peek (region 0x1660) = 8 := by decide +kernel

/-- T14, on keys alone: exact ties keep the lowest position. -/
theorem test_select_min :
    selectMin Config.tieKeep (fun x y : Nat × Nat => decide (x.1 < y.1 ∨ (x.1 = y.1 ∧ x.2 ≤ y.2)))
      [(5, 7), (5, 7), (5, 7)] none = some 0 ∧
    selectMin Config.tieKeep (fun x y : Nat × Nat => decide (x.1 < y.1 ∨ (x.1 = y.1 ∧ x.2 ≤ y.2)))
      [(5, 9), (5, 7), (4, 200), (5, 7)] (some 2) = some 1 := by decide

/-! ### Witnesses: good states -/

theorem reset_inv : BlockInv State.reset := inv_resetBlock State.reset

theorem tableT4_inv : BlockInv tableT4 := (reset_inv.hostFreqWrite 97 10).hostFreqWrite 98 10

/-- `INIT` of `tableT4`, running and completed. -/
def initRuns : State := tableT4.latch 2
def inited : State := answer (initCompletion initRuns)
/-- `STEP` after it, running. -/
def stepRuns : State := inited.latch 3
/-- `BUILD` of `tableT4`, running and completed. -/
def buildRuns : State := tableT4.latch 4
def built : State := answer (buildCompletion buildRuns)
/-- `DERIVE` after it, running. -/
def deriveRuns : State := built.latch 5
/-- `RUN` of `tableT4`, running and completed. -/
def runRuns : State := tableT4.latch 6
def coded : State := answer (runCompletion runRuns)
/-- `BUILD` of the empty table, completed. -/
def builtEmpty : State := answer (buildCompletion (State.reset.latch 4))

theorem inv_answer {r : Result} {p : State → Prop} (h : ∃ t, r = .next t ∧ BlockInv t ∧ p t) : BlockInv (answer r) := by
  obtain ⟨t, rfl, ht, -⟩ := h
  exact ht

theorem initRuns_inv : BlockInv initRuns := tableT4_inv.latch (i := .init) (w := 2) rfl (by decide) rfl

theorem inited_inv : BlockInv inited := inv_answer initRuns_inv.initCompletion

theorem inited_building : inited.phase = .building := by decide +kernel

theorem stepRuns_inv : BlockInv stepRuns :=
  inited_inv.latch (i := .step) (w := 3) rfl (by decide) (by simp only [State.objection, inited_building, if_true])

theorem buildRuns_inv : BlockInv buildRuns := tableT4_inv.latch (i := .build) (w := 4) rfl (by decide) rfl

theorem built_inv : BlockInv built := inv_answer buildRuns_inv.buildCompletion

theorem built_tree : built.phase = .tree := by decide +kernel

/-- `BUILD` does not write the table. -/
theorem built_ft : built.ft = buildRuns.ft := by
  obtain ⟨nodes, wc, n, -, -, -, -, h⟩ := buildBody_spec buildRuns
  unfold built buildCompletion
  rw [h]
  rfl

theorem deriveRuns_inv : BlockInv deriveRuns :=
  built_inv.latch (i := .derive) (w := 5) rfl (by decide) (by simp only [State.objection, built_tree, Phase.finished, if_true])

theorem runRuns_inv : BlockInv runRuns := tableT4_inv.latch (i := .run) (w := 6) rfl (by decide) rfl

theorem coded_inv : BlockInv coded := inv_answer runRuns_inv.runCompletion

theorem coded_codes : coded.phase = .codes := by decide +kernel

theorem builtEmpty_inv : BlockInv builtEmpty :=
  inv_answer (reset_inv.latch (i := .build) (w := 4) rfl (by decide) rfl).buildCompletion

theorem reachable_answer {s : State} (h : Reachable s) : Reachable (answer (step s)) := by
  cases hs : step s with
  | next t => exact .step h hs
  | fault f => exact .reset []
  | refused r => exact .reset []

/-- From reset: the host writes the table of T4 and issues `RUN`; the block completes it. -/
def script : State := { State.reset with events := [.write 0x161 10, .write 0x162 10, .write 0x001 6] }
def afterScript : State := answer (step (answer (step (answer (step (answer (step script)))))))

theorem afterScript_reachable : Reachable afterScript :=
  reachable_answer (reachable_answer (reachable_answer (reachable_answer (.reset _))))

theorem afterScript_codes : afterScript.phase = .codes ∧ afterScript.rootValid = true ∧
    afterScript.codeOf 97 = some ⟨1, 0⟩ ∧ afterScript.codeOf 98 = some ⟨1, 1⟩ := by decide +kernel

theorem no_reset_next {s : State} {e : Event} {rest : List Event} (h : s.events = e :: rest) (h1 : e ≠ .hardReset)
    (h2 : e ≠ .write 0x001 0x00000008) : ¬ NextResets s := by
  rintro ⟨r, hr | hr⟩ <;> rw [h] at hr
  · exact h1 (List.cons.inj hr).1
  · exact h2 (List.cons.inj hr).1

theorem goesOn_next {r : Result} (h : goesOn r = true) : r = .next (answer r) := by
  cases r with
  | next t => rfl
  | fault f => simp [goesOn] at h
  | refused q => simp [goesOn] at h

/-! ### Witnesses: one per statement with hypotheses, one per clause -/

theorem witness_LegalWordsAreTheCommands : SpecLegal 0x00000008 ∧ SpecLegal 0x003FFFF7 ∧ ¬ SpecLegal 0x00000009 ∧
    ¬ SpecLegal 0x00000010 ∧ ¬ SpecLegal 0x00400007 ∧ decode 0x003FFFF7 = .ok (.cmp 511 511) := by decide

theorem witness_DecodeOfEncodeIsTheCommand : (Instr.cmp 511 511).WellFormed ∧ (Instr.cmp 0 0).WellFormed ∧
    Instr.srst.WellFormed := by decide

theorem witness_EncodeOfDecodeIsTheWord : decode 0x003FFFF7 = .ok (.cmp 511 511) ∧ decode 0 = .ok .nop := by decide

theorem witness_WriteToCmdRunsTheDecodedCommand :
    ((issuing 6 tableT4).events = .write 0x001 6 :: [] ∧ decode 6 = .ok .run ∧ (issuing 6 tableT4).busy = false) ∧
    ((issuing 8 runRuns).events = .write 0x001 8 :: [] ∧ decode 8 = .ok .srst ∧ (issuing 8 runRuns).busy = true) :=
  ⟨⟨rfl, rfl, rfl⟩, ⟨rfl, rfl, rfl⟩⟩

theorem witness_FetchedWordRunsNext : decodeTableWord 32 0 = some .nop ∧
    decodeTableWord 32 0x003FFFF7 = some (.cmp 511 511) ∧ decodeTableWord 32 8 = some .srst := by decide

theorem witness_SequencerStepRunsTheLatchedCommand :
    runRuns.busy = true ∧ decode runRuns.curCmd = .ok .run ∧ Instr.run ≠ .srst ∧ runRuns.events = [] ∧
    (running 6 tableT4).events = .completion :: [] := ⟨rfl, rfl, by decide, rfl, rfl⟩

theorem witness_StepPerformsTheNextEvent : ∀ e ∈ [Event.read 0x100, .write 0x100 1, .hardReset, .completion],
    ({ State.reset with events := [e] } : State).events = e :: [] ∧ State.reset.events = [] ∧ State.reset.busy = false := by
  simp [State.reset]

theorem witness_SoftResetInAnyState : (runRuns.busy = true ∧ (0x00000000 : Word) ≠ 0x00000008) ∧
    (0x00000018 : Word).toNat % 16 = 8 ∧ (0x00000018 : Word).toNat / 16 ≠ 0 ∧
    (0xFFFFFFF8 : Word).toNat % 16 = 8 ∧ (0xFFFFFFF8 : Word).toNat / 16 ≠ 0 := ⟨⟨rfl, by decide⟩, by decide⟩

theorem witness_BothResetsGiveTheResetState :
    ({ runRuns with events := [.hardReset] } : State).events = .hardReset :: [] ∧
    (issuing 8 runRuns).events = .write 0x001 0x00000008 :: [] ∧
    ∀ a ∈ [0x000, 0x009, 0x100, 0x1FF, 0x200, 0x2FF, 0x800, 0xFFB, 0x1000, 0x1FFF], ¬ SpecUnmapped a :=
  ⟨rfl, rfl, by decide⟩

theorem witness_AcceptanceTable :
    (BlockInv stepRuns ∧ Instr.step.WellFormed ∧ Instr.step ≠ .srst ∧ stepRuns.busy = true ∧
      decode stepRuns.curCmd = .ok .step) ∧
    (BlockInv inited ∧ (Instr.cmp 1 511).WellFormed ∧ Instr.cmp 1 511 ≠ .srst ∧ inited.busy = false) :=
  ⟨⟨stepRuns_inv, rfl, by decide, rfl, rfl⟩, ⟨inited_inv, rfl, by decide, by decide +kernel⟩⟩

theorem witness_IssueProcedure : (SpecLegal 0x00000008 ∧ (0x00000008 : Word).toNat % 16 = 8) ∧
    ¬ (SpecLegal 0x00000018 ∧ (0x00000018 : Word).toNat % 16 = 8) := by decide

theorem witness_IllegalWordIsRefused : ¬ SpecLegal 0x00000009 ∧ ¬ SpecLegal 0x0000000F ∧ ¬ SpecLegal 0x00000010 ∧
    ¬ SpecLegal 0x00400007 ∧ ¬ SpecLegal 0x80000000 ∧ ¬ SpecLegal 0xFFFFFFFF := by decide

theorem witness_BusyErrorWhileRunning : runRuns.busy = true ∧ (0x00000000 : Word) ≠ 0x00000008 ∧
    (0x00000018 : Word) ≠ 0x00000008 ∧ 0 < 256 ∧ 255 < 256 ∧
    ∀ a ∈ [0x000, 0x009, 0x100, 0x2FF, 0x800, 0xFFB, 0x1000, 0x1FFF], ¬ SpecUnmapped a :=
  ⟨rfl, by decide, by decide, by decide, by decide, by decide⟩

theorem witness_UnmappedAddressIsRefused :
    ∀ a ∈ [0x00A, 0x0FF, 0x300, 0x7FF, 0xFFC, 0xFFF], a < 2 ^ 13 ∧ SpecUnmapped a := by decide

theorem witness_ReadOnlyWriteIsRefused :
    ∀ a ∈ [0x000, 0x002, 0x005, 0x009, 0x200, 0x2FF, 0x800, 0xFFB, 0x1000, 0x1FFF],
      a < 2 ^ 13 ∧ SpecReadOnly a := by decide

/-- A state with an error on record and a further error next. -/
def secondError : State := issuing 9 (State.reset.raiseErr .sequence)

theorem witness_FirstErrorStaysOnRecord : step secondError = .next (answer (step secondError)) ∧
    secondError.ipend.getLsbD 1 = true ∧ ¬ NextResets secondError ∧
    ¬ ∃ v rest, secondError.events = .write 0x004 v :: rest ∧ v.getLsbD 1 = true := by
  refine ⟨rfl, rfl, no_reset_next (e := .write 0x001 9) (rest := []) rfl (by decide) (by decide), ?_⟩
  rintro ⟨v, rest, h, -⟩
  exact absurd (List.cons.inj h).1 (by simp)

theorem witness_FrequencyTableWrite : 0 < 256 ∧ 255 < 256 ∧ runRuns.busy = true ∧ tableT4.busy = false :=
  ⟨by decide, by decide, rfl, rfl⟩

theorem witness_LatchedCommandChangesOnlyByIssue :
    (step (issuing 6 State.reset) = .next (answer (step (issuing 6 State.reset))) ∧ ¬ NextResets (issuing 6 State.reset)) ∧
    (step (running 0 State.reset) = .next (answer (step (running 0 State.reset))) ∧
      ¬ NextResets (running 0 State.reset)) :=
  ⟨⟨rfl, no_reset_next (e := .write 0x001 6) (rest := []) rfl (by decide) (by decide)⟩,
    ⟨rfl, no_reset_next (e := .completion) (rest := []) rfl (by decide) (by decide)⟩⟩

theorem witness_StatusRegister : coded.busy = false ∧ runRuns.busy = true := ⟨by decide +kernel, rfl⟩

theorem witness_RootAndCounterRegisters : (BlockInv coded ∧ coded.busy = false) ∧ (BlockInv runRuns ∧ runRuns.busy = true) :=
  ⟨⟨coded_inv, by decide +kernel⟩, ⟨runRuns_inv, rfl⟩⟩

theorem witness_TableAndCollectionWindows : 0 < 256 ∧ 255 < 256 ∧ inited.busy = false ∧ runRuns.busy = true ∧
    inited.wc.length = 2 := ⟨by decide, by decide, by decide +kernel, rfl, by decide +kernel⟩

theorem witness_NodeWindow : 0 < 511 ∧ 510 < 511 ∧ inited.busy = false ∧ entryValid (inited.entry 510) = false ∧
    entryValid (inited.entry 0) = true ∧ 3 < 4 :=
  ⟨by decide, by decide, by decide +kernel, by decide +kernel, by decide +kernel, by decide⟩

theorem witness_CodeBookWindow : 0 < 256 ∧ 255 < 256 ∧ coded.busy = false ∧ coded.codeOf 97 = some ⟨1, 0⟩ ∧
    coded.codeOf 255 = none := ⟨by decide, by decide, by decide +kernel, by decide +kernel, by decide +kernel⟩

theorem witness_BusyTimeReads : runRuns.busy = true ∧
    (∀ a ∈ [0x006, 0x008, 0x100, 0x2FF, 0x800, 0xFFB, 0x1000, 0x1FFF],
      a < 2 ^ 13 ∧ ¬ SpecUnmapped a ∧ a ≠ 0x002 ∧ SpecBusyUnspecified a) ∧
    ∀ a ∈ [0x000, 0x001, 0x003, 0x004, 0x005, 0x009],
      a < 2 ^ 13 ∧ ¬ SpecUnmapped a ∧ a ≠ 0x002 ∧ ¬ SpecBusyUnspecified a := ⟨rfl, by decide, by decide⟩

/-- Two blocks that run the same command on different tables, the host about to read a node. -/
def readingA : State := { State.reset.latch 6 with events := [.read 0x800] }
def readingB : State := { (tableT4.latch 6) with events := [.read 0x800] }

theorem witness_RunningCommandRevealsNothing : SameWhileBusy readingA readingB ∧ readingA.freqOf 97 ≠ readingB.freqOf 97 ∧
    readingA.events = .read 0x800 :: [] ∧ Event.read 0x800 ≠ .completion ∧
    step readingA = .next (answer (step readingA)) ∧ step readingB = .next (answer (step readingB)) := by
  refine ⟨⟨⟨rfl, rfl⟩, ?_, ?_, ?_, ?_, ?_, ?_, ?_⟩, ?_, rfl, by decide, goesOn_next ?_, goesOn_next ?_⟩ <;>
    decide +kernel

theorem witness_ReadsHaveNoSideEffect : ¬ SpecUnmapped (0x009 : Addr).toNat ∧ SpecUnmapped (0x00A : Addr).toNat ∧
    State.reset.busy = false := by decide +kernel

/-- Every command that is accepted in every phase: an idle and a running state. -/
theorem witness_NopClrfInitBuildRunComplete : tableT4.busy = false ∧ (tableT4.latch 0).busy = true ∧
    (tableT4.latch 1).busy = true ∧ initRuns.busy = true ∧ buildRuns.busy = true ∧ runRuns.busy = true :=
  ⟨rfl, rfl, rfl, rfl, rfl, rfl⟩

theorem witness_CmpCompletes : (inited.latch 0x00002007).busy = true ∧ 511 < 512 ∧ 0 < 512 ∧ inited.busy = false ∧
    entryValid (inited.entry 0) = true ∧ entryValid (inited.entry 1) = true :=
  ⟨rfl, by decide, by decide, by decide +kernel, by decide +kernel, by decide +kernel⟩

theorem witness_InitCreatesTheLeaves : initRuns.busy = true ∧ (State.reset.latch 2).busy = true :=
  ⟨rfl, rfl⟩

theorem witness_StepMergesTheTwoMinima : BlockInv stepRuns ∧ stepRuns.busy = true ∧ stepRuns.phase = .building :=
  ⟨stepRuns_inv, rfl, (State.latch_phase _ _).trans inited_building⟩

theorem witness_BuildEqualsInitAndSteps : tableT4.busy = false ∧ State.reset.busy = false := ⟨rfl, rfl⟩

theorem witness_DeriveFillsTheCodeBook : (BlockInv deriveRuns ∧ deriveRuns.busy = true ∧ deriveRuns.phase = .tree) ∧
    (BlockInv coded ∧ coded.phase = .codes) :=
  ⟨⟨deriveRuns_inv, rfl, (State.latch_phase _ _).trans built_tree⟩, ⟨coded_inv, coded_codes⟩⟩

theorem witness_RunEqualsBuildThenDerive : tableT4.busy = false := rfl

theorem witness_StepKeepsInvariant : BlockInv readingA ∧ step readingA = .next (answer (step readingA)) :=
  ⟨(reset_inv.latch (i := .run) (w := 6) rfl (by decide) rfl).withEvents _, rfl⟩

theorem witness_BlockIsNeverStuck : BlockInv stepRuns := stepRuns_inv

theorem witness_ReachableStatesMeetInvariant : Reachable afterScript := afterScript_reachable

theorem witness_EveryAcceptedCommandCompletes : BlockInv readingA ∧ readingA.busy = true ∧
    ∀ e ∈ readingA.events, e ≠ .hardReset ∧ e ≠ .write 0x001 0x00000008 :=
  ⟨witness_StepKeepsInvariant.1, rfl, by simp [readingA]⟩

theorem witness_RunningCommandIsUndisturbed : BlockInv runRuns ∧ runRuns.busy = true ∧
    Event.write 0x100 7 ≠ .completion ∧ Event.write 0x100 7 ≠ .hardReset ∧
    Event.write 0x100 7 ≠ .write 0x001 0x00000008 ∧
    perform (.write 0x100 7) runRuns = .next (answer (perform (.write 0x100 7) runRuns)) :=
  ⟨runRuns_inv, rfl, by decide, by decide, by decide, rfl⟩

/-- Each clause's change happens: `RUN` on the table of T4, `CMP 0, 0` after `INIT`, `CLRF`, and a write to `IEN`. -/
theorem witness_StoreWriters :
    (step (running 6 tableT4) = .next (answer (step (running 6 tableT4))) ∧ ¬ NextResets (running 6 tableT4) ∧
      (answer (step (running 6 tableT4))).codeOf 97 ≠ (running 6 tableT4).codeOf 97 ∧
      (answer (step (running 6 tableT4))).wc ≠ (running 6 tableT4).wc ∧
      (answer (step (running 6 tableT4))).leafCount ≠ (running 6 tableT4).leafCount) ∧
    (step (running 7 inited) = .next (answer (step (running 7 inited))) ∧ ¬ NextResets (running 7 inited) ∧
      (answer (step (running 7 inited))).cmpRes ≠ (running 7 inited).cmpRes) ∧
    (step (running 1 tableT4) = .next (answer (step (running 1 tableT4))) ∧ ¬ NextResets (running 1 tableT4) ∧
      (answer (step (running 1 tableT4))).freqOf 97 ≠ (running 1 tableT4).freqOf 97) ∧
    (step (writing 3 3 tableT4) = .next (answer (step (writing 3 3 tableT4))) ∧ ¬ NextResets (writing 3 3 tableT4) ∧
      (answer (step (writing 3 3 tableT4))).ien ≠ (writing 3 3 tableT4).ien) :=
  ⟨⟨goesOn_next (by decide +kernel), no_reset_next (e := .completion) (rest := []) rfl (by decide) (by decide),
      by decide +kernel, by decide +kernel, by decide +kernel⟩,
    ⟨goesOn_next (by decide +kernel), no_reset_next (e := .completion) (rest := []) rfl (by decide) (by decide),
      by decide +kernel⟩,
    ⟨goesOn_next (by decide +kernel), no_reset_next (e := .completion) (rest := []) rfl (by decide) (by decide),
      by decide +kernel⟩,
    ⟨goesOn_next (by decide +kernel), no_reset_next (e := .write 0x003 3) (rest := []) rfl (by decide) (by decide),
      by decide +kernel⟩⟩

theorem witness_TieKeepIsUnobservable : BlockInv inited ∧ inited.members.length = 2 := ⟨inited_inv, by decide +kernel⟩

theorem witness_PositionsAreUnobservable :
    [CodeTree.leaf 97 10, .leaf 98 10].Perm [.leaf 98 10, .leaf 97 10] ∧
    ([CodeTree.leaf 97 10, .leaf 98 10].map CodeTree.rep).Nodup := by decide

theorem witness_ConstructionIsAFunctionOfTheTable : buildRuns.busy = true ∧ (built.latch 4).busy = true ∧
    buildRuns.ft = (built.latch 4).ft ∧ entryValid (buildRuns.entry 0) ≠ entryValid ((built.latch 4).entry 0) :=
  ⟨rfl, rfl, built_ft.symm.trans (State.latch_ft _ _).symm, by decide +kernel⟩

theorem witness_FinishedTreeAndCodesAreThoseOfTheTable : Reachable afterScript ∧ afterScript.phase = .codes ∧
    afterScript.rootValid = true := ⟨afterScript_reachable, afterScript_codes.1, afterScript_codes.2.1⟩

theorem witness_RootSumsTheTable : BlockInv coded ∧ coded.phase = .codes ∧ coded.rootValid = true ∧ coded.freqOf 97 ≠ 0 :=
  ⟨coded_inv, coded_codes, by decide +kernel, by decide +kernel⟩

theorem witness_NodeCountAndNumbering : (BlockInv built ∧ built.phase = .tree ∧ built.leafCount = 2) ∧
    (BlockInv builtEmpty ∧ builtEmpty.phase = .tree ∧ builtEmpty.leafCount = 0) :=
  ⟨⟨built_inv, built_tree, by decide +kernel⟩, ⟨builtEmpty_inv, by decide +kernel, by decide +kernel⟩⟩

theorem witness_CodesForExactlyTheUsedBytes : BlockInv coded ∧ coded.phase = .codes ∧ 1 ≤ coded.leafCount :=
  ⟨coded_inv, coded_codes, by decide +kernel⟩

theorem witness_CodesAreAPrefixCode : BlockInv coded ∧ coded.phase = .codes ∧ 97 ≠ 98 ∧
    coded.codeOf 97 = some ⟨1, 0⟩ ∧ coded.codeOf 98 = some ⟨1, 1⟩ :=
  ⟨coded_inv, coded_codes, by decide, by decide +kernel, by decide +kernel⟩

theorem witness_CodeLengthIsBelowLeafCount : BlockInv coded ∧ coded.phase = .codes ∧ coded.codeOf 98 = some ⟨1, 1⟩ :=
  ⟨coded_inv, coded_codes, by decide +kernel⟩

theorem witness_EqualCodesHaveEqualRecords : Reachable afterScript ∧ afterScript.codeOf 97 = some ⟨1, 0⟩ ∧
    codeString ⟨1, 0⟩ = codeString ⟨1, 0⟩ := ⟨afterScript_reachable, afterScript_codes.2.2.1, rfl⟩

end Sys2Proof.Tests
end

/-! ### The command word read back -/

namespace Sys2Proof

/-- The word of `CMP` as a number: its three fields do not overlap (30_encoding.md R90). -/
theorem encode_cmp_toNat {a b : Nat} (ha : a < 512) (hb : b < 512) :
    (encode (.cmp a b)).toNat = b * 2 ^ 13 + a * 2 ^ 4 + 7 := by
  have hlow : a <<< 4 ||| 7 = a * 2 ^ 4 + 7 := by
    rw [← Nat.shiftLeft_add_eq_or_of_lt (by omega), Nat.shiftLeft_eq]
  have hall : b <<< 13 ||| (a * 2 ^ 4 + 7) = b * 2 ^ 13 + (a * 2 ^ 4 + 7) := by
    rw [← Nat.shiftLeft_add_eq_or_of_lt (by omega), Nat.shiftLeft_eq]
  have hA : a <<< 4 < 2 ^ 32 := by rw [Nat.shiftLeft_eq]; omega
  have hB : b <<< 13 < 2 ^ 32 := by rw [Nat.shiftLeft_eq]; omega
  simp only [encode, BitVec.toNat_or, BitVec.toNat_shiftLeft, BitVec.toNat_ofNat,
    Nat.mod_eq_of_lt (show a < 2 ^ 32 by omega), Nat.mod_eq_of_lt (show b < 2 ^ 32 by omega),
    Nat.mod_eq_of_lt hA, Nat.mod_eq_of_lt hB]
  rw [Nat.or_assoc]
  exact (congrArg _ hlow).trans (hall.trans (Nat.add_assoc _ _ _).symm)

/-- A word that decodes is the encoding of what it decodes to: no command has a second spelling. -/
theorem encode_of_decode {w : Word} {i : Instr} (h : decode w = .ok i) : encode i = w := by
  rw [decode_eq] at h
  split at h
  · next hop =>
    split at h
    · next hrsv =>
      obtain rfl := by simpa using h
      refine BitVec.eq_of_toNat_eq ?_
      rw [encode_cmp_toNat (Nat.mod_lt _ (by norm_num)) (Nat.mod_lt _ (by norm_num))]
      omega
    · simp at h
  · split at h
    · split at h
      · next hop hle hup =>
        have hlt : w.toNat < 9 := by omega
        obtain ⟨n, hn⟩ : ∃ n, w.toNat = n := ⟨_, rfl⟩
        obtain rfl : w = BitVec.ofNat 32 n := BitVec.eq_of_toNat_eq (by simp; omega)
        rw [hn] at h hlt hop
        clear hn hle hup
        cases h
        obtain hn7 | rfl : n < 7 ∨ n = 8 := by omega
        · interval_cases n <;> rfl
        · rfl
      · simp at h
    · simp at h

end Sys2Proof

namespace Sys2Proof.Machine

/-- Only words of a legal form decode (30_encoding.md R94). -/
theorem specLegal_of_decode {w : Word} {i : Instr} (h : decode w = .ok i) : SpecLegal w := by
  rw [decode_eq] at h
  split at h
  · next hop =>
    split at h
    · next hrsv => exact ⟨by omega, .inl ⟨hop, hrsv⟩⟩
    · simp at h
  · next hop =>
    split at h
    · next hle =>
      split at h
      · next hup => exact ⟨hle, .inr ⟨hop, hup⟩⟩
      · simp at h
    · simp at h

/-! ### Every step keeps the invariant -/

variable {s t : State}

/-- The completion of a command that issue accepts answers a good idle state (43_system.md R183). -/
theorem inv_completionOf (h : BlockInv s) {i : Instr} (hi : i ≠ .srst) (ho : s.objection i = none) :
    ∃ t, completionOf i s = .next t ∧ BlockInv t ∧ t.busy = false := by
  cases i with
  | nop => exact ⟨_, rfl, h.completed, rfl⟩
  | clrf => exact h.clrfCompletion
  | init => exact h.initCompletion
  | step => exact h.stepCompletion (by simpa [State.objection] using ho)
  | build => exact h.buildCompletion
  | derive => exact h.deriveCompletion (by simpa [State.objection] using ho)
  | run => exact h.runCompletion
  | cmp a b => exact h.cmpCompletion a b
  | srst => exact absurd rfl hi

theorem inv_complete (h : BlockInv s) (hc : complete s = .next t) : BlockInv t := by
  rcases complete_cases hc with ⟨-, rfl⟩ | ⟨hb, i, hi, hd, hcomp⟩
  · exact h
  · obtain ⟨j, hj, -, ho⟩ := h.latched hb
    obtain rfl : i = j := by simpa [hd] using hj
    obtain ⟨u, hu, hinv, -⟩ := inv_completionOf h hi ho
    obtain rfl : u = t := by simpa [hu] using hcomp
    exact hinv

theorem inv_issueLegal (h : BlockInv s) {i : Instr} {w : Word} (hd : decode w = .ok i) (hi : i ≠ .srst) :
    BlockInv (s.issueLegal i) := by
  cases ho : s.objection i with
  | some e => rw [issueLegal_refused ho]; exact h.raiseErr e
  | none => rw [issueLegal_accepted ho, encode_of_decode hd]; exact h.latch hd hi ho

theorem inv_issue (h : BlockInv s) {w : Word} (hw : issue w s = .next t) : BlockInv t := by
  rcases issue_cases hw with ⟨-, rfl⟩ | ⟨-, -, rfl⟩ | ⟨-, -, rfl⟩ | ⟨-, i, hi, hd, rfl⟩
  · exact inv_resetBlock s
  · exact h.raiseErr _
  · exact h.raiseErr _
  · exact inv_issueLegal h hd hi

theorem inv_memWrite (h : BlockInv s) {addr : Addr} {v : Word} (hw : memWrite addr v s = .next t) : BlockInv t := by
  rcases memWrite_cases hw with ⟨-, hi⟩ | ⟨-, rfl⟩ | ⟨-, rfl⟩ | ⟨b, -, rfl⟩ | ⟨-, rfl⟩ | rfl
  · exact inv_issue h hi
  · exact h.setIen _
  · exact h.ackEvents v
  · exact h.hostFreqWrite b v
  · exact h.raiseErr _
  · exact h.raiseErr _

theorem inv_memRead (h : BlockInv s) (addr : Addr) : BlockInv (memRead addr s) := by
  rcases memRead_cases addr s with ⟨-, hr⟩ | ⟨-, -, f, hr⟩ | ⟨-, hr⟩ <;> rw [hr]
  · exact (h.raiseErr _).reply 0
  · exact h.replyDrawn f
  · exact h.reply _

/-- Settles O44, by the cases of one step: each event keeps the invariant, whatever the events after it. -/
theorem stepKeepsInvariant : Obligations.StepKeepsInvariant := by
  unfold Obligations.StepKeepsInvariant
  intro s t h hstep
  rcases step_cases hstep with ⟨-, hc⟩ | ⟨rest, ⟨-, hc⟩ | ⟨addr, -, rfl⟩ | ⟨addr, v, -, hw⟩ | ⟨-, rfl⟩⟩
  · exact inv_complete h hc
  · exact inv_complete (h.withEvents rest) hc
  · exact inv_memRead (h.withEvents rest) addr
  · exact inv_memWrite (h.withEvents rest) hw
  · exact inv_resetBlock _

/-- Settles O43: the reset state is what a reset leaves, with its own events. -/
theorem resetMeetsInvariant : Obligations.ResetMeetsInvariant := by
  unfold Obligations.ResetMeetsInvariant
  intro events
  exact inv_resetBlock { State.reset with events := events }

/-- Settles O46, by induction on the run: the reset state is good and every step keeps a state good. -/
theorem reachableStatesMeetInvariant : Obligations.ReachableStatesMeetInvariant := by
  unfold Obligations.ReachableStatesMeetInvariant
  intro s hs
  induction hs with
  | reset events => exact resetMeetsInvariant events
  | step _ hstep ih => exact stepKeepsInvariant _ _ ih hstep

/-! ### Who writes `CUR_CMD` and `BUSY` -/

/-- A read leaves the latched command alone (20_memory.md R72). -/
theorem memRead_command (addr : Addr) (s : State) :
    (memRead addr s).curCmd = s.curCmd ∧ (memRead addr s).busy = s.busy := by
  rcases memRead_cases addr s with ⟨-, hr⟩ | ⟨-, -, f, hr⟩ | ⟨-, hr⟩ <;> rw [hr] <;> exact ⟨rfl, rfl⟩

/-- The issue of a word other than `SRST` leaves the latched command alone, or latches the word (43_system.md R182). -/
theorem issue_command {w : Word} (h : issue w s = .next t) (hw : w ≠ 0x00000008) :
    (t.curCmd = s.curCmd ∧ t.busy = s.busy) ∨
      (s.busy = false ∧ SpecLegal w ∧ t.curCmd = w ∧ t.busy = true) := by
  rcases issue_cases h with ⟨hd, -⟩ | ⟨-, -, rfl⟩ | ⟨-, -, rfl⟩ | ⟨hb, i, -, hd, rfl⟩
  · exact absurd ((decode_eq_srst_iff w).mp hd) hw
  · exact .inl ⟨rfl, rfl⟩
  · exact .inl ⟨rfl, rfl⟩
  · cases ho : s.objection i with
    | some e => rw [issueLegal_refused ho]; exact .inl ⟨rfl, rfl⟩
    | none =>
      rw [issueLegal_accepted ho, encode_of_decode hd]
      exact .inr ⟨hb, specLegal_of_decode hd, rfl, rfl⟩

/-- A host write other than that of `SRST` leaves the latched command alone, or is an accepted write to `CMD`. -/
theorem memWrite_command {addr : Addr} {v : Word} (h : memWrite addr v s = .next t)
    (hv : addr = 0x001 → v ≠ 0x00000008) :
    (t.curCmd = s.curCmd ∧ t.busy = s.busy) ∨
      (addr = 0x001 ∧ s.busy = false ∧ SpecLegal v ∧ t.curCmd = v ∧ t.busy = true) := by
  rcases memWrite_cases h with ⟨hr, hi⟩ | ⟨-, rfl⟩ | ⟨-, rfl⟩ | ⟨b, -, rfl⟩ | ⟨-, rfl⟩ | rfl
  · have ha : addr = 0x001 := addr_of_region_cmd hr
    exact (issue_command hi (hv ha)).imp_right fun hacc => ⟨ha, hacc⟩
  · exact .inl ⟨rfl, rfl⟩
  · exact .inl ⟨rfl, rfl⟩
  · refine .inl ?_
    unfold State.hostFreqWrite
    split <;> exact ⟨rfl, rfl⟩
  · exact .inl ⟨rfl, rfl⟩
  · exact .inl ⟨rfl, rfl⟩

/-- The sequencer's turn changes the latched command's fields only by completing it: `BUSY` falls (43_system.md R183). -/
theorem complete_command (h : complete s = .next t) :
    t.curCmd = s.curCmd ∧ (t.busy = s.busy ∨ s.busy = true ∧ (∃ i, decode s.curCmd = .ok i) ∧ t.busy = false) := by
  rcases complete_cases h with ⟨-, rfl⟩ | ⟨hb, i, hi, hd, hc⟩
  · exact ⟨rfl, .inl rfl⟩
  · obtain ⟨hbusy, -, hcur, -⟩ := completion_fields hi hc
    exact ⟨hcur, .inr ⟨hb, ⟨i, hd⟩, hbusy⟩⟩

/-- Settles O22, by the cases of one step: only the sequencer's turn and a write to `CMD` touch the two fields. -/
theorem latchedCommandChangesOnlyByIssue : Obligations.LatchedCommandChangesOnlyByIssue := by
  unfold Obligations.LatchedCommandChangesOnlyByIssue
  intro s t hstep hreset
  rcases step_cases hstep with ⟨he, hc⟩ | ⟨rest, ⟨he, hc⟩ | ⟨addr, -, rfl⟩ | ⟨addr, v, he, hw⟩ | ⟨he, -⟩⟩
  · obtain ⟨hcur, hbusy⟩ := complete_command hc
    exact .inl ⟨hcur, hbusy.imp_right fun ⟨hb, ⟨i, hd⟩, ht⟩ => ⟨i, ⟨hb, hd, .inl he⟩, ht⟩⟩
  · obtain ⟨hcur, hbusy⟩ := complete_command hc
    exact .inl ⟨hcur, hbusy.imp_right fun ⟨hb, ⟨i, hd⟩, ht⟩ => ⟨i, ⟨hb, hd, .inr ⟨rest, he⟩⟩, ht⟩⟩
  · obtain ⟨hcur, hbusy⟩ := memRead_command addr { s with events := rest }
    exact .inl ⟨hcur, .inl hbusy⟩
  · have hv : addr = 0x001 → v ≠ 0x00000008 := fun ha hv => hreset ⟨rest, .inr (by rw [he, ha, hv])⟩
    rcases memWrite_command hw hv with ⟨hcur, hbusy⟩ | ⟨rfl, hb, hlegal, hcur, hbusy⟩
    · exact .inl ⟨hcur, .inl hbusy⟩
    · exact .inr ⟨v, rest, he, hb, hlegal, hcur, hbusy⟩
  · exact absurd ⟨rest, .inl he⟩ hreset

/-! ### Reads of the control registers -/

/-- A control register's address (10_state.md R33). -/
theorem region_reg {n : Nat} (hn : n < 10) : region (BitVec.ofNat 13 n) = .reg (regAt n) := by
  have hlt : (BitVec.ofNat 13 n).toNat = n := by simp; omega
  simp only [region, hlt, if_pos hn]

/-- A location whose busy-time reads are not unspecified reads alike in every state (20_memory.md R73). -/
theorem memRead_defined {addr : Addr} {r : Region} (hr : region addr = r) (hu : r ≠ .unmapped)
    (hs : r ≠ .reg .status) (h : r.busyUnspecified = false) : memRead addr s = s.reply (s.peek r) := by
  unfold memRead
  simp [hr, hu, hs, h]

/-- `STATUS` while a command runs (20_memory.md R73). -/
theorem memRead_status_busy (hb : s.busy = true) : memRead 0x002 s = s.replyDrawn s.busyStatusWord := by
  unfold memRead
  simp [region_reg (show 2 < 10 by decide), regAt, hb]

/-- Settles O23: each of the six addresses names a register with no unspecified busy-time read. -/
theorem alwaysDefinedRegisters : Obligations.AlwaysDefinedRegisters := by
  unfold Obligations.AlwaysDefinedRegisters
  intro s
  have read (n : Nat) (hn : n < 10) (hs : regAt n ≠ .status) (h : (Region.reg (regAt n)).busyUnspecified = false) :
      memRead (BitVec.ofNat 13 n) s = s.reply (s.regWord (regAt n)) :=
    memRead_defined (region_reg hn) (by simp) (by simpa using hs) h
  exact ⟨read 0 (by decide) (by decide) rfl, read 1 (by decide) (by decide) rfl, read 3 (by decide) (by decide) rfl,
    read 4 (by decide) (by decide) rfl, read 5 (by decide) (by decide) rfl, read 9 (by decide) (by decide) rfl⟩

/-- Settles O32: the two pending bits under their two enable bits. -/
theorem interruptLine : Obligations.InterruptLine := by
  unfold Obligations.InterruptLine
  intro s
  simp [State.irq, State.doneBit, State.errBit]

/-- Settles O9, element by element; the stores through their readers. -/
theorem resetValues : Obligations.ResetValues := by
  unfold Obligations.ResetValues
  have hentry (n : Nat) : State.reset.entry n = none := entryAt_replicate n
  refine ⟨fun b _ => State.freqOf_clearFreqs State.reset b, fun n _ => ?_, rfl, rfl, rfl, rfl, rfl,
    fun b _ => codeOf_replicate rfl b, rfl, rfl, rfl, rfl, rfl, rfl, rfl, rfl, rfl, rfl⟩
  rw [hentry]
  exact ⟨rfl, rfl, rfl, rfl, rfl, rfl⟩

/-! ### `STATUS`, `ROOT`, `COUNTS` and `WCLEN`, field by field -/

theorem finished_iff (p : Phase) : p.finished = true ↔ p = .tree ∨ p = .codes := by
  cases p <;> simp [Phase.finished]

theorem emptyTree_eq (s : State) :
    s.emptyTree = decide ((s.phase = .tree ∨ s.phase = .codes) ∧ s.leafCount = 0) := by
  rw [Bool.eq_iff_iff]
  simp [State.emptyTree, finished_iff]

theorem singleLeaf_eq (s : State) :
    s.singleLeaf = decide ((s.phase = .tree ∨ s.phase = .codes) ∧ s.leafCount = 1) := by
  rw [Bool.eq_iff_iff]
  simp [State.singleLeaf, finished_iff]

/-- `STATUS` with its fields side by side (10_state.md R36). -/
theorem statusWord_eq (s : State) :
    s.statusWord = 0#24 ++ BitVec.ofBool s.doneBit ++ BitVec.ofBool s.errBit ++ BitVec.ofBool s.cmpRes ++
      BitVec.ofBool s.singleLeaf ++ BitVec.ofBool s.emptyTree ++ s.phase.bits ++ BitVec.ofBool s.busy := by
  have fields : ∀ (done err cmp single empty : Bool) (p : BitVec 2) (busy : Bool),
      bitWord busy 0 ||| (p.setWidth 32 <<< 1) ||| bitWord empty 3 ||| bitWord single 4 ||| bitWord cmp 5 |||
        bitWord err 6 ||| bitWord done 7 =
      0#24 ++ BitVec.ofBool done ++ BitVec.ofBool err ++ BitVec.ofBool cmp ++ BitVec.ofBool single ++
        BitVec.ofBool empty ++ p ++ BitVec.ofBool busy := by decide
  exact fields _ _ _ _ _ _ _

/-- The busy-time `STATUS`: a free value's low five bits between the defined ones (20_memory.md R73). -/
theorem busyStatusWord_eq (s : State) (x : Word) :
    s.busyStatusWord x = 0#24 ++ BitVec.ofBool s.doneBit ++ BitVec.ofBool s.errBit ++ x.extractLsb' 0 5 ++
      BitVec.ofBool s.busy := by
  have fields : ∀ (done err : Bool) (y : BitVec 5) (busy : Bool),
      bitWord busy 0 ||| (y.setWidth 32 <<< 1) ||| bitWord err 6 ||| bitWord done 7 =
      0#24 ++ BitVec.ofBool done ++ BitVec.ofBool err ++ y ++ BitVec.ofBool busy := by decide
  exact fields _ _ _ _

/-- Settles O24: the fields of `STATUS` side by side, with `BUSY` the state's own. -/
theorem statusRegister : Obligations.StatusRegister := by
  unfold Obligations.StatusRegister
  intro s
  have hreg : region 0x002 = .reg .status := region_reg (show 2 < 10 by decide)
  refine ⟨fun hb => ?_, memRead_idle rfl hreg (by simp), fun hb => ?_⟩
  · rw [memRead_idle hb hreg (by simp)]
    show s.reply s.statusWord = _
    rw [statusWord_eq, hb, emptyTree_eq, singleLeaf_eq]
    cases s.phase <;> rfl
  · rw [memRead_status_busy hb]
    congr 1
    funext x
    rw [busyStatusWord_eq, hb]
    rfl

/-- `ROOT` with its fields side by side (10_state.md R40). -/
theorem rootWord_eq (s : State) : s.rootWord = BitVec.ofBool s.rootValid ++ 0#22 ++ s.rootIdx := by
  have hmod : s.rootIdx.toNat % 2 ^ 32 = s.rootIdx.toNat := Nat.mod_eq_of_lt (s.rootIdx.isLt.trans (by decide))
  refine BitVec.eq_of_toNat_eq ?_
  rw [State.rootWord, BitVec.toNat_or, BitVec.toNat_setWidth, hmod, BitVec.toNat_append, BitVec.toNat_append]
  cases s.rootValid <;> simp [bitWord]

/-- A number below 512 as a word is its nine bits under zeros. -/
theorem word_of_lt_512 {n : Nat} (hn : n < 2 ^ 9) : BitVec.ofNat 32 n = 0#23 ++ BitVec.ofNat 9 n := by
  refine BitVec.eq_of_toNat_eq ?_
  rw [BitVec.toNat_append]
  simp
  omega

/-- `COUNTS` with its fields side by side, when the numbers fit (10_state.md R41). -/
theorem countsWord_eq (hn : s.nodeNext < 2 ^ 9) (hl : s.leafCount < 2 ^ 9) :
    s.countsWord = 0#7 ++ BitVec.ofNat 9 s.nodeNext ++ 0#7 ++ BitVec.ofNat 9 s.leafCount := by
  have word (n : Nat) (h : n < 2 ^ 9) : (BitVec.ofNat 32 n).toNat = n := Nat.mod_eq_of_lt (by omega)
  have field (n : Nat) (h : n < 2 ^ 9) : (BitVec.ofNat 9 n).toNat = n := Nat.mod_eq_of_lt h
  have hshift : s.nodeNext <<< 16 % 2 ^ 32 = s.nodeNext <<< 16 := by
    rw [Nat.shiftLeft_eq]
    omega
  refine BitVec.eq_of_toNat_eq ?_
  rw [State.countsWord, BitVec.toNat_or, BitVec.toNat_shiftLeft, word _ hn, word _ hl, hshift]
  simp only [BitVec.toNat_append, field _ hn, field _ hl]
  simp [← Nat.shiftLeft_add]

/-- The bounds of the numbers that `COUNTS` and `WCLEN` show (10_state.md R48 items 1 and 6). -/
theorem BlockInv.counters_fit (h : BlockInv s) :
    s.nodeNext < 2 ^ 9 ∧ s.leafCount < 2 ^ 9 ∧ s.wc.length < 2 ^ 9 := by
  have h1 := h.store.nodeNext_le
  have h2 := h.store.leafCount_le
  have h3 := h.store.leafCount_le_nodeNext
  have h4 := h.store.wc_length
  omega

/-- Settles O25: the fields side by side, which hold their numbers by the bounds of the invariant. -/
theorem rootAndCounterRegisters : Obligations.RootAndCounterRegisters := by
  unfold Obligations.RootAndCounterRegisters
  intro s h
  obtain ⟨hn, hl, hw⟩ := h.counters_fit
  have hroot : region 0x006 = .reg .root := region_reg (show 6 < 10 by decide)
  have hcounts : region 0x007 = .reg .counts := region_reg (show 7 < 10 by decide)
  have hlen : region 0x008 = .reg .wcLen := region_reg (show 8 < 10 by decide)
  refine ⟨fun hb => ⟨?_, ?_, ?_, hn, hl, hw⟩, ?_, fun hb => ⟨?_, ?_, ?_⟩⟩
  · rw [memRead_idle hb hroot (by simp), ← rootWord_eq]; rfl
  · rw [memRead_idle hb hcounts (by simp), ← countsWord_eq hn hl]; rfl
  · rw [memRead_idle hb hlen (by simp), ← word_of_lt_512 hw]; rfl
  · simp only [List.forall_mem_cons, List.not_mem_nil, false_implies, implies_true, and_true]
    exact ⟨memRead_idle rfl hroot (by simp), memRead_idle rfl hcounts (by simp), memRead_idle rfl hlen (by simp)⟩
  · exact memRead_busy hb hroot (by simp) (by simp) rfl
  · exact memRead_busy hb hcounts (by simp) (by simp) rfl
  · exact memRead_busy hb hlen (by simp) (by simp) rfl

end Sys2Proof.Machine

namespace Sys2Proof.Machine

variable {s t : State}

/-! ### The address map against the spec's lists of addresses -/

/-- The registers whose busy-time reads are unspecified: `ROOT`, `COUNTS`, `WCLEN` (20_memory.md R73). -/
theorem regAt_busyUnspecified {a : Nat} (ha : a < 10) :
    (Region.reg (regAt a)).busyUnspecified = true ↔ 6 ≤ a ∧ a ≤ 8 := by
  interval_cases a <;> simp [regAt, Region.busyUnspecified]

/-- What the address map says is unmapped is the spec's list (20_memory.md R69). -/
theorem region_unmapped_iff (addr : Addr) : region addr = .unmapped ↔ SpecUnmapped addr.toNat := by
  have hlt := addr.isLt
  unfold region
  generalize addr.toNat = a at hlt ⊢
  dsimp only
  split_ifs <;> simp <;> omega

/-- The locations with unspecified busy-time reads are the spec's list (20_memory.md R73). -/
theorem region_busyUnspecified_iff (addr : Addr) :
    (region addr).busyUnspecified = true ↔ SpecBusyUnspecified addr.toNat := by
  have hlt := addr.isLt
  unfold region
  generalize addr.toNat = a at hlt ⊢
  dsimp only
  split_ifs with h
  · rw [regAt_busyUnspecified h]; omega
  all_goals simp [Region.busyUnspecified]; omega

/-! ### Words with their fields side by side -/

/-- Two fields side by side, as a word: the upper one shifted past the lower one. -/
theorem word_append {n m : Nat} (x : BitVec n) (y : BitVec m) :
    (x ++ y).setWidth 32 = (x.setWidth 32 <<< m) ||| y.setWidth 32 := by
  refine BitVec.eq_of_getLsbD_eq fun i hi => ?_
  simp only [BitVec.getLsbD_setWidth, BitVec.getLsbD_append, BitVec.getLsbD_or, BitVec.getLsbD_shiftLeft, hi,
    decide_true, Bool.true_and]
  by_cases hm : i < m
  · simp [hm]
  · have hy : y.getLsbD i = false := BitVec.getLsbD_of_ge _ _ (by omega)
    simp [hm, hy, show i - m < 32 by omega]

/-- A flag at its position in a word. -/
theorem bitWord_eq (b : Bool) (i : Nat) : bitWord b i = (BitVec.ofBool b).setWidth 32 <<< i := by
  cases b <;> simp [bitWord]

/-- `LINK` with its fields side by side (20_memory.md R66). -/
theorem linkWord_eq (e : Option Node) : linkWord e =
    BitVec.ofBool (entryValid e) ++ BitVec.ofBool (entryKind e) ++ 0#4 ++ entryRep e ++ entryRight e ++
      entryLeft e := by
  refine Eq.trans ?_ (BitVec.setWidth_eq (n := 32) _)
  simp only [word_append, linkWord, bitWord_eq, BitVec.shiftLeft_or_distrib, ← BitVec.shiftLeft_add]
  simp

/-- A field alone in a word, under zeros. -/
theorem word_zero_append {n m : Nat} (x : BitVec n) : (0#m ++ x).setWidth 32 = x.setWidth 32 := by
  rw [word_append]
  simp

/-! ### The windows -/

/-- A result location other than one of `FT` takes no host write (60_exceptions.md R196). -/
theorem memWrite_readOnly {addr : Addr} {r : Region} (hr : region addr = r) (hu : r.busyUnspecified = true)
    (hft : ∀ b, r ≠ .ft b) (v : Word) (s : State) : memWrite addr v s = .next (s.raiseErr .roWrite) := by
  unfold memWrite
  rw [hr]
  cases r with
  | reg q => cases q <;> simp [Region.busyUnspecified] at hu ⊢
  | unmapped => simp [Region.busyUnspecified] at hu
  | ft b => exact absurd rfl (hft b)
  | wc i => rfl
  | node n f => rfl
  | cb b w => rfl

theorem memRead_wc (hb : s.busy = false) {j : Nat} (hj : j < 256) :
    memRead (BitVec.ofNat 13 (0x200 + j)) s = s.reply ((s.wc[j]?.getD 0).setWidth 32) :=
  memRead_idle hb (region_wc hj) (by simp)

/-- Settles O26: each address of the two windows names its entry. -/
theorem tableAndCollectionWindows : Obligations.TableAndCollectionWindows := by
  unfold Obligations.TableAndCollectionWindows
  intro s j hj
  refine ⟨fun hb => memRead_idle hb (region_ft hj) (by simp),
    fun hb => memRead_busy hb (region_ft hj) (by simp) (by simp) rfl, fun hb h => ?_, fun hb h => ?_,
    fun v => memWrite_readOnly (region_wc hj) rfl (by simp) v s⟩
  · rw [memRead_wc hb hj, List.getElem?_eq_getElem h]
    exact congrArg s.reply (word_zero_append (m := 23) s.wc[j]).symm
  · rw [memRead_wc hb hj, List.getElem?_eq_none h]
    rfl

/-- A word of an entry that is not valid is 0 (20_memory.md R68). -/
theorem nodeWord_none (f : Nat) : nodeWord none f = 0 := by
  match f with
  | 0 => rfl
  | 1 => rfl
  | 2 => rfl
  | _ + 3 => rfl

/-- Settles O27: each address of the window names its word, whose fields stand side by side. -/
theorem nodeWindow : Obligations.NodeWindow := by
  unfold Obligations.NodeWindow
  intro s n hn
  have read (hb : s.busy = false) (f : Nat) (hf : f < 4) :
      memRead (BitVec.ofNat 13 (0x800 + 4 * n + f)) s = s.reply (nodeWord (s.entry n) f) :=
    memRead_idle hb (region_node hn hf) (by simp)
  refine ⟨fun hb => ⟨read hb 0 (by decide), ?_, ?_, ?_⟩, fun hb hv f hf => ?_,
    fun f hf v => memWrite_readOnly (region_node hn hf) rfl (by simp) v s⟩
  · rw [show 0x801 + 4 * n = 0x800 + 4 * n + 1 by omega, read hb 1 (by decide)]
    exact congrArg s.reply (word_zero_append (m := 24) _).symm
  · rw [show 0x802 + 4 * n = 0x800 + 4 * n + 2 by omega, read hb 2 (by decide)]
    exact congrArg s.reply (linkWord_eq _)
  · rw [show 0x803 + 4 * n = 0x800 + 4 * n + 3 by omega, read hb 3 (by decide)]
    rfl
  · have hnone : s.entry n = none := by simpa [entryValid] using hv
    rw [read hb f hf, hnone, nodeWord_none]

/-- Symbol `32 * w + j` of a code is bit `j` of word `w` (20_memory.md R67). -/
theorem codeWord_getLsbD (c : Code) {w j : Nat} (hw : w < 8) (hj : j < 32) :
    (codeWord (some c) w).getLsbD j = c.bits.getLsbD (32 * w + j) := by
  simp [codeWord, hw, hj]

/-- `INFO` of a valid entry with its fields side by side (20_memory.md R67). -/
theorem codeWord_info (c : Code) : codeWord (some c) 8 = 1#1 ++ 0#23 ++ c.len := by
  show bitWord true 31 ||| c.len.setWidth 32 = _
  refine Eq.trans ?_ (BitVec.setWidth_eq (n := 32) _)
  simp only [word_append, bitWord_eq, BitVec.shiftLeft_or_distrib, ← BitVec.shiftLeft_add]
  simp

/-- The reserved words (20_memory.md R68). -/
theorem codeWord_reserved (c : Option Code) {w : Nat} (hw : 9 ≤ w) : codeWord c w = 0 := by
  cases c with
  | none => rfl
  | some c => simp [codeWord, show ¬ w < 8 by omega, show w ≠ 8 by omega]

/-- Settles O28: each address of the window names its word. -/
theorem codeBookWindow : Obligations.CodeBookWindow := by
  unfold Obligations.CodeBookWindow
  intro s b hb
  have read (hidle : s.busy = false) (w : Nat) (hw : w < 16) :
      memRead (BitVec.ofNat 13 (0x1000 + 16 * b + w)) s = s.reply (codeWord (s.codeOf b) w) :=
    memRead_idle hidle (region_cb hb hw) (by simp)
  refine ⟨fun hidle => ⟨fun w hw => ⟨_, read hidle w (by omega), fun j hj => ?_⟩, ?_, fun w hw h9 => ?_⟩,
    fun w hw v => memWrite_readOnly (region_cb hb hw) rfl (by simp) v s⟩
  · cases s.codeOf b with
    | none => exact BitVec.getLsbD_zero
    | some c => exact codeWord_getLsbD c hw hj
  · rw [show 0x1008 + 16 * b = 0x1000 + 16 * b + 8 by omega, read hidle 8 (by decide)]
    cases s.codeOf b with
    | none => rfl
    | some c => exact congrArg s.reply (codeWord_info c)
  · rw [read hidle w hw, codeWord_reserved _ h9]

/-! ### Busy-time reads, and reads at large -/

/-- Settles O29: an address of the one list draws a free value; the rest are the six always-defined registers. -/
theorem busyTimeReads : Obligations.BusyTimeReads := by
  unfold Obligations.BusyTimeReads
  intro s addr hb hmapped hstatus
  refine ⟨fun hu => ?_, fun hu => ?_⟩
  · have hr := (region_busyUnspecified_iff addr).mpr hu
    refine memRead_busy hb rfl (fun h => hmapped ((region_unmapped_iff addr).mp h)) (fun h => ?_) hr
    simp [h, Region.busyUnspecified] at hr
  · obtain ⟨hid, hcmd, hien, hipend, herr, hparams⟩ := alwaysDefinedRegisters s
    have hlt := addr.isLt
    have haddr : addr = 0x000 ∨ addr = 0x001 ∨ addr = 0x003 ∨ addr = 0x004 ∨ addr = 0x005 ∨ addr = 0x009 := by
      simp only [SpecUnmapped, SpecBusyUnspecified] at hmapped hu
      bv_omega
    rcases haddr with rfl | rfl | rfl | rfl | rfl | rfl
    · exact hid
    · exact hcmd
    · exact hien
    · exact hipend
    · exact herr
    · exact hparams

/-- A location holds the same after a read (20_memory.md R72). -/
theorem peek_reply (w : Word) (r : Region) : (s.reply w).peek r = s.peek r := by
  cases r with
  | reg q => cases q <;> rfl
  | unmapped => rfl
  | ft b => rfl
  | wc i => rfl
  | node n f => rfl
  | cb b w => rfl

/-- Settles O31, by the three things a read can do. -/
theorem readsHaveNoSideEffect : Obligations.ReadsHaveNoSideEffect := by
  unfold Obligations.ReadsHaveNoSideEffect
  intro s addr
  rw [← region_unmapped_iff]
  rcases memRead_cases addr s with ⟨hu, hr⟩ | ⟨hm, hb, f, hr⟩ | ⟨hm, hr⟩
  · refine ⟨fun hm => absurd hu hm, fun _ => by rw [hr]; rfl, fun _ => ⟨0, by rw [hr]; rfl, ?_⟩⟩
    simp [memRead, hu]
  · exact ⟨fun _ => by rw [hr]; rfl, fun hu => absurd hu hm, fun hidle => by simp [hb] at hidle⟩
  · refine ⟨fun _ => by rw [hr]; rfl, fun hu => absurd hu hm, fun hidle => ⟨_, by rw [hr]; rfl, ?_⟩⟩
    rw [hr, memRead_idle (s := s.reply _) hidle rfl hm, peek_reply]
    rfl

/-! ### One step -/

/-- Settles O8: a step with a next event is that event; the sequencer's turn has no effect while the block is idle. -/
theorem stepPerformsTheNextEvent : Obligations.StepPerformsTheNextEvent := by
  unfold Obligations.StepPerformsTheNextEvent
  intro s rest
  have idle (u : State) (hb : u.busy = false) : complete u = .next u := by simp [complete, hb]
  refine ⟨fun addr he => ?_, fun addr v he => ?_, fun he => ?_, fun he hb => ?_, fun he hb => ?_⟩ <;>
    simp only [step, he]
  · rfl
  · rfl
  · rfl
  · exact idle _ hb
  · exact idle s hb

/-! ### What the host does while a command runs -/

/-- The host's side of a state: the fields no command works on. -/
def State.hostSide (s : State) : Outside where
  ien := s.ien
  ipend := s.ipend
  errCode := s.errCode
  curCmd := s.curCmd
  replies := s.replies
  draws := s.draws
  busy := s.busy
  events := s.events

theorem outside_hostSide (s : State) : s.outside s.hostSide = s := rfl

/-- Two busy states that look the same to the host have the same host's side. -/
theorem SameWhileBusy.hostSide_eq (h : SameWhileBusy s t) : t.hostSide = s.hostSide := by
  obtain ⟨⟨hs, ht⟩, hcur, hien, hpend, herr, hev, hrep, hdr⟩ := h
  simp [State.hostSide, *]

/-- From the host's side `r` on, `f` changes the host's side alone, and to the same one whatever the stores hold; the
running command goes on. -/
def KeepsWork (f : State → Result) (r : Outside) : Prop :=
  ∃ r' : Outside, r'.busy = true ∧ r'.curCmd = r.curCmd ∧ ∀ s : State, f (s.outside r) = .next (s.outside r')

variable {r : Outside} {f : State → Result} {op : State → State}

/-- The host's side that an operation leaves may be read off from any stores, such as those of the reset state. -/
theorem KeepsWork.of_op (hb : (op (State.reset.outside r)).busy = true)
    (hc : (op (State.reset.outside r)).curCmd = r.curCmd)
    (hf : ∀ s : State, f (s.outside r) = .next (op (s.outside r)))
    (hop : ∀ s : State, op (s.outside r) = s.outside (op (State.reset.outside r)).hostSide) : KeepsWork f r :=
  ⟨_, hb, hc, fun s => by rw [hf, hop]⟩

theorem KeepsWork.of_raiseErr (e : ErrorKind) (hb : r.busy = true)
    (hf : ∀ s : State, f (s.outside r) = .next ((s.outside r).raiseErr e)) : KeepsWork f r :=
  .of_op (op := (State.raiseErr · e)) hb rfl hf fun _ => rfl

/-- A location with a true busy-time reading holds the same word whatever the command works on (20_memory.md R73). -/
theorem peek_outside {q : Region} (hs : q ≠ .reg .status) (hu : q.busyUnspecified = false) (s t : State) :
    (s.outside r).peek q = (t.outside r).peek q := by
  cases q with
  | reg g => cases g <;> simp [Region.busyUnspecified] at hs hu <;> rfl
  | unmapped => rfl
  | _ => simp [Region.busyUnspecified] at hu

/-- A busy-time read is answered from the host's side and the free values alone (20_memory.md R73). -/
theorem memRead_keepsWork (hb : r.busy = true) (addr : Addr) : KeepsWork (perform (.read addr)) r := by
  have hbusy (s : State) : (s.outside r).busy = true := hb
  by_cases hm : region addr = .unmapped
  · exact .of_op (op := fun s => (s.raiseErr .badAddr).reply 0) hb rfl (fun s => by simp [perform, memRead, hm])
      fun _ => rfl
  by_cases hs : region addr = .reg .status
  · exact .of_op (op := fun s => s.replyDrawn s.busyStatusWord) hb rfl (fun s => by simp [perform, memRead, hbusy, hs])
      fun _ => rfl
  cases hu : (region addr).busyUnspecified with
  | true =>
    exact .of_op (op := fun s => s.replyDrawn id) hb rfl (fun s => by rw [perform, memRead_busy (hbusy s) rfl hm hs hu])
      fun _ => rfl
  | false =>
    refine .of_op (op := fun s => s.reply (s.peek (region addr))) hb rfl
      (fun s => by rw [perform, memRead_defined rfl hm hs hu]) fun s => ?_
    rw [peek_outside hs hu s State.reset]
    rfl

/-- A busy-time write other than that of `SRST` records an error or writes an event register (20_memory.md R82). -/
theorem memWrite_keepsWork (hb : r.busy = true) {addr : Addr} {v : Word} (hv : addr = 0x001 → v ≠ 0x00000008) :
    KeepsWork (perform (.write addr v)) r := by
  have hbusy (s : State) : (s.outside r).busy = true := hb
  have hperform (s : State) : perform (.write addr v) s = memWrite addr v s := rfl
  cases hr : region addr with
  | reg g =>
    cases g with
    | cmd =>
      have hsrst := hv (addr_of_region_cmd hr)
      exact .of_raiseErr .busy hb fun s => by simp only [hperform, memWrite, hr, issue_of_busy hsrst (hbusy s)]
    | ien =>
      exact .of_op (op := fun s => { s with ien := v.extractLsb' 0 2 }) hb rfl
        (fun s => by simp only [hperform, memWrite, hr]) fun _ => rfl
    | ipend =>
      exact .of_op (op := (State.ackEvents · v)) hb rfl (fun s => by simp only [hperform, memWrite, hr]) fun _ => rfl
    | _ => exact .of_raiseErr .roWrite hb fun s => by simp only [hperform, memWrite, hr]
  | unmapped => exact .of_raiseErr .badAddr hb fun s => by simp only [hperform, memWrite, hr]
  | ft b =>
    exact .of_raiseErr .busy hb fun s => by
      simp only [hperform, memWrite, hr, State.hostFreqWrite, hbusy, if_true]
  | _ => exact .of_raiseErr .roWrite hb fun s => by simp only [hperform, memWrite, hr]

/-- A transaction other than a reset leaves a running command and what it works on alone, and answers nothing that
depends on it (20_memory.md R73, R76). -/
theorem perform_keepsWork (hb : r.busy = true) {e : Event} (hc : e ≠ .completion) (hr : e ≠ .hardReset)
    (hs : e ≠ .write 0x001 0x00000008) : KeepsWork (perform e) r := by
  cases e with
  | read addr => exact memRead_keepsWork hb addr
  | write addr v => exact memWrite_keepsWork hb fun ha hv => hs (by rw [ha, hv])
  | completion => exact absurd rfl hc
  | hardReset => exact absurd rfl hr

/-- Both resets, by `rst_n` and by a legal `SRST` (70_reset_and_hazards.md R220). -/
theorem perform_reset {e : Event} (he : e = .hardReset ∨ e = .write 0x001 0x00000008) (s : State) :
    perform e s = .next s.resetBlock := by
  rcases he with rfl | rfl
  · rfl
  · have hd : decode 0x00000008 = .ok .srst := rfl
    simp only [perform, memWrite, region_cmd, issue, hd]
    rfl

/-- A step whose next event is `e`, from the state's stores and the host's side without that event. -/
theorem step_cons {e : Event} {rest : List Event} (he : s.events = e :: rest) :
    step s = perform e (s.outside { s.hostSide with events := rest }) := by
  simp only [step, he]
  rfl

/-- Settles O30: a reset leaves the same state of both blocks, any other transaction the same host's side. -/
theorem runningCommandRevealsNothing : Obligations.RunningCommandRevealsNothing := by
  unfold Obligations.RunningCommandRevealsNothing
  intro s s' t t' e rest hsame he hc ht ht'
  rw [step_cons he] at ht
  rw [step_cons (hsame.events.trans he), hsame.hostSide_eq] at ht'
  by_cases hreset : e = .hardReset ∨ e = .write 0x001 0x00000008
  · rw [perform_reset hreset] at ht ht'
    cases ht
    cases ht'
    exact .inr ⟨⟨rest, hreset.imp (fun h => by rw [he, h]) fun h => by rw [he, h]⟩, rfl⟩
  · obtain ⟨hr, hs⟩ := not_or.mp hreset
    obtain ⟨r', hb, -, hr'⟩ := perform_keepsWork (r := { s.hostSide with events := rest }) hsame.busy.1 hc hr hs
    cases (hr' s).symm.trans ht
    cases (hr' s').symm.trans ht'
    exact .inl ⟨⟨hb, hb⟩, rfl, rfl, rfl, rfl, rfl, rfl, rfl⟩

/-! ### The completion under other transactions -/

/-- The host's side after a completion (43_system.md R183). -/
def Outside.completed (r : Outside) : Outside := { r with busy := false, ipend := r.ipend ||| 1 }

theorem completed_outside (s : State) (r : Outside) : (s.outside r).completed = s.completed.outside r.completed := rfl

/-- A completion that is a body and the last line commutes with the host's side if its body does. -/
theorem bodyCompletion_outside {completion : State → Result} {body : State → Option State} {fault : Fault}
    (hcomp : ∀ s, completion s = (body s).elim (.fault fault) fun u => .next u.completed)
    (hbody : body (s.outside r) = (body s).map fun u => u.outside r) (h : completion s = .next t) :
    completion (s.outside r) = .next (t.outside r.completed) := by
  rw [hcomp] at h ⊢
  rw [hbody]
  cases hm : body s with
  | none => simp [hm] at h
  | some u =>
    obtain rfl : u.completed = t := by simpa [hm] using h
    rfl

/-- The last part of `DERIVE` and of `RUN` alike. -/
theorem deriveCompletion_outside (h : deriveCompletion s = .next t) :
    deriveCompletion (s.outside r) = .next (t.outside r.completed) :=
  bodyCompletion_outside (fun s => by unfold deriveCompletion; cases s.deriveBody <;> rfl) (outside_deriveBody s r) h

/-- A completion does its work whatever the host's side is, and leaves its own last line there (20_memory.md R76). -/
theorem completionOf_outside {i : Instr} (hi : i ≠ .srst) (h : completionOf i s = .next t) (r : Outside) :
    completionOf i (s.outside r) = .next (t.outside r.completed) := by
  cases i with
  | nop => cases h; rfl
  | clrf => cases h; rfl
  | cmp a b => cases h; rfl
  | srst => exact absurd rfl hi
  | init =>
    simp only [completionOf, initCompletion, outside_makeLeaves, Host.Outcome.next.injEq] at h ⊢
    subst h
    rw [outside_finish, ← completed_outside, apply_ite (State.outside · r)]
    rfl
  | step =>
    exact bodyCompletion_outside (completion := stepCompletion)
      (fun s => by unfold stepCompletion; cases s.merge <;> rfl) (outside_merge s r) h
  | build =>
    exact bodyCompletion_outside (completion := buildCompletion)
      (fun s => by unfold buildCompletion; cases s.buildBody <;> rfl) (outside_buildBody s r) h
  | derive => exact deriveCompletion_outside h
  | run =>
    simp only [completionOf, runCompletion, outside_buildBody] at h ⊢
    cases hm : s.buildBody with
    | none => simp [hm] at h
    | some u => exact deriveCompletion_outside (by simpa [hm] using h)

/-- Settles O48: the transaction changes the host's side alone, with which the latched command's completion commutes. -/
theorem runningCommandIsUndisturbed : Obligations.RunningCommandIsUndisturbed := by
  unfold Obligations.RunningCommandIsUndisturbed
  intro s s' e hinv hb hc hr hs hperform
  obtain ⟨r', hb', hcur, hr'⟩ := perform_keepsWork (r := s.hostSide) hb hc hr hs
  have hs' := hr' s
  rw [outside_hostSide, hperform] at hs'
  cases hs'
  obtain ⟨i, hd, hi, ho⟩ := hinv.latched hb
  obtain ⟨t, ht, -, -⟩ := inv_completionOf hinv hi ho
  have ht' := completionOf_outside hi ht r'
  have hd' : decode (s.outside r').curCmd = .ok i := (congrArg decode hcur).trans hd
  refine ⟨⟨rfl, rfl, rfl, rfl, rfl, rfl, rfl, rfl, rfl, rfl⟩, hcur, hb', t, t.outside r'.completed, ?_, ?_,
    ⟨rfl, rfl, rfl, rfl, rfl, rfl, rfl, rfl, rfl, rfl⟩, ?_⟩
  · rw [complete_busy hb hd hi, exec_busy hb, ht]
  · rw [complete_busy hb' hd' hi, exec_busy hb', ht']
  · show (r'.ipend ||| 1).getLsbD 0 = true
    simp

end Sys2Proof.Machine

/-! ### The codec -/

namespace Sys2Proof

/-- The one command with operands is well-formed exactly if both fit their fields (30_encoding.md R92). -/
theorem wellFormed_cmp {a b : Nat} : (Instr.cmp a b).WellFormed ↔ a < 512 ∧ b < 512 := by
  simp [Instr.WellFormed, Instr.wellFormed, operandFits]

theorem wellFormed_of_ne_cmp {i : Instr} (h : ∀ a b, i ≠ .cmp a b) : i.WellFormed := by
  cases i with
  | cmp a b => exact absurd rfl (h a b)
  | _ => rfl

/-- Each field of the word of `CMP` reads back what was put in it; the other words are constants. -/
theorem decode_encode {i : Instr} (h : i.WellFormed) : decode (encode i) = .ok i := by
  cases i with
  | cmp a b =>
    obtain ⟨ha, hb⟩ := wellFormed_cmp.mp h
    simp [decode, opField_cmpWord, rsvField_cmpWord ha hb, aField_cmpWord ha, bField_cmpWord ha hb]
  | _ => rfl

end Sys2Proof

namespace Sys2Proof.Machine

/-- What a word decodes to is `CMP` with that word's two fields, or has no operands (30_encoding.md R91, R92). -/
theorem operands_of_decode {w : Word} {i : Instr} (h : decode w = .ok i) :
    i = .cmp (operandA w) (operandB w) ∨ ∀ a b, i ≠ .cmp a b := by
  rw [decode_eq] at h
  split at h
  · split at h
    · exact .inl (Except.ok.inj h).symm
    · cases h
  · split at h
    · split at h
      · obtain rfl := Except.ok.inj h
        right
        intro a b
        split <;> simp
      · cases h
    · cases h

theorem wellFormed_of_decode {w : Word} {i : Instr} (h : decode w = .ok i) : i.WellFormed := by
  obtain rfl | hne := operands_of_decode h
  · exact wellFormed_cmp.mpr ⟨Nat.mod_lt _ (by norm_num), Nat.mod_lt _ (by norm_num)⟩
  · exact wellFormed_of_ne_cmp hne

/-- The converse of `specLegal_of_decode`: every word of a legal form decodes (30_encoding.md R94). -/
theorem decode_of_specLegal {w : Word} (h : SpecLegal w) : ∃ i, decode w = .ok i := by
  rw [decode_eq]
  obtain ⟨hle, ⟨hop, hrsv⟩ | ⟨hop, hup⟩⟩ := h
  · exact ⟨_, by rw [if_pos hop, if_pos hrsv]⟩
  · exact ⟨_, by rw [if_neg hop, if_pos hle, if_pos hup]⟩

/-- Settles O3: the fields of an encoded command read back, command by command. -/
theorem decodeOfEncodeIsTheCommand : Obligations.DecodeOfEncodeIsTheCommand :=
  fun _ => decode_encode

/-- Settles O1: exactly the words of a legal form decode, and only `CMP` reads the operand fields. -/
theorem legalWordsAreTheCommands : Obligations.LegalWordsAreTheCommands := by
  unfold Obligations.LegalWordsAreTheCommands
  intro w
  refine ⟨fun hlegal => ?_, fun hillegal => ?_, fun a b hd => ?_⟩
  · obtain ⟨i, hd⟩ := decode_of_specLegal hlegal
    exact ⟨i, wellFormed_of_decode hd, hd⟩
  · cases hd : decode w with
    | ok i => exact absurd (specLegal_of_decode hd) hillegal
    | error e => exact ⟨e, rfl⟩
  · obtain hcmp | hne := operands_of_decode hd
    · exact Instr.cmp.inj hcmp
    · exact absurd rfl (hne a b)

/-- Settles O4: the fields that the decoder reads and the zeros it requires are the whole word. -/
theorem encodeOfDecodeIsTheWord : Obligations.EncodeOfDecodeIsTheWord :=
  fun _ _ hd => ⟨wellFormed_of_decode hd, encode_of_decode hd⟩

/-- Settles O2: the legal words are the encodings of their commands; each illegal one is evaluated. -/
theorem writtenCommandWordsDecode : Obligations.WrittenCommandWordsDecode :=
  ⟨decode_encode (i := .nop) rfl, decode_encode (i := .clrf) rfl, decode_encode (i := .init) rfl,
    decode_encode (i := .step) rfl, decode_encode (i := .build) rfl, decode_encode (i := .derive) rfl,
    decode_encode (i := .run) rfl, decode_encode (i := .srst) rfl, decode_encode (i := .cmp 0 0) rfl,
    decode_encode (i := .cmp 0 1) rfl, decode_encode (i := .cmp 1 0) rfl, decode_encode (i := .cmp 511 511) rfl,
    by decide⟩

end Sys2Proof.Machine

/-! ### The frequency table -/

namespace Sys2Proof.Machine

variable {s : State}

/-- A host write to the `FT` window is the write to the entry that the address names (20_memory.md R82). -/
theorem memWrite_ft {b : Nat} (hb : b < 256) (v : Word) (s : State) :
    memWrite (BitVec.ofNat 13 (0x100 + b)) v s = .next (s.hostFreqWrite b v) := by
  rw [memWrite, region_ft hb]

theorem hostFreqWrite_busy (h : s.busy = true) (b : Nat) (v : Word) : s.hostFreqWrite b v = s.raiseErr .busy :=
  if_pos h

theorem hostFreqWrite_idle (h : s.busy = false) (b : Nat) (v : Word) :
    s.hostFreqWrite b v = (s.setFreq b v).setPhase .empty := by
  simp [State.hostFreqWrite, h]

/-- Settles O21: the address names entry `b`, which an idle block stores and then reads back. -/
theorem frequencyTableWrite : Obligations.FrequencyTableWrite := by
  unfold Obligations.FrequencyTableWrite
  intro s b v hb
  rw [memWrite_ft hb]
  refine ⟨fun hbusy => by rw [hostFreqWrite_busy hbusy], fun hidle => ?_⟩
  have hfreq (c : Nat) : ((s.setFreq b v).setPhase .empty).freqOf c = if c = b then v else s.freqOf c :=
    (State.freqOf_setFreq hb v c).trans (by simp only [eq_comm])
  refine ⟨(s.setFreq b v).setPhase .empty, by rw [hostFreqWrite_idle hidle], rfl, hfreq, ?_⟩
  rw [memRead_idle (s := (s.setFreq b v).setPhase .empty) hidle (region_ft hb) (by simp)]
  exact congrArg _ ((hfreq b).trans (if_pos rfl))

/-- A command that no phase objects to is accepted in every phase, and refused only while one runs
(43_system.md R182, R187). -/
theorem acceptedAlways_of_no_objection {i : Instr} {w : Word} (hd : decode w = .ok i) (hi : i ≠ .srst)
    (ho : ∀ s : State, s.objection i = none) : AcceptedAlways i w where
  encoding := hd
  accepted s hidle := by
    rw [issue_of_idle hd hi hidle, issueLegal_accepted (ho s), encode_of_decode hd]
    rfl
  refused s hbusy := by
    refine issue_of_busy (fun hw => hi ?_) hbusy
    rw [(decode_eq_srst_iff w).mpr hw] at hd
    exact (Except.ok.inj hd).symm

/-- Settles O34: `CLRF` meets no objection, and its completion writes only the table, `PHASE` and the last line. -/
theorem clrfCompletes : Obligations.ClrfCompletes := by
  unfold Obligations.ClrfCompletes
  refine ⟨acceptedAlways_of_no_objection (decode_encode (i := .clrf) rfl) (by decide) fun _ => rfl, fun s hbusy => ?_⟩
  exact ⟨(s.clearFreqs.setPhase .empty).completed, exec_busy hbusy, fun b _ => State.freqOf_clearFreqs s b, rfl⟩

end Sys2Proof.Machine

/-! ### Selection among members whose keys differ -/

namespace Sys2Proof.Machine

/-- Both directions hold only between trees of equal representatives (41_tree_builder.md R121 item 5). -/
theorem treeBefore_antisymm {x y : CodeTree} (h : treeBefore x y = true) (h' : treeBefore y x = true) :
    x.rep = y.rep := by
  rw [treeBefore_iff] at h h'
  bv_omega

/-- The members of a good working collection have pairwise different representatives (10_state.md R48 item 8). -/
theorem BlockInv.members_reps {s : State} (h : BlockInv s) : (s.members.map entryRep).Nodup := by
  rw [State.members, List.map_map]
  exact h.store.wc_reps

/-- Settles O50: an exact tie would need equal representatives, which no two members have. -/
theorem tieKeepIsUnobservable : Obligations.TieKeepIsUnobservable := by
  unfold Obligations.TieKeepIsUnobservable
  intro s keep h
  have hreps : s.members.Pairwise fun x y => entryRep x ≠ entryRep y := List.pairwise_map.mp h.members_reps
  refine selectTwo_keep_irrelevant (hreps.imp fun hne hboth => hne ?_) keep Config.tieKeep
  exact (comesBefore_antisymm hboth.1 hboth.2).2

/-! ### The construction on a collection in any order -/

/-- What comes before every member and is one of them. -/
def LeastTree (x : CodeTree) (l : List CodeTree) : Prop := x ∈ l ∧ ∀ z ∈ l, treeBefore x z = true

theorem LeastTree.of_perm {x : CodeTree} {l l' : List CodeTree} (h : LeastTree x l) (hp : l.Perm l') : LeastTree x l' :=
  ⟨hp.mem_iff.mp h.1, fun z hz => h.2 z (hp.mem_iff.mpr hz)⟩

/-- Where no two members have the same representative, there is one least member (41_tree_builder.md R121). -/
theorem LeastTree.unique {x y : CodeTree} {l : List CodeTree} (hl : (l.map CodeTree.rep).Nodup) (hx : LeastTree x l)
    (hy : LeastTree y l) : x = y :=
  List.inj_on_of_nodup_map hl hx.1 hy.1 (treeBefore_antisymm (hx.2 y hy.1) (hy.2 x hx.1))

/-- One round on at least two members: the least and the least of the rest give way to their combination
(41_tree_builder.md R128, R129). -/
theorem mergeTrees_spec {l : List CodeTree} (hl : 2 ≤ l.length) :
    ∃ x y rest l', mergeTrees l = some l' ∧ l.Perm (x :: y :: rest) ∧ LeastTree x l ∧ LeastTree y (y :: rest) ∧
      l'.Perm (treeCombine x y :: rest) := by
  obtain ⟨⟨i1, i2⟩, hsel⟩ := Option.isSome_iff_exists.mp
    ((selectTwo_isSome (keep := Config.tieKeep) (before := treeBefore)).mpr hl)
  obtain ⟨hne, x, y, hx, hy, hxmin, hymin⟩ := selectTwo_spec treeBefore_totalOrder hsel
  obtain ⟨rest, hperm, hrep⟩ := replacePair_perm (treeCombine x y) hne hx hy
  refine ⟨x, y, rest, _, by simp only [mergeTrees, hsel, hx, hy], hperm, ⟨List.mem_of_getElem? hx, hxmin⟩, ?_, hrep⟩
  refine ⟨List.mem_cons_self, fun z hz => ?_⟩
  have herase : (l.eraseIdx i1).Perm (y :: rest) := by
    obtain ⟨hlt, rfl⟩ := List.getElem?_eq_some_iff.mp hx
    exact ((List.getElem_cons_eraseIdx_perm hlt).trans hperm).cons_inv
  obtain ⟨k, hk, hkz⟩ := List.mem_eraseIdx_iff_getElem?.mp (herase.mem_iff.mpr hz)
  exact hymin k z hkz hk

/-- A round keeps the representatives different: the new one is one of the two it replaces. -/
theorem combined_reps_nodup {x y : CodeTree} {rest : List CodeTree}
    (h : ((x :: y :: rest).map CodeTree.rep).Nodup) : ((treeCombine x y :: rest).map CodeTree.rep).Nodup := by
  simp only [List.map_cons, List.nodup_cons, List.mem_cons, not_or] at h ⊢
  obtain ⟨⟨-, hx⟩, hy, hrest⟩ := h
  refine ⟨?_, hrest⟩
  rw [treeCombine_rep]
  rcases minByte_eq_or x.rep y.rep with hm | hm <;> rw [hm] <;> assumption

/-- One round on two orders of the same members leaves two orders of the same members. -/
theorem mergeTrees_perm {l l' : List CodeTree} (hp : l.Perm l') (hn : (l.map CodeTree.rep).Nodup) (hl : 2 ≤ l.length) :
    ∃ m m', mergeTrees l = some m ∧ mergeTrees l' = some m' ∧ m.Perm m' ∧ (m.map CodeTree.rep).Nodup := by
  obtain ⟨x, y, rest, m, hm, hperm, hx, hy, hrep⟩ := mergeTrees_spec hl
  obtain ⟨x', y', rest', m', hm', hperm', hx', hy', hrep'⟩ := mergeTrees_spec (hp.length_eq ▸ hl)
  obtain rfl : x = x' := hx.unique hn (hx'.of_perm hp.symm)
  have htail : (y :: rest).Perm (y' :: rest') := ((hperm.symm.trans hp).trans hperm').cons_inv
  have hn' : ((x :: y :: rest).map CodeTree.rep).Nodup := (hperm.map CodeTree.rep).nodup_iff.mp hn
  obtain rfl : y = y' := hy.unique (List.nodup_cons.mp hn').2 (hy'.of_perm htail.symm)
  refine ⟨m, m', hm, hm', hrep.trans ((htail.cons_inv.cons _).trans hrep'.symm), ?_⟩
  exact (hrep.map CodeTree.rep).nodup_iff.mpr (combined_reps_nodup hn')

/-- Settles O51, by induction on the number of members: each round selects the same two trees in either order. -/
theorem positionsAreUnobservable : Obligations.PositionsAreUnobservable := by
  unfold Obligations.PositionsAreUnobservable
  intro l
  induction hk : l.length generalizing l with
  | zero =>
    intro l' hp _
    rw [List.length_eq_zero_iff.mp hk] at hp ⊢
    rw [hp.nil_eq]
  | succ k ih =>
    intro l' hp hn
    by_cases hl : 2 ≤ l.length
    · obtain ⟨m, m', hm, hm', hpm, hnm⟩ := mergeTrees_perm hp hn hl
      rw [mergeToOne_step hm, mergeToOne_step hm']
      exact ih m (by have := mergeTrees_length hm; omega) m' hpm hnm
    · obtain ⟨t, rfl⟩ := List.length_eq_one_iff.mp (show l.length = 1 by omega)
      rw [hp.singleton_eq]

end Sys2Proof.Machine

/-! ### What a finished construction says of the table -/

namespace Sys2Proof.Machine

variable {s : State}

theorem ne_empty_of_finished (hp : s.phase = .tree ∨ s.phase = .codes) : s.phase ≠ .empty := by
  rcases hp with hp | hp <;> rw [hp] <;> decide

/-- Settles O53: a reachable state is good, and a good finished construction's root tree is the table's. -/
theorem finishedTreeAndCodesAreThoseOfTheTable : Obligations.FinishedTreeAndCodesAreThoseOfTheTable := by
  unfold Obligations.FinishedTreeAndCodesAreThoseOfTheTable
  intro s hs
  have h := reachableStatesMeetInvariant s hs
  refine ⟨fun hp => ?_, fun hp => ?_⟩
  · obtain ⟨htree, -, hsome⟩ := root_facts h hp
    rw [← htree]
    cases hv : s.rootValid with
    | false => simp [State.rootTree, hv]
    | true =>
      obtain ⟨-, t, ht⟩ := hsome hv
      simp [State.rootTree, State.treeOf, hv, ht]
  · rw [← (root_facts h (.inr hp)).1]
    exact h.codes hp

theorem mem_usedBytes {b : Nat} : b ∈ usedBytes s.ft ↔ b < 256 ∧ s.freqOf b ≠ 0 := by
  simp [usedBytes, State.freqOf]

/-- An entry that is not used adds nothing to the table's sum. -/
theorem sum_usedBytes (s : State) :
    ((usedBytes s.ft).map fun b => (s.freqOf b).toNat).sum = ((List.range 256).map fun b => (s.freqOf b).toNat).sum :=
  sum_filter _ _ _ fun b hb => by simp_all [State.freqOf]

/-- Settles O54: the root summarises its leaves, and its leaves are the table's used entries. -/
theorem rootSumsTheTable : Obligations.RootSumsTheTable := by
  unfold Obligations.RootSumsTheTable
  intro s h hp hv
  obtain ⟨t, ht, ⟨hfreq, ⟨p, hpt, hprep⟩, hmin⟩, hleaves⟩ := root_leaves h hp hv
  obtain ⟨hf, hr⟩ := treeWithin_sameKey ht
  have used {b : Nat} (hb : b ∈ usedBytes s.ft) : (BitVec.ofNat 8 b).toNat = b := by
    have := (usedBytes_lt hb).1
    simp; omega
  rw [State.entry_eq, hf, hr]
  refine ⟨?_, ?_, fun b hb hne => ?_⟩
  · rw [hfreq, (hleaves.map Prod.snd).sum_eq, List.map_map]
    exact sum_usedBytes s
  · obtain ⟨b, hb, rfl⟩ := List.mem_map.mp (hleaves.mem_iff.mp hpt)
    rw [← hprep, used hb]
    exact (mem_usedBytes.mp hb).2
  · have hmem : b ∈ usedBytes s.ft := mem_usedBytes.mpr ⟨hb, hne⟩
    have := hmin _ (hleaves.mem_iff.mpr (List.mem_map_of_mem hmem))
    rwa [BitVec.le_def, used hmem] at this

/-- The children of an entry have smaller indices (10_state.md R48 item 3). -/
theorem StoreInv.children_lt {nodes : Vector (Option Node) 511} {wc : List NodeIdx} {n k : Nat}
    (h : StoreInv nodes wc n k) {m c : Nat} (hm : m < n) (hc : c ∈ entryChildren (entryAt nodes m)) : c < m := by
  rcases Nat.lt_or_ge m k with hk | hk
  · have := h.leaf_kind m hk
    revert hc this
    cases entryAt nodes m with
    | none => simp [entryChildren]
    | some x => cases x <;> simp [entryChildren, entryKind]
  · obtain ⟨-, hl, hr, -⟩ := h.internal_kind m hm hk
    revert hc hl hr
    cases entryAt nodes m with
    | none => simp [entryChildren]
    | some x =>
      cases x with
      | leaf b f => simp [entryChildren]
      | internal r f a b =>
        simp only [entryChildren, entryLeft, entryRight, List.mem_cons, List.not_mem_nil, or_false]
        rintro (rfl | rfl) <;> omega

/-- The node allocated last is nobody's child, so it is a member (10_state.md R48 items 3 and 5). -/
theorem StoreInv.last_mem {nodes : Vector (Option Node) 511} {wc : List NodeIdx} {n k : Nat}
    (h : StoreInv nodes wc n k) (hn : 0 < n) : ∃ r ∈ wc, r.toNat = n - 1 := by
  have hmem := h.once.mem_iff.mpr (List.mem_range.mpr (show n - 1 < n by omega))
  rcases List.mem_append.mp hmem with hw | hc
  · exact List.mem_map.mp hw
  · obtain ⟨m, hm, hc⟩ := List.mem_flatMap.mp hc
    have hm := List.mem_range.mp hm
    have := h.children_lt hm hc
    omega

/-- A construction with at most one member: its counters, and its root is the last node (41_tree_builder.md R135). -/
theorem StoreInv.finished_counts {nodes : Vector (Option Node) 511} {wc : List NodeIdx} {n k : Nat}
    (h : StoreInv nodes wc n k) (hl : wc.length ≤ 1) :
    n = 2 * k - 1 ∧ (wc.length = 1 ↔ 1 ≤ k) ∧ (1 ≤ k → (wc.headD 0).toNat = 2 * k - 2) := by
  have hlen := h.wc_length
  have hle := h.leafCount_le_nodeNext
  rcases Nat.eq_zero_or_pos n with rfl | hn
  · omega
  · obtain ⟨r, hr, hrn⟩ := h.last_mem hn
    obtain ⟨r', rfl⟩ := List.length_eq_one_iff.mp (show wc.length = 1 by have := List.length_pos_of_mem hr; omega)
    obtain rfl := List.mem_singleton.mp hr
    simp only [List.length_singleton] at hlen
    exact ⟨by omega, iff_of_true rfl (by omega), fun _ => by rw [List.headD_cons]; omega⟩

/-- Settles O55: the counts are those of a forest with at most one member, whose leaves are the table's. -/
theorem nodeCountAndNumbering : Obligations.NodeCountAndNumbering := by
  unfold Obligations.NodeCountAndNumbering
  intro s h hp
  obtain ⟨hl, hvalid, hroot⟩ := h.finished ((finished_iff _).mpr hp)
  obtain ⟨hcount, hone, hidx⟩ := h.store.finished_counts hl
  have htable : s.leafCount = (usedBytes s.ft).length := by
    simpa using congrArg List.length (h.table (ne_empty_of_finished hp))
  refine ⟨htable, h.store.leafCount_le, h.store.nodeNext_le, fun hk => ⟨by omega, ?_⟩, fun hk => ⟨hcount, ?_, ?_⟩,
    h.store.leaf_kind, h.store.leaves_ascending, fun n hk hn => ?_⟩
  · rw [hvalid]; exact decide_eq_false (by omega)
  · rw [hvalid]; exact decide_eq_true (hone.mpr hk)
  · rw [hroot]; exact hidx hk
  · obtain ⟨hkind, hleft, hright, -⟩ := h.store.internal_kind n hn hk
    exact ⟨hkind, hleft, hright⟩

end Sys2Proof.Machine

/-! ### Issue and the last line of a completion, for any command -/

namespace Sys2Proof.Machine

variable {s t : State} {i : Instr} {w : Word}

/-- A command other than `SRST` is refused while one runs (43_system.md R182). -/
theorem issue_busy (hd : decode w = .ok i) (hi : i ≠ .srst) (hb : s.busy = true) :
    issue w s = .next (s.raiseErr .busy) := by
  refine issue_of_busy (fun hw => hi ?_) hb
  rw [(decode_eq_srst_iff w).mpr hw] at hd
  exact (Except.ok.inj hd).symm

/-- An idle block latches a command it does not object to (43_system.md R182). -/
theorem issue_accepted (hd : decode w = .ok i) (hi : i ≠ .srst) (hb : s.busy = false) (ho : s.objection i = none) :
    issue w s = .next (s.latch w) := by
  rw [issue_of_idle hd hi hb, issueLegal_accepted ho, encode_of_decode hd]

/-- A command whose one objection is to the phase (43_system.md R187). -/
theorem acceptedIn_of_objection {admits : Phase → Bool} (hd : decode w = .ok i) (hi : i ≠ .srst)
    (ho : ∀ s : State, s.objection i = if admits s.phase then none else some .sequence) : AcceptedIn i w admits where
  encoding := hd
  accepted s hb hp := issue_accepted hd hi hb (by rw [ho, hp]; rfl)
  sequence s hb hp := by rw [issue_of_idle hd hi hb, issueLegal_refused (by rw [ho, hp]; rfl)]
  refused s hb := issue_busy hd hi hb

theorem completionFrame_of_completionOf (hi : i ≠ .srst) (h : completionOf i s = .next t) : CompletionFrame s t := by
  obtain ⟨hbusy, hipend, hcur, hien, herr, hev, hrep, hdr⟩ := completion_fields hi h
  exact ⟨hbusy, hipend, hcur, hien, herr, hev, hrep, hdr⟩

/-! ### `CMP` -/

/-- The comparison on numbers (41_tree_builder.md R120). -/
theorem comesBefore_eq_decide (x y : Option Node) :
    comesBefore x y = decide ((entryFreq x).toNat < (entryFreq y).toNat ∨
      ((entryFreq x).toNat = (entryFreq y).toNat ∧ (entryRep x).toNat ≤ (entryRep y).toNat)) := by
  rw [Bool.eq_iff_iff, comesBefore_iff, decide_eq_true_iff, BitVec.lt_def, BitVec.le_def, BitVec.toNat_eq]

/-- The word of `CMP` (30_encoding.md R90). -/
theorem encode_cmp {a b : Nat} (ha : a < 512) (hb : b < 512) :
    encode (.cmp a b) = BitVec.ofNat 32 (b * 2 ^ 13 + a * 2 ^ 4 + 7) := by
  refine BitVec.eq_of_toNat_eq ?_
  rw [encode_cmp_toNat ha hb, BitVec.toNat_ofNat, Nat.mod_eq_of_lt (by omega)]

/-- An operand that names a valid entry is at most 510 (30_encoding.md R92). -/
theorem le_of_namesNode {n : Nat} (h : s.namesNode n = true) : n ≤ 510 := by
  by_contra hn
  simp [State.namesNode, entry_of_le (s := s) (n := n) (by omega), entryValid] at h

/-- Settles O35: the completion compares the two entries as numbers; issue makes the three tests in R182's order. -/
theorem cmpCompletes : Obligations.CmpCompletes := by
  unfold Obligations.CmpCompletes
  have hcmp (a b : Nat) : Instr.cmp a b ≠ .srst := by simp
  refine ⟨fun s a b hbusy => ?_, fun s a b ha hb hbusy => ?_, fun s a b ha hb hidle => ?_⟩
  · rw [exec_busy hbusy, ← comesBefore_eq_decide]
    rfl
  · exact issue_busy (decode_encode (wellFormed_cmp.mpr ⟨ha, hb⟩)) (hcmp a b) hbusy
  · rw [issue_of_idle (decode_encode (wellFormed_cmp.mpr ⟨ha, hb⟩)) (hcmp a b) hidle]
    congr 1
    by_cases hp : s.phase = .empty
    · rw [if_pos hp, issueLegal_refused (e := .sequence) (by simp [State.objection, hp])]
    rw [if_neg hp]
    by_cases hn : s.namesNode a = true ∧ s.namesNode b = true
    · rw [if_pos ⟨le_of_namesNode hn.1, le_of_namesNode hn.2, hn.1, hn.2⟩,
        issueLegal_accepted (by simp [State.objection, hp, hn]), encode_cmp ha hb]
      rfl
    · rw [if_neg (fun h => hn h.2.2), issueLegal_refused (e := .badOperand)]
      simpa [State.objection, hp] using hn

/-! ### `INIT` -/

/-- The completion of `INIT`, field by field (41_tree_builder.md R123, R124). -/
theorem initCompletion_spec (s : State) :
    ∃ nodes, (∀ m, entryAt nodes m = ((usedBytes s.ft).map (leafNode s.ft))[m]?) ∧
      initCompletion s = .next ({ s with
        nodes := nodes
        wc := (List.range (usedBytes s.ft).length).map (BitVec.ofNat 9)
        nodeNext := (usedBytes s.ft).length
        leafCount := (usedBytes s.ft).length
        rootIdx := 0
        rootValid := decide ((usedBytes s.ft).length = 1)
        cb := Vector.replicate 256 none
        phase := if 2 ≤ (usedBytes s.ft).length then .building else .tree } : State).completed := by
  obtain ⟨hf, heq⟩ := makeLeaves_spec s
  refine ⟨s.makeLeaves.nodes, hf.entry, ?_⟩
  unfold initCompletion
  generalize (usedBytes s.ft).length = k at heq ⊢
  generalize hu : s.makeLeaves = u at heq ⊢
  clear hu hf
  generalize u.nodes = nodes at heq ⊢
  subst heq
  by_cases hk : 2 ≤ k
  · have h1 : k ≠ 1 := by omega
    simp [hk, h1, State.setPhase]
  · have hlen : ((List.range k).map (BitVec.ofNat 9)).length ≤ 1 := by simp; omega
    have hhead : ((List.range k).map (BitVec.ofNat 9)).headD 0 = 0 := by
      obtain rfl | rfl : k = 0 ∨ k = 1 := by omega
      · rfl
      · rfl
    simp only [List.length_map, List.length_range, if_neg hk]
    rw [finish_eq _ hlen, hhead]
    simp

/-- Settles O36: the leaves are the table's used entries in order, and nothing stands after them. -/
theorem initCreatesTheLeaves : Obligations.InitCreatesTheLeaves := by
  unfold Obligations.InitCreatesTheLeaves
  refine ⟨acceptedAlways_of_no_objection (decode_encode (i := .init) rfl) (by decide) fun _ => rfl, fun s hbusy => ?_⟩
  obtain ⟨nodes, hnodes, hinit⟩ := initCompletion_spec s
  refine ⟨_, (exec_busy hbusy).trans hinit, rfl, rfl, rfl, fun j hj => ?_, fun n hn => ?_,
    fun b _ => codeOf_replicate rfl b, rfl, rfl, rfl, rfl, rfl, completionFrame_of_completionOf (i := .init) (by decide) hinit⟩
  · refine (hnodes j).trans ?_
    rw [List.getElem?_map, List.getElem?_eq_getElem hj]
    rfl
  · refine (hnodes n).trans (List.getElem?_eq_none ?_)
    rw [List.length_map]
    exact hn

/-! ### `STEP` -/

theorem minByte_toNat (a b : ByteVal) : (minByte a b).toNat = min a.toNat b.toNat := by
  unfold minByte
  split <;> bv_omega

/-- The pair replacement as R129 puts it: the lower position overwritten, the higher deleted. -/
theorem replacePair_eq_set {α : Type} {l : List α} {i1 i2 : Nat} (n : α) (hne : i1 ≠ i2) (h1 : i1 < l.length)
    (h2 : i2 < l.length) : replacePair l i1 i2 n = (l.set (min i1 i2) n).eraseIdx (max i1 i2) := by
  rw [replacePair, List.insertIdx_eraseIdx_self, List.eraseIdx_set_gt (by omega)]
  rw [List.length_eraseIdx]
  split <;> omega

/-- The first operand is the left child if it comes before the second (41_tree_builder.md R126). -/
theorem combine_of_before {a b : NodeIdx} (h : comesBefore (s.entry a.toNat) (s.entry b.toNat) = true) :
    s.combine a b = .internal (minByte (entryRep (s.entry a.toNat)) (entryRep (s.entry b.toNat)))
      (entryFreq (s.entry a.toNat) + entryFreq (s.entry b.toNat)) a b :=
  if_pos h

/-- The sum of two members' frequencies does not wrap (41_tree_builder.md R137). -/
theorem StoreInv.pair_freq_lt {nodes : Vector (Option Node) 511} {wc : List NodeIdx} {n k : Nat}
    (h : StoreInv nodes wc n k) {i1 i2 : Nat} {a b : NodeIdx} (hne : i1 ≠ i2) (ha : wc[i1]? = some a)
    (hb : wc[i2]? = some b) :
    (entryFreq (entryAt nodes a.toNat)).toNat + (entryFreq (entryAt nodes b.toNat)).toNat < 2 ^ 40 := by
  obtain ⟨F, hF, hsum, hleaves⟩ := h.exists_forest
  have hlt := h.forest_freq_lt hsum hleaves
  have hkeys : wc.map (fun n => (entryFreq (entryAt nodes n.toNat)).toNat) = F.map CodeTree.freq := by
    have := (forest_sameKey hF).imp fun _ _ hk => hk.freq
    rwa [List.forall₂_map_left_iff, ← List.forall₂_map_right_iff (f := CodeTree.freq),
      ← List.forall₂_map_left_iff (f := fun n : NodeIdx => (entryFreq (entryAt nodes n.toNat)).toNat),
      List.forall₂_eq_eq_eq] at this
  obtain ⟨rest, hperm, -⟩ := replacePair_perm a hne ha hb
  rw [← hkeys, (hperm.map _).sum_eq, List.map_cons, List.map_cons, List.sum_cons, List.sum_cons] at hlt
  omega

/-- Of two members one comes before the other, not both (41_tree_builder.md R121). -/
theorem BlockInv.before_strict (h : BlockInv s) {i j : Nat} {a c : NodeIdx} (ha : s.wc[i]? = some a)
    (hc : s.wc[j]? = some c) (hne : j ≠ i) (hbefore : comesBefore (s.entry a.toNat) (s.entry c.toNat) = true) :
    comesBefore (s.entry c.toNat) (s.entry a.toNat) = false := by
  rw [← Bool.not_eq_true]
  intro hback
  obtain ⟨hi, rfl⟩ := List.getElem?_eq_some_iff.mp ha
  obtain ⟨hj, rfl⟩ := List.getElem?_eq_some_iff.mp hc
  refine hne ((List.Nodup.getElem_inj_iff h.store.wc_reps (hi := by simpa using hj) (hj := by simpa using hi)).mp ?_)
  rw [List.getElem_map, List.getElem_map]
  exact (comesBefore_antisymm hback hbefore).2

/-- The two members that a merge selects: the strict minimum and the strict minimum of the rest
(41_tree_builder.md R128). -/
theorem BlockInv.selected_minima (h : BlockInv s) {i1 i2 : Nat}
    (hsel : selectTwo Config.tieKeep comesBefore s.members = some (i1, i2)) :
    i1 ≠ i2 ∧ ∃ a b, s.wc[i1]? = some a ∧ s.wc[i2]? = some b ∧
      (∀ (i : Nat) (c : NodeIdx), s.wc[i]? = some c → i ≠ i1 →
        comesBefore (s.entry a.toNat) (s.entry c.toNat) = true ∧
          comesBefore (s.entry c.toNat) (s.entry a.toNat) = false) ∧
      ∀ (i : Nat) (c : NodeIdx), s.wc[i]? = some c → i ≠ i1 → i ≠ i2 →
        comesBefore (s.entry b.toNat) (s.entry c.toNat) = true ∧
          comesBefore (s.entry c.toNat) (s.entry b.toNat) = false := by
  obtain ⟨hne, x, y, hx, hy, hxmin, hymin⟩ := selectTwo_spec comesBefore_totalOrder hsel
  have member {i : Nat} {c : NodeIdx} (hc : s.wc[i]? = some c) : s.members[i]? = some (s.entry c.toNat) := by
    rw [State.members, List.getElem?_map, hc]
    rfl
  rw [State.members, List.getElem?_map, Option.map_eq_some_iff] at hx hy
  obtain ⟨a, ha, rfl⟩ := hx
  obtain ⟨b, hb, rfl⟩ := hy
  refine ⟨hne, a, b, ha, hb, fun i c hc hi1 => ?_, fun i c hc hi1 hi2 => ?_⟩
  · have hbefore := hxmin _ (List.mem_of_getElem? (member hc))
    exact ⟨hbefore, h.before_strict ha hc hi1 hbefore⟩
  · have hbefore := hymin i _ (member hc) hi1
    exact ⟨hbefore, h.before_strict hb hc hi2 hbefore⟩

/-- The state that a merge of a current construction leaves (41_tree_builder.md R129, R131). -/
def State.merged (s : State) (i1 i2 : Nat) : State :=
  { s.mergeSlots i1 i2 with
    phase := if s.wc.length = 2 then .tree else .building
    rootValid := decide (s.wc.length = 2)
    rootIdx := if s.wc.length = 2 then BitVec.ofNat 9 s.nodeNext else 0 }

/-- A merge of a current construction selects two members, and finishes if there are no others. -/
theorem BlockInv.merge_eq_merged (h : BlockInv s) (hp : s.phase = .building) :
    ∃ i1 i2, selectTwo Config.tieKeep comesBefore s.members = some (i1, i2) ∧ s.nodeNext < 511 ∧
      s.merge = some (s.merged i1 i2) := by
  obtain ⟨h2, hrv, hri⟩ := h.building hp
  obtain ⟨i1, i2, hsel, hn, hinv, hlen, -⟩ := h.store.merge h2
  refine ⟨i1, i2, hsel, hn, ?_⟩
  simp only [State.merge, hsel, if_pos hn, Option.some.injEq, State.merged]
  by_cases hw : s.wc.length = 2
  · have h1 : (s.mergeSlots i1 i2).wc.length = 1 := by omega
    have hroot : (s.mergeSlots i1 i2).wc.headD 0 = BitVec.ofNat 9 s.nodeNext := by
      obtain ⟨r, hr, hrn⟩ := hinv.last_mem (by simp)
      obtain ⟨r', hr'⟩ := List.length_eq_one_iff.mp h1
      rw [hr'] at hr ⊢
      obtain rfl := List.mem_singleton.mp hr
      refine BitVec.eq_of_toNat_eq ?_
      rw [List.headD_cons, hrn, idx_toNat (by omega), State.mergeSlots_nodeNext, Nat.add_sub_cancel]
    rw [if_pos h1, finish_eq _ h1.le, hroot, decide_eq_true h1]
    simp only [if_pos hw, decide_eq_true hw]
  · rw [if_neg (show (s.mergeSlots i1 i2).wc.length ≠ 1 by omega)]
    simp only [if_neg hw, decide_eq_false hw]
    rw [← hp, ← hrv, ← hri]
    rfl

/-- The store after a merge (41_tree_builder.md R129). -/
theorem entry_merged (hn : s.nodeNext < 511) (i1 i2 n : Nat) :
    (s.merged i1 i2).entry n =
      if s.nodeNext = n then some (s.combine (s.wc.getD i1 0) (s.wc.getD i2 0)) else s.entry n :=
  entryAt_setIfInBounds hn _ n

/-- Settles O37: the merge of the two strict minima, read off field by field. -/
theorem stepMergesTheTwoMinima : Obligations.StepMergesTheTwoMinima := by
  unfold Obligations.StepMergesTheTwoMinima
  refine ⟨acceptedIn_of_objection (decode_encode (i := .step) rfl) (by decide) fun s => ?_, fun s h hbusy hp => ?_⟩
  · simp [State.objection]
  obtain ⟨i1, i2, hsel, hn, hmerge⟩ := h.merge_eq_merged hp
  obtain ⟨hne, a, b, ha, hb, hamin, hbmin⟩ := h.selected_minima hsel
  have hcomp : completionOf .step s = .next (s.merged i1 i2).completed := by
    simp only [completionOf, stepCompletion, hmerge]
  have hnew : (s.merged i1 i2).completed.entry s.nodeNext = some (.internal
      (minByte (entryRep (s.entry a.toNat)) (entryRep (s.entry b.toNat)))
      (entryFreq (s.entry a.toNat) + entryFreq (s.entry b.toNat)) a b) := by
    refine (entry_merged hn i1 i2 _).trans ?_
    rw [if_pos rfl, List.getD_eq_getElem?_getD, List.getD_eq_getElem?_getD, ha, hb]
    exact congrArg some (combine_of_before (hamin i2 b hb hne.symm).1)
  have hwc : (s.merged i1 i2).completed.wc = (s.wc.set (min i1 i2) (BitVec.ofNat 9 s.nodeNext)).eraseIdx (max i1 i2) :=
    replacePair_eq_set _ hne (List.getElem?_eq_some_iff.mp ha).1 (List.getElem?_eq_some_iff.mp hb).1
  refine ⟨_, i1, i2, a, b, (exec_busy hbusy).trans hcomp, ha, hb, hne, hamin, hbmin, ?_⟩
  rw [hnew]
  refine ⟨rfl, rfl, minByte_toNat _ _, ?_, rfl, rfl, fun n hne => ?_, rfl, hwc, rfl, rfl, rfl, rfl, rfl, rfl, rfl,
    completionFrame_of_completionOf (i := .step) (by decide) hcomp⟩
  · exact BitVec.toNat_add_of_lt (h.store.pair_freq_lt hne ha hb)
  · exact (entry_merged hn i1 i2 n).trans (if_neg hne.symm)

/-! ### `BUILD` and `RUN` -/

/-- A construction with at most one member has a tree exactly if it has that member. -/
theorem StoreInv.tree_isSome {nodes : Vector (Option Node) 511} {wc : List NodeIdx} {n k : Nat}
    (h : StoreInv nodes wc n k) (hl : wc.length ≤ 1) :
    (mergeToOne (forestOf nodes wc).reduceOption).isSome = decide (wc.length = 1) := by
  rw [forest_root h hl]
  match wc, h, hl with
  | [], _, _ => rfl
  | [r], h, _ =>
    obtain ⟨t, ht, -⟩ := h.member_tree List.mem_cons_self
    simp [ht]

/-- The collection of a construction with at most one member, by its first element. -/
theorem wc_eq_of_length_le {wc : List NodeIdx} (hl : wc.length ≤ 1) :
    wc = if decide (wc.length = 1) = true then [wc.headD 0] else [] := by
  match wc, hl with
  | [], _ => rfl
  | [r], _ => rfl

theorem buildCompletion_eq {u : State} (hu : s.buildBody = some u) : completionOf .build s = .next u.completed := by
  simp only [completionOf, buildCompletion, hu]

theorem runCompletion_eq {u v : State} (hu : s.buildBody = some u) (hv : u.deriveBody = some v) :
    completionOf .run s = .next v.completed := by
  simp only [completionOf, runCompletion, hu, deriveCompletion, hv]

/-- One entry of the leaves' table (41_tree_builder.md R123). -/
theorem entry_of_table {nodes : Vector (Option Node) 511} {used : List Nat} {leaf : Nat → Node}
    (h : (List.range used.length).map (entryAt nodes) = used.map fun b => some (leaf b)) {j : Nat}
    (hj : j < used.length) : entryAt nodes j = some (leaf used[j]) := by
  have := List.getElem_of_eq h (i := j) (by simpa using hj)
  simpa only [List.getElem_map, List.getElem_range] using this

/-- Settles O38: the body of `BUILD` leaves a forest with at most one member, whose counts are those of R135. -/
theorem buildLeavesTheTreeOfTheTable : Obligations.BuildLeavesTheTreeOfTheTable := by
  unfold Obligations.BuildLeavesTheTreeOfTheTable
  refine ⟨acceptedAlways_of_no_objection (decode_encode (i := .build) rfl) (by decide) fun _ => rfl, fun s hbusy => ?_⟩
  obtain ⟨nodes, wc, n, hinv, hl, htable, htree, hbody⟩ := buildBody_spec s
  have hcomp := buildCompletion_eq hbody
  refine ⟨_, (exec_busy hbusy).trans hcomp, rfl, htree ▸ (forest_root hinv hl).symm,
    htree ▸ (hinv.tree_isSome hl).symm, rfl, (hinv.finished_counts hl).1, wc_eq_of_length_le hl, fun j hj => ?_,
    fun m hm => hinv.entry_none hm, fun b _ => codeOf_replicate rfl b, rfl, rfl,
    completionFrame_of_completionOf (i := .build) (by decide) hcomp⟩
  exact entry_of_table htable hj

/-- The body of `BUILD` leaves a finished forest, whose root, if there is one, is a member (41_tree_builder.md R131). -/
theorem exists_buildBody (s : State) :
    ∃ u, s.buildBody = some u ∧ u.phase = .tree ∧ StoreInv u.nodes u.wc u.nodeNext u.leafCount ∧
      (u.rootValid = true → u.rootIdx ∈ u.wc) := by
  obtain ⟨nodes, wc, n, hinv, -, -, -, hbody⟩ := buildBody_spec s
  generalize (usedBytes s.ft).length = k at hinv hbody
  refine ⟨_, hbody, rfl, hinv, fun hv => ?_⟩
  obtain ⟨r, rfl⟩ := List.length_eq_one_iff.mp (of_decide_eq_true hv)
  exact List.mem_cons_self

/-- What the body of `BUILD` leaves, the body of `DERIVE` completes on (42_codebook.md R168). -/
theorem exists_buildBody_deriveBody (s : State) :
    ∃ u v, s.buildBody = some u ∧ u.deriveBody = some v ∧ u.phase = .tree ∧ v.phase = .codes := by
  obtain ⟨u, hbody, hphase, hinv, hroot⟩ := exists_buildBody s
  obtain ⟨cb, hderive, -⟩ := deriveBody_spec hinv hroot
  exact ⟨u, _, hbody, hderive, hphase, rfl⟩

/-- Settles O52: both bodies work on what leaf creation leaves, and that is a function of the table. -/
theorem constructionIsAFunctionOfTheTable : Obligations.ConstructionIsAFunctionOfTheTable := by
  unfold Obligations.ConstructionIsAFunctionOfTheTable
  intro s s' i hi hbusy hbusy' hft
  obtain ⟨u, v, hu, hv, hup, hvp⟩ := exists_buildBody_deriveBody s
  obtain ⟨u', v', hu', hv', hup', hvp'⟩ := exists_buildBody_deriveBody s'
  have hsame : SameWork u u' := by
    obtain ⟨w, hw, hsame⟩ := SameWork.buildBody hft hu
    cases hw.symm.trans hu'
    exact hsame
  have hsame' : SameWork v v' := by
    obtain ⟨w, hw, hsame'⟩ := hsame.deriveBody hv
    cases hw.symm.trans hv'
    exact hsame'
  rcases hi with rfl | rfl
  · refine ⟨_, _, (exec_busy hbusy).trans (buildCompletion_eq hu), (exec_busy hbusy').trans (buildCompletion_eq hu'), ?_⟩
    exact ⟨hsame.nodes, hsame.wc, hsame.nodeNext, hsame.leafCount, hsame.rootIdx, hsame.rootValid,
      hup'.trans hup.symm, hsame.cb⟩
  · refine ⟨_, _, (exec_busy hbusy).trans (runCompletion_eq hu hv),
      (exec_busy hbusy').trans (runCompletion_eq hu' hv'), ?_⟩
    exact ⟨hsame'.nodes, hsame'.wc, hsame'.nodeNext, hsame'.leafCount, hsame'.rootIdx, hsame'.rootValid,
      hvp'.trans hvp.symm, hsame'.cb⟩

end Sys2Proof.Machine

/-! ### `BUILD` against `INIT` and `STEP`s -/

namespace Sys2Proof.Machine

variable {s m t : State} {r : Outside}

/-- The host's side after a command was issued and completed with no event between (43_system.md R182, R183). -/
def Outside.afterCommand (r : Outside) (w : Word) (rest : List Event) : Outside :=
  { r with curCmd := w, busy := false, ipend := r.ipend ||| 1, events := rest }

theorem objection_outside (s : State) (r : Outside) (i : Instr) : (s.outside r).objection i = s.objection i := by
  cases i <;> rfl

/-- A command issued to an idle block and completed at once does its work and leaves its traces on the host's side. -/
theorem run_issueAndComplete {i : Instr} {w : Word} {rest : List Event} (hb : r.busy = false)
    (he : r.events = issueAndComplete w ++ rest) (hd : decode w = .ok i) (hi : i ≠ .srst) (ho : s.objection i = none)
    (hc : completionOf i s = .next t) (n : Nat) :
    Host.Core.run Sys2Proof.core (n + 2) (s.outside r) =
      Host.Core.run Sys2Proof.core n (t.outside (r.afterCommand w rest)) := by
  have hissue : step (s.outside r) =
      .next (s.outside { r with curCmd := w, busy := true, events := .completion :: rest }) := by
    rw [step_cons (e := .write 0x001 w) (rest := .completion :: rest) he]
    show memWrite 0x001 w _ = _
    simp only [memWrite, region_cmd]
    exact issue_accepted hd hi hb ((objection_outside _ _ i).trans ((objection_outside s r i).trans ho))
  have hcomplete : step (s.outside { r with curCmd := w, busy := true, events := .completion :: rest }) =
      .next (t.outside (r.afterCommand w rest)) := by
    rw [step_cons (e := .completion) (rest := rest) rfl]
    refine (complete_busy (i := i) rfl hd hi).trans ((exec_busy rfl).trans ?_)
    exact completionOf_outside hi hc { r with curCmd := w, busy := true, events := rest }
  rw [run_succ _ _ _ hissue, run_succ _ _ _ hcomplete]

/-- A merge neither reads nor, until it is the last, writes `PHASE` (41_tree_builder.md R129). -/
theorem merge_setPhase (s : State) (p : Phase) :
    (s.setPhase p).merge = s.merge.map fun t => if t.wc.length = 1 then t else t.setPhase p := by
  have hslots (i1 i2 : Nat) : (s.setPhase p).mergeSlots i1 i2 = (s.mergeSlots i1 i2).setPhase p := rfl
  have hfinish (t : State) : (t.setPhase p).finish = t.finish := by
    unfold State.finish
    rw [State.setPhase_wc]
    split <;> rfl
  unfold State.merge
  rw [show (s.setPhase p).members = s.members from rfl, State.setPhase_nodeNext]
  split
  · rfl
  · split
    · simp only [Option.map_some, Option.some.injEq, hslots, State.setPhase_wc, hfinish]
      split
      · rw [if_pos (by rwa [State.finish_wc])]
      · rfl
    · rfl

theorem mergeAll_of_merge {k : Nat} (h2 : 2 ≤ m.wc.length) (h : m.merge = some t) :
    State.mergeAll (k + 1) m = State.mergeAll k t := by
  simp only [State.mergeAll, if_neg (Nat.not_lt.mpr h2), h]

theorem mergeAll_of_length_le (k : Nat) (h : m.wc.length ≤ 1) : State.mergeAll k m = some m := by
  cases k with
  | zero => rfl
  | succ k => simp only [State.mergeAll, if_pos (show m.wc.length < 2 by omega)]

/-- The merges of a construction leave its leaves (41_tree_builder.md R129). -/
theorem mergeAll_leafCount (hinv : StoreInv m.nodes m.wc m.nodeNext m.leafCount) (h2 : 2 ≤ m.wc.length)
    (h : State.mergeAll m.wc.length m = some t) : t.leafCount = m.leafCount := by
  obtain ⟨nodes, wc, n, -, -, -, -, -, hall⟩ := mergeAll_spec hinv h2 le_rfl
  cases h.symm.trans hall
  exact State.finish_leafCount _

/-- A merge of a forest with at least two members leaves a forest with one member less (41_tree_builder.md R133, R136). -/
theorem exists_merge (hinv : StoreInv m.nodes m.wc m.nodeNext m.leafCount) (h2 : 2 ≤ m.wc.length) :
    ∃ m', m.merge = some m' ∧ StoreInv m'.nodes m'.wc m'.nodeNext m'.leafCount ∧ m'.wc.length + 1 = m.wc.length := by
  obtain ⟨nodes, wc, hinv', hlen, -, -, hmerge⟩ := merge_spec hinv h2
  refine ⟨_, hmerge, ?_⟩
  split
  · simpa using ⟨hinv', hlen⟩
  · exact ⟨hinv', hlen⟩

theorem afterCommand_afterCommand (r : Outside) (w w' : Word) (rest rest' : List Event) :
    (r.afterCommand w rest).afterCommand w' rest' = r.afterCommand w' rest' := by
  simp [Outside.afterCommand, BitVec.or_assoc]

/-- One `STEP` of a construction is one merge of it. -/
theorem run_step {rest : List Event} (hb : r.busy = false) (he : r.events = issueAndComplete 0x00000003 ++ rest)
    (hmerge : m.merge = some t) (n : Nat) :
    Host.Core.run Sys2Proof.core (n + 2) ((m.setPhase .building).outside r) =
      Host.Core.run Sys2Proof.core n
        ((if t.wc.length = 1 then t else t.setPhase .building).outside (r.afterCommand 0x00000003 rest)) := by
  have hc : completionOf .step (m.setPhase .building) =
      .next (if t.wc.length = 1 then t else t.setPhase .building).completed := by
    simp only [completionOf, stepCompletion, merge_setPhase, hmerge, Option.map_some]
  exact run_issueAndComplete (i := .step) hb he (decode_encode (i := .step) rfl) (by decide) rfl hc n

/-- The `STEP`s that a construction with `n + 2` members needs do the merges of `BUILD`, whatever `PHASE` `BUILD` found
(41_tree_builder.md R134). -/
theorem run_steps (n : Nat) : ∀ {m : State} {r : Outside}, StoreInv m.nodes m.wc m.nodeNext m.leafCount →
    m.wc.length = n + 2 → r.busy = false →
    r.events = (List.replicate (n + 1) (issueAndComplete 0x00000003)).flatten →
    ∃ v, State.mergeAll (n + 2) m = some v ∧
      Host.Core.run Sys2Proof.core (2 * (n + 1)) ((m.setPhase .building).outside r) =
        .next (v.outside (r.afterCommand 0x00000003 [])) := by
  induction n with
  | zero =>
    intro m r hinv hlen hb he
    obtain ⟨m', hmerge, -, hlen'⟩ := exists_merge hinv hlen.ge
    have h1 : m'.wc.length = 1 := by omega
    refine ⟨m', by rw [mergeAll_of_merge hlen.ge hmerge, mergeAll_of_length_le _ h1.le], ?_⟩
    rw [run_step (rest := []) hb (by simpa using he) hmerge, if_pos h1, run_zero]
  | succ n ih =>
    intro m r hinv hlen hb he
    obtain ⟨m', hmerge, hinv', hlen'⟩ := exists_merge hinv (by omega)
    obtain ⟨v, hv, hrun⟩ := ih (m := m')
      (r := r.afterCommand 0x00000003 (List.replicate (n + 1) (issueAndComplete 0x00000003)).flatten)
      hinv' (by omega) rfl rfl
    refine ⟨v, by rw [mergeAll_of_merge (by omega) hmerge, hv], ?_⟩
    rw [Nat.mul_succ, run_step hb he hmerge, if_neg (by omega), hrun, afterCommand_afterCommand]

/-- `BUILD` issued and completed: its body's work, whatever the host's side. -/
theorem run_build (hb : r.busy = false) (he : r.events = issueAndComplete 0x00000004) {u : State}
    (hu : s.buildBody = some u) :
    Host.Core.run Sys2Proof.core 2 (s.outside r) = .next (u.outside (r.afterCommand 0x00000004 [])) := by
  rw [run_issueAndComplete (rest := []) hb (he.trans (List.append_nil _).symm) (decode_encode (i := .build) rfl)
    (by decide) rfl (buildCompletion_eq hu), run_zero]
  rfl

/-- `INIT` issued and completed: the leaves, current or finished (41_tree_builder.md R124). -/
theorem run_init {rest : List Event} (hb : r.busy = false) (he : r.events = issueAndComplete 0x00000002 ++ rest)
    (n : Nat) :
    Host.Core.run Sys2Proof.core (n + 2) (s.outside r) = Host.Core.run Sys2Proof.core n
      ((if 2 ≤ s.makeLeaves.wc.length then s.makeLeaves.setPhase .building else s.makeLeaves.finish).outside
        (r.afterCommand 0x00000002 rest)) :=
  run_issueAndComplete hb he (decode_encode (i := .init) rfl) (by decide) rfl rfl n

/-- What leaf creation leaves, by its counts (41_tree_builder.md R123). -/
theorem makeLeaves_counts (s : State) :
    s.makeLeaves.wc.length = (usedBytes s.ft).length ∧ s.makeLeaves.leafCount = (usedBytes s.ft).length := by
  obtain ⟨hfilled, heq⟩ := makeLeaves_spec s
  exact ⟨by simp [hfilled.wc], by rw [heq]⟩

/-- `INIT` and the `STEP`s it leaves to be done end with what the body of `BUILD` leaves (41_tree_builder.md R134). -/
theorem run_init_steps {k : Nat} (hk : (usedBytes s.ft).length = k) (hb : r.busy = false)
    (he : r.events = issueAndComplete 0x00000002 ++ (List.replicate (k - 1) (issueAndComplete 0x00000003)).flatten) :
    ∃ u w, s.buildBody = some u ∧
      Host.Core.run Sys2Proof.core (2 + 2 * (k - 1)) (s.outside r) = .next (u.outside (r.afterCommand w [])) := by
  obtain ⟨hlen, hcount⟩ := makeLeaves_counts s
  rw [hk] at hlen hcount
  rw [Nat.add_comm, run_init hb he]
  match k with
  | 0 | 1 =>
    have h1 : s.makeLeaves.wc.length ≤ 1 := by omega
    refine ⟨_, 0x00000002, buildBody_of_mergeAll rfl (mergeAll_of_length_le _ h1), ?_⟩
    rw [if_neg (by omega), if_pos (by omega)]
    exact run_zero _
  | n + 2 =>
    obtain ⟨v, hv, hrun⟩ := run_steps n (m := s.makeLeaves) (r := r.afterCommand 0x00000002
      (List.replicate (n + 1) (issueAndComplete 0x00000003)).flatten) (makeLeaves_storeInv s) hlen rfl rfl
    rw [← hlen] at hv
    have hcount' := mergeAll_leafCount (makeLeaves_storeInv s) (by omega) hv
    refine ⟨v, 0x00000003, (buildBody_of_mergeAll rfl hv).trans (by rw [if_neg (by omega)]), ?_⟩
    rw [if_pos (by omega)]
    exact hrun.trans (by rw [afterCommand_afterCommand])

/-- Settles O39: both scripts do the body's work and differ on the host's side in `CUR_CMD` alone. -/
theorem buildEqualsInitAndSteps : Obligations.BuildEqualsInitAndSteps := by
  unfold Obligations.BuildEqualsInitAndSteps
  intro s hb
  obtain ⟨u, w, hu, hrun⟩ := run_init_steps (s := s) (r := { s.hostSide with
    events := issueAndComplete 0x00000002 ++
      (List.replicate ((usedBytes s.ft).length - 1) (issueAndComplete 0x00000003)).flatten }) rfl hb rfl
  obtain ⟨u', hu', hphase, -⟩ := exists_buildBody s
  cases hu.symm.trans hu'
  exact ⟨_, _, run_build (s := s) (r := { s.hostSide with events := issueAndComplete 0x00000004 }) hb rfl hu, hrun,
    hphase, rfl⟩

end Sys2Proof.Machine

/-! ### Stored codes as strings -/

namespace Sys2Proof.Machine

theorem codeString_length (c : Code) : (codeString c).length = c.len.toNat := by simp [codeString]

theorem getElem_codeString (c : Code) {i : Nat} (hi : i < (codeString c).length) :
    (codeString c)[i] = c.bits.getLsbD i := by
  simp [codeString]

/-- The stored form, bit by bit (42_codebook.md R167). -/
theorem getLsbD_of_ushiftRight_eq_zero {bits : BitVec 256} {len i : Nat} (h : bits >>> len = 0) (hi : len ≤ i) :
    bits.getLsbD i = false := by
  have hshift : (bits >>> len).getLsbD (i - len) = bits.getLsbD i := by
    rw [BitVec.getLsbD_ushiftRight, Nat.add_sub_cancel' hi]
  rw [← hshift, h]
  exact BitVec.getLsbD_zero

/-- A record in the stored form is determined by its string: the string is the length and the bits below it, and the
bits above are 0. -/
theorem eq_of_codeString_eq {c c' : Code} (hc : c.bits >>> c.len.toNat = 0) (hc' : c'.bits >>> c'.len.toNat = 0)
    (h : codeString c = codeString c') : c = c' := by
  have hlen : c.len.toNat = c'.len.toNat := by rw [← codeString_length, ← codeString_length, h]
  have hbits : c.bits = c'.bits := by
    refine BitVec.eq_of_getLsbD_eq fun i _ => ?_
    rcases Nat.lt_or_ge i c.len.toNat with hi | hi
    · rw [← getElem_codeString c (by rwa [codeString_length]), ← getElem_codeString c' (by rwa [codeString_length, ← hlen])]
      exact List.getElem_of_eq h _
    · rw [getLsbD_of_ushiftRight_eq_zero hc hi, getLsbD_of_ushiftRight_eq_zero hc' (hlen ▸ hi)]
  obtain ⟨len, bits⟩ := c
  obtain ⟨len', bits'⟩ := c'
  obtain rfl : len = len' := BitVec.eq_of_toNat_eq hlen
  obtain rfl : bits = bits' := hbits
  rfl

/-- Settles O59: a reachable state's codes are in the stored form, in which the string determines the record. -/
theorem equalCodesHaveEqualRecords : Obligations.EqualCodesHaveEqualRecords := by
  unfold Obligations.EqualCodesHaveEqualRecords
  intro s b b' c c' hs hc hc'
  have hstored := memory_wf_iff.mp (reachableStatesMeetInvariant s hs).stored
  exact ⟨fun _ hi => getLsbD_of_ushiftRight_eq_zero (hstored b c hc) hi,
    eq_of_codeString_eq (hstored b c hc) (hstored b' c' hc')⟩

end Sys2Proof.Machine

/-! ### `DERIVE`, and `RUN` -/

namespace Sys2Proof.Machine

variable {s : State} {r : Outside}

/-- The code book that the body of `DERIVE` leaves, read as strings (42_codebook.md R161), in the stored form (R167). -/
theorem exists_derived_codes (h : StoreInv s.nodes s.wc s.nodeNext s.leafCount)
    (hroot : s.rootValid = true → s.rootIdx ∈ s.wc) :
    ∃ cb : Vector (Option Code) 256, s.deriveBody = some { s with cb := cb, phase := .codes } ∧
      (∀ b < 256, (cb[b]?.getD none).map codeString = (deriveCodes s.rootTree).lookup (BitVec.ofNat 8 b)) ∧
      ∀ (b : Nat) (c : Code), cb[b]?.getD none = some c → ∀ i, c.len.toNat ≤ i → c.bits.getLsbD i = false := by
  obtain ⟨cb, hbody, hcodes, hlen⟩ := deriveBody_spec h hroot
  have hstored := memory_wf_iff.mp (deriveBody_memory_wf hbody)
  refine ⟨cb, hbody, fun b hb => ?_, fun b c hc i hi => ?_⟩
  · rw [hcodes b hb, Option.map_map]
    cases hl : (deriveCodes s.rootTree).lookup (BitVec.ofNat 8 b) with
    | none => rfl
    | some str => exact congrArg some (codeString_codeOfString (hlen _ (lookup_mem hl)))
  · exact getLsbD_of_ushiftRight_eq_zero (hstored b c hc) hi

theorem deriveCompletion_eq {v : State} (hv : s.deriveBody = some v) : completionOf .derive s = .next v.completed := by
  simp only [completionOf, deriveCompletion, hv]

/-- `DERIVE` objects to the phases in which no construction is finished (43_system.md R187). -/
theorem objection_derive (s : State) :
    s.objection .derive = if s.phase == .tree || s.phase == .codes then none else some .sequence := by
  cases hp : s.phase <;> simp [State.objection, hp, Phase.finished]

/-- Settles O40: a good finished construction's root is a member, so the body of `DERIVE` completes on it. -/
theorem deriveFillsTheCodeBook : Obligations.DeriveFillsTheCodeBook := by
  unfold Obligations.DeriveFillsTheCodeBook
  refine ⟨acceptedIn_of_objection (decode_encode (i := .derive) rfl) (by decide) objection_derive,
    fun s h hbusy hp => ?_⟩
  obtain ⟨cb, hbody, hcodes, hstored⟩ := exists_derived_codes h.store (h.root_mem ((finished_iff _).mpr hp))
  have hcomp := deriveCompletion_eq hbody
  exact ⟨_, (exec_busy hbusy).trans hcomp, rfl, hcodes, fun b _ => hstored b, rfl, rfl, rfl, rfl, rfl, rfl, rfl, rfl,
    completionFrame_of_completionOf (i := .derive) (by decide) hcomp⟩

/-- Settles O41: the body of `BUILD` leaves the table's tree as in O38, and the body of `DERIVE` derives its codes. -/
theorem runBuildsAndDerives : Obligations.RunBuildsAndDerives := by
  unfold Obligations.RunBuildsAndDerives
  refine ⟨acceptedAlways_of_no_objection (decode_encode (i := .run) rfl) (by decide) fun _ => rfl, fun s hbusy => ?_⟩
  obtain ⟨u, hu, -, hinv, hroot⟩ := exists_buildBody s
  obtain ⟨cb, hderive, hcodes, hstored⟩ := exists_derived_codes hinv hroot
  have hcomp := runCompletion_eq hu hderive
  obtain ⟨-, hbuild⟩ := buildLeavesTheTreeOfTheTable
  obtain ⟨t, ht, -, htree, hvalid, hcount, hnext, hwc, hleaves, hpast, -, hft, hcmp, -⟩ := hbuild s hbusy
  cases ((exec_busy hbusy).trans (buildCompletion_eq hu)).symm.trans ht
  exact ⟨_, (exec_busy hbusy).trans hcomp, rfl, htree, hvalid, hcount, hnext, hwc, hleaves, hpast,
    fun b hb => htree ▸ hcodes b hb, fun b _ => hstored b, hft, hcmp,
    completionFrame_of_completionOf (i := .run) (by decide) hcomp⟩

/-- `RUN` issued and completed: the bodies of `BUILD` and `DERIVE` (42_codebook.md R168). -/
theorem run_run (hb : r.busy = false) (he : r.events = issueAndComplete 0x00000006) {u v : State}
    (hu : s.buildBody = some u) (hv : u.deriveBody = some v) :
    Host.Core.run Sys2Proof.core 2 (s.outside r) = .next (v.outside (r.afterCommand 0x00000006 [])) := by
  rw [run_issueAndComplete (rest := []) hb (he.trans (List.append_nil _).symm) (decode_encode (i := .run) rfl)
    (by decide) rfl (runCompletion_eq hu hv), run_zero]
  rfl

/-- `BUILD` and then `DERIVE`, each issued and completed: `DERIVE` is accepted, since `BUILD` has left `TREE`. -/
theorem run_build_derive (hb : r.busy = false)
    (he : r.events = issueAndComplete 0x00000004 ++ issueAndComplete 0x00000005) {u v : State}
    (hu : s.buildBody = some u) (hp : u.phase = .tree) (hv : u.deriveBody = some v) :
    Host.Core.run Sys2Proof.core 4 (s.outside r) = .next (v.outside (r.afterCommand 0x00000005 [])) := by
  rw [run_issueAndComplete hb he (decode_encode (i := .build) rfl) (by decide) rfl (buildCompletion_eq hu) 2]
  show Host.Core.run Sys2Proof.core 2 (u.outside (r.afterCommand 0x00000004 (issueAndComplete 0x00000005))) = _
  rw [run_issueAndComplete (w := 0x00000005) (rest := []) rfl rfl (decode_encode (i := .derive) rfl) (by decide)
    (by rw [objection_derive, hp]; rfl) (deriveCompletion_eq hv), run_zero, afterCommand_afterCommand]
  rfl

/-- Settles O42: both scripts do the two bodies and differ on the host's side in `CUR_CMD` alone. -/
theorem runEqualsBuildThenDerive : Obligations.RunEqualsBuildThenDerive := by
  unfold Obligations.RunEqualsBuildThenDerive
  intro s hb
  obtain ⟨u, v, hu, hv, hphase, -⟩ := exists_buildBody_deriveBody s
  exact ⟨_, _, run_run (s := s) (r := { s.hostSide with events := issueAndComplete 0x00000006 }) hb rfl hu hv,
    run_build_derive (s := s)
      (r := { s.hostSide with events := issueAndComplete 0x00000004 ++ issueAndComplete 0x00000005 }) hb rfl hu hphase hv,
    rfl⟩

end Sys2Proof.Machine

/-! ### The code book of a good state in `CODES` -/

namespace Sys2Proof.Machine

variable {s : State}

theorem usedBytes_length_eq (h : BlockInv s) (hp : s.phase ≠ .empty) : (usedBytes s.ft).length = s.leafCount := by
  simpa using (congrArg List.length (h.table hp)).symm

theorem rootTree_eq_some (hv : s.rootValid = true) {t : CodeTree} (ht : treeAt s.nodes s.rootIdx.toNat = some t) :
    s.rootTree = some t := by
  rw [State.rootTree, if_pos hv, State.treeOf, ht]

/-- The root tree of a derived code book is no higher than the leaves allow (42_codebook.md R165). -/
theorem height_root_lt (h : BlockInv s) (hp : s.phase = .codes) (hv : s.rootValid = true) {t : CodeTree}
    (ht : treeAt s.nodes s.rootIdx.toNat = some t) : t.height < s.leafCount := by
  obtain ⟨t', ht', -, hleaves⟩ := root_leaves h (.inr hp) hv
  cases ht.symm.trans ht'
  rw [← usedBytes_length_eq h (ne_empty_of_finished (.inr hp)), ← List.length_map, ← hleaves.length_eq]
  exact t.height_lt

/-- Settles O58: a code is a path of the root tree, whose height is below the number of its leaves. -/
theorem codeLengthIsBelowLeafCount : Obligations.CodeLengthIsBelowLeafCount := by
  unfold Obligations.CodeLengthIsBelowLeafCount
  intro s b c h hp hb hc
  obtain ⟨t, ht, hv, hmem⟩ := codes_root h hp hb hc
  have hpath := treeCodes_length_le hmem
  have hheight := height_root_lt h hp hv ht
  rw [codeString_length, List.length_nil] at hpath
  exact ⟨by omega, h.store.leafCount_le⟩

theorem ofNat_byte_injective {b b' : Nat} (hb : b < 256) (hb' : b' < 256) (h : BitVec.ofNat 8 b = BitVec.ofNat 8 b') :
    b = b' := by
  simpa [Nat.mod_eq_of_lt hb, Nat.mod_eq_of_lt hb'] using congrArg BitVec.toNat h

/-- Settles O57: both codes are strings of the root tree, where no leaf's string begins another leaf's. -/
theorem codesAreAPrefixCode : Obligations.CodesAreAPrefixCode := by
  unfold Obligations.CodesAreAPrefixCode
  intro s b b' c c' h hp hb hb' hne hc hc'
  obtain ⟨t, ht, -, hmem⟩ := codes_root h hp hb hc
  obtain ⟨t', ht', -, hmem'⟩ := codes_root h hp hb' hc'
  cases ht.symm.trans ht'
  exact treeCodes_prefixFree t [] _ _ hmem hmem' fun he => hne (ofNat_byte_injective hb hb' he)

/-- The byte values with strings are the table's used ones, each once (42_codebook.md R169). -/
theorem deriveCodes_keys_perm (h : BlockInv s) (hp : s.phase = .tree ∨ s.phase = .codes) :
    ((deriveCodes s.rootTree).map Prod.fst).Perm ((usedBytes s.ft).map (BitVec.ofNat 8)) := by
  cases hv : s.rootValid with
  | true =>
    obtain ⟨t, ht, -, hleaves⟩ := root_leaves h hp hv
    have hkeys := hleaves.map Prod.fst
    rw [List.map_map] at hkeys
    rw [rootTree_eq_some hv ht, deriveCodes, treeCodes_keys]
    exact hkeys
  | false =>
    have hroot : s.rootTree = none := by simp [State.rootTree, hv]
    obtain ⟨hcount, -, -, -, hone, -⟩ := nodeCountAndNumbering s h hp
    have hused : usedBytes s.ft = [] := List.eq_nil_of_length_eq_zero (by
      by_contra hk
      have := (hone (by omega)).2.1
      simp [hv] at this)
    simp [hroot, hused, deriveCodes]

theorem deriveCodes_keys_nodup (h : BlockInv s) (hp : s.phase = .tree ∨ s.phase = .codes) :
    ((deriveCodes s.rootTree).map Prod.fst).Nodup := by
  refine (deriveCodes_keys_perm h hp).nodup_iff.mpr (List.Nodup.map_on (fun b hb b' hb' he => ?_) ?_)
  · exact ofNat_byte_injective (usedBytes_lt hb).1 (usedBytes_lt hb').1 he
  · exact (usedBytes_sorted s.ft).imp fun hlt => hlt.ne

theorem mem_deriveCodes_keys (h : BlockInv s) (hp : s.phase = .tree ∨ s.phase = .codes) {b : Nat} (hb : b < 256) :
    BitVec.ofNat 8 b ∈ (deriveCodes s.rootTree).map Prod.fst ↔ s.freqOf b ≠ 0 := by
  rw [(deriveCodes_keys_perm h hp).mem_iff, List.mem_map]
  constructor
  · rintro ⟨b', hb', he⟩
    obtain rfl := ofNat_byte_injective (usedBytes_lt hb').1 hb he
    exact (mem_usedBytes.mp hb').2
  · exact fun hf => ⟨b, mem_usedBytes.mpr ⟨hb, hf⟩, rfl⟩

/-- The byte values that occur have codes and no others. -/
theorem code_isSome_iff (h : BlockInv s) (hp : s.phase = .codes) {b : Nat} (hb : b < 256) :
    (s.codeOf b).isSome = true ↔ s.freqOf b ≠ 0 := by
  rw [← mem_deriveCodes_keys h (.inr hp) hb, ← lookup_isSome, ← h.codes hp b hb, Option.isSome_map]

/-- A byte value that does not occur has no code; a number that is no byte value has neither. -/
theorem codeOf_unused (h : BlockInv s) (hp : s.phase = .codes) {b : Nat} (hf : s.freqOf b = 0) : s.codeOf b = none := by
  rcases Nat.lt_or_ge b 256 with hb | hb
  · exact Option.not_isSome_iff_eq_none.mp fun hc => (code_isSome_iff h hp hb).mp hc hf
  · simp [State.codeOf, Vector.getElem?_eq_none hb]

/-! ### The Kraft sum -/

/-- What a string that a byte value may have adds to the Kraft sum, in units of `2 ^ -255`. -/
def kraftTerm : Option (List Bool) → Nat
  | some str => 2 ^ (255 - str.length)
  | none => 0

theorem lookup_of_mem {l : List (ByteVal × List Bool)} (hl : (l.map Prod.fst).Nodup) {p : ByteVal × List Bool}
    (hp : p ∈ l) : l.lookup p.1 = some p.2 := by
  induction l with
  | nil => exact absurd hp List.not_mem_nil
  | cons q l ih =>
    obtain ⟨hq, hl⟩ := List.nodup_cons.mp hl
    rcases List.mem_cons.mp hp with rfl | hp
    · rw [List.lookup_cons, beq_self_eq_true]
    · have hne : p.1 ≠ q.1 := fun he => hq (he ▸ List.mem_map_of_mem hp)
      rw [List.lookup_cons, beq_false_of_ne hne]
      exact ih hl hp

/-- The sum over a list's pairs, and over its keys. -/
theorem sum_kraftTerm_keys {l : List (ByteVal × List Bool)} (hl : (l.map Prod.fst).Nodup) :
    ((l.map Prod.fst).map fun k => kraftTerm (l.lookup k)).sum = (l.map fun p => 2 ^ (255 - p.2.length)).sum := by
  rw [List.map_map]
  refine congrArg List.sum (List.map_congr_left fun p hp => ?_)
  simp only [Function.comp_apply, lookup_of_mem hl hp, kraftTerm]

/-- The Kraft sum over all byte values is that over the strings of the root tree. -/
theorem sum_kraftTerm_codes (h : BlockInv s) (hp : s.phase = .codes) :
    ((List.range 256).map fun b => kraftTerm ((s.codeOf b).map codeString)).sum =
      ((deriveCodes s.rootTree).map fun p => 2 ^ (255 - p.2.length)).sum := by
  have hzero (b : Nat) (hb : (s.ft[b]?.getD 0 != 0) = false) : kraftTerm ((s.codeOf b).map codeString) = 0 := by
    rw [codeOf_unused h hp (by simpa [State.freqOf] using hb)]
    rfl
  rw [← sum_filter _ _ _ hzero, ← sum_kraftTerm_keys (deriveCodes_keys_nodup h (.inr hp)),
    ((deriveCodes_keys_perm h (.inr hp)).map _).sum_eq, List.map_map]
  refine congrArg List.sum (List.map_congr_left fun b hb => ?_)
  rw [h.codes hp b (usedBytes_lt hb).1]
  rfl

/-- Settles O56: the keys of the derived codes are the used byte values, and a tree's codes meet the Kraft equality. -/
theorem codesForExactlyTheUsedBytes : Obligations.CodesForExactlyTheUsedBytes := by
  unfold Obligations.CodesForExactlyTheUsedBytes
  intro s h hp
  refine ⟨fun b hb => code_isSome_iff h hp hb, fun hk => ?_⟩
  obtain ⟨-, -, -, -, hone, -⟩ := nodeCountAndNumbering s h (.inr hp)
  obtain ⟨-, hv, -⟩ := hone hk
  obtain ⟨-, t, ht⟩ := (root_facts h (.inr hp)).2.2 hv
  have hheight := height_root_lt h hp hv ht
  have hbound := h.store.leafCount_le
  have hkraft := treeCodes_kraft 255 t [] (by rw [List.length_nil]; omega)
  refine Eq.trans (congrArg List.sum (List.map_congr_left fun b _ => ?_))
    ((sum_kraftTerm_codes h hp).trans (by rw [rootTree_eq_some hv ht]; exact hkraft))
  cases s.codeOf b with
  | none => rfl
  | some c => exact congrArg (fun n => 2 ^ (255 - n)) (codeString_length c).symm

end Sys2Proof.Machine

/-! ### Who writes which store -/

namespace Sys2Proof.Machine

variable {s t : State}

/-- What the completion of a command may write beside the event and command registers (42_codebook.md R170,
10_state.md R21, R22, R25, R31). -/
structure CompletionWrites (i : Instr) (s t : State) : Prop where
  cb : t.cb ≠ s.cb → i = .init ∨ i = .build ∨ i = .derive ∨ i = .run
  tree : t.nodes ≠ s.nodes ∨ t.wc ≠ s.wc ∨ t.nodeNext ≠ s.nodeNext ∨ t.rootIdx ≠ s.rootIdx ∨ t.rootValid ≠ s.rootValid →
    i = .init ∨ i = .step ∨ i = .build ∨ i = .run
  leafCount : t.leafCount ≠ s.leafCount → i = .init ∨ i = .build ∨ i = .run
  cmpRes : t.cmpRes ≠ s.cmpRes → ∃ a b, i = .cmp a b
  ft : t.ft ≠ s.ft → i = .clrf ∧ t.phase = .empty

/-- `INIT`, `BUILD` and `RUN` may write everything but the table and `CMPRES`. -/
theorem CompletionWrites.of_construction {i : Instr} (hi : i = .init ∨ i = .build ∨ i = .run) (hft : t.ft = s.ft)
    (hcmp : t.cmpRes = s.cmpRes) : CompletionWrites i s t where
  cb _ := by rcases hi with rfl | rfl | rfl <;> simp
  tree _ := by rcases hi with rfl | rfl | rfl <;> simp
  leafCount _ := hi
  cmpRes h := absurd hcmp h
  ft h := absurd hft h

theorem runCompletion_fields (h : runCompletion s = .next t) : t.ft = s.ft ∧ t.cmpRes = s.cmpRes := by
  obtain ⟨u, v, hu, hv, -, -⟩ := exists_buildBody_deriveBody s
  cases (runCompletion_eq hu hv).symm.trans h
  obtain ⟨cb, rfl⟩ := derive_fields hv
  obtain ⟨hft, hcmp, -⟩ := build_fields hu
  exact ⟨hft, hcmp⟩

/-- Every completion writes its own stores (42_codebook.md R170). -/
theorem completion_writes {i : Instr} (hi : i ≠ .srst) (h : completionOf i s = .next t) : CompletionWrites i s t := by
  cases i with
  | nop => cases h; constructor <;> simp
  | clrf => cases h; constructor <;> simp
  | cmp a b => cases h; constructor <;> simp
  | srst => exact absurd rfl hi
  | init =>
    obtain ⟨nodes, -, hinit⟩ := initCompletion_spec s
    cases hinit.symm.trans h
    exact .of_construction (.inl rfl) rfl rfl
  | step =>
    simp only [completionOf, stepCompletion] at h
    split at h
    · simp at h
    · next u hu =>
      cases h
      obtain ⟨hft, hcb, hleaf, hcmp, -⟩ := merge_fields hu
      exact ⟨fun h => absurd hcb h, fun _ => .inr (.inl rfl), fun h => absurd hleaf h, fun h => absurd hcmp h,
        fun h => absurd hft h⟩
  | build =>
    obtain ⟨u, hu, -, -, -⟩ := exists_buildBody s
    cases (buildCompletion_eq hu).symm.trans h
    obtain ⟨hft, hcmp, -⟩ := build_fields hu
    exact .of_construction (.inr (.inl rfl)) hft hcmp
  | run =>
    obtain ⟨hft, hcmp⟩ := runCompletion_fields h
    exact .of_construction (.inr (.inr rfl)) hft hcmp
  | derive =>
    simp only [completionOf, deriveCompletion] at h
    split at h
    · simp at h
    · next u hu =>
      cases h
      obtain ⟨cb, rfl⟩ := derive_fields hu
      exact ⟨fun _ => .inr (.inr (.inl rfl)), by simp, by simp, by simp, by simp⟩

/-! ### Events that write no store -/

theorem raiseErr_sameResults (s : State) (e : ErrorKind) : SameResults s (s.raiseErr e) :=
  ⟨rfl, rfl, rfl, rfl, rfl, rfl, rfl, rfl, rfl, rfl⟩

theorem memRead_sameResults (addr : Addr) (s : State) :
    SameResults s (memRead addr s) ∧ (memRead addr s).ien = s.ien := by
  rcases memRead_cases addr s with ⟨-, hr⟩ | ⟨-, -, f, hr⟩ | ⟨-, hr⟩ <;> rw [hr] <;>
    exact ⟨by constructor <;> rfl, rfl⟩

/-- The issue of a word other than `SRST` writes the error record or latches the word (43_system.md R182). -/
theorem issue_sameResults {w : Word} (h : issue w s = .next t) (hw : w ≠ 0x00000008) :
    SameResults s t ∧ t.ien = s.ien := by
  rcases issue_cases h with ⟨hd, -⟩ | ⟨-, -, rfl⟩ | ⟨-, -, rfl⟩ | ⟨-, i, -, -, rfl⟩
  · exact absurd ((decode_eq_srst_iff w).mp hd) hw
  · exact ⟨raiseErr_sameResults s _, rfl⟩
  · exact ⟨raiseErr_sameResults s _, rfl⟩
  · cases ho : s.objection i with
    | some e => rw [issueLegal_refused ho]; exact ⟨raiseErr_sameResults s e, rfl⟩
    | none =>
      rw [issueLegal_accepted ho]
      exact ⟨by constructor <;> rfl, rfl⟩

/-- A host write other than that of `SRST` writes no store but `IEN`, or an idle block's `FT` (20_memory.md R77). -/
theorem memWrite_sameResults {addr : Addr} {v : Word} (h : memWrite addr v s = .next t)
    (hv : addr = 0x001 → v ≠ 0x00000008) :
    (SameResults s t ∧ (t.ien = s.ien ∨ addr = 0x003)) ∨
      ∃ b < 256, addr = BitVec.ofNat 13 (0x100 + b) ∧ s.busy = false ∧ t = (s.setFreq b v).setPhase .empty := by
  rcases memWrite_cases h with ⟨hr, hi⟩ | ⟨hr, rfl⟩ | ⟨-, rfl⟩ | ⟨b, hr, rfl⟩ | ⟨-, rfl⟩ | rfl
  · obtain ⟨hsame, hien⟩ := issue_sameResults hi (hv (addr_of_region_cmd hr))
    exact .inl ⟨hsame, .inl hien⟩
  · exact .inl ⟨by constructor <;> rfl, .inr (addr_of_region_ien hr)⟩
  · exact .inl ⟨by constructor <;> rfl, .inl rfl⟩
  · cases hb : s.busy with
    | true =>
      rw [hostFreqWrite_busy hb]
      exact .inl ⟨raiseErr_sameResults s _, .inl rfl⟩
    | false =>
      obtain ⟨hlt, haddr⟩ := addr_of_region_ft hr
      exact .inr ⟨b, hlt, haddr, rfl, hostFreqWrite_idle hb b v⟩
  · exact .inl ⟨raiseErr_sameResults s _, .inl rfl⟩
  · exact .inl ⟨raiseErr_sameResults s _, .inl rfl⟩

/-! ### One step -/

/-- The sequencer's turn completes the latched command, or changes nothing. -/
theorem complete_writes (h : complete s = .next t) :
    t.ien = s.ien ∧ (SameResults s t ∨
      ∃ i, s.busy = true ∧ decode s.curCmd = .ok i ∧ CompletionWrites i s t) := by
  rcases complete_cases h with ⟨-, rfl⟩ | ⟨hb, i, hi, hd, hc⟩
  · exact ⟨rfl, .inl (by constructor <;> rfl)⟩
  · obtain ⟨-, -, -, hien, -⟩ := completion_fields hi hc
    exact ⟨hien, .inr ⟨i, hb, hd, completion_writes hi hc⟩⟩

/-- Everything a step that is no reset can write (20_memory.md R77). -/
theorem step_writes (h : step s = .next t) (hr : ¬ NextResets s) :
    (∃ i, NextCompletes s i ∧ t.ien = s.ien ∧ CompletionWrites i s t) ∨
    (SameResults s t ∧ (t.ien = s.ien ∨ ∃ v rest, s.events = .write 0x003 v :: rest)) ∨
    ∃ b v rest, b < 256 ∧ s.busy = false ∧ s.events = .write (BitVec.ofNat 13 (0x100 + b)) v :: rest ∧
      t = (({ s with events := rest } : State).setFreq b v).setPhase .empty := by
  rcases step_cases h with ⟨he, hc⟩ | ⟨rest, ⟨he, hc⟩ | ⟨addr, -, rfl⟩ | ⟨addr, v, he, hw⟩ | ⟨he, -⟩⟩
  · obtain ⟨hien, hsame | ⟨i, hb, hd, hwrites⟩⟩ := complete_writes hc
    · exact .inr (.inl ⟨hsame, .inl hien⟩)
    · exact .inl ⟨i, ⟨hb, hd, .inl he⟩, hien, hwrites⟩
  · obtain ⟨hien, hsame | ⟨i, hb, hd, hwrites⟩⟩ := complete_writes hc
    · exact .inr (.inl ⟨{ hsame with }, .inl hien⟩)
    · exact .inl ⟨i, ⟨hb, hd, .inr ⟨rest, he⟩⟩, hien, { hwrites with }⟩
  · obtain ⟨hsame, hien⟩ := memRead_sameResults addr { s with events := rest }
    exact .inr (.inl ⟨{ hsame with }, .inl hien⟩)
  · have hv : addr = 0x001 → v ≠ 0x00000008 := fun ha hv => hr ⟨rest, .inr (by rw [he, ha, hv])⟩
    rcases memWrite_sameResults hw hv with ⟨hsame, hien⟩ | ⟨b, hb, rfl, hidle, rfl⟩
    · exact .inr (.inl ⟨{ hsame with }, hien.imp_right fun ha => ⟨v, rest, by rw [he, ha]⟩⟩)
    · exact .inr (.inr ⟨b, v, rest, hb, hidle, he, rfl⟩)
  · exact absurd ⟨rest, .inl he⟩ hr

/-- Settles O49, by the cases of one step: a completion writes its own stores, a host write `FT` or `IEN`, and nothing
else writes a store. -/
theorem storeWriters : Obligations.StoreWriters := by
  unfold Obligations.StoreWriters
  intro s t h hr
  rcases step_writes h hr with
    ⟨i, hn, hien, hwrites⟩ | ⟨hsame, hien⟩ | ⟨b, v, rest, hb, hidle, he, rfl⟩
  · refine ⟨fun hne => ⟨i, hn, hwrites.cb hne⟩, fun hne => ⟨i, hn, hwrites.tree hne⟩,
      fun hne => ⟨i, hn, hwrites.leafCount hne⟩, fun hne => ?_, fun hne => ?_, fun hne => (hwrites.ft hne).2,
      absurd hien⟩
    · obtain ⟨a, b, rfl⟩ := hwrites.cmpRes hne
      exact ⟨a, b, hn⟩
    · obtain ⟨rfl, -⟩ := hwrites.ft hne
      exact .inl hn
  · refine ⟨absurd hsame.cb, fun hne => ?_, absurd hsame.leafCount, absurd hsame.cmpRes, absurd hsame.ft,
      absurd hsame.ft, fun hne => hien.resolve_left hne⟩
    simp [hsame.nodes, hsame.wc, hsame.nodeNext, hsame.rootIdx, hsame.rootValid] at hne
  · exact ⟨absurd rfl, fun hne => by simp at hne, absurd rfl, absurd rfl, fun _ => .inr ⟨b, v, rest, hb, hidle, he⟩,
      fun _ => rfl, absurd rfl⟩

end Sys2Proof.Machine

/-! ### Issue, word by word -/

namespace Sys2Proof.Machine

variable {s t : State} {w : Word} {i : Instr}

/-- `SRST` has one word (43_system.md R181). -/
theorem specLegal_srst_iff : SpecLegal w ∧ w.toNat % 16 = 8 ↔ w = 0x00000008 := by
  rw [BitVec.toNat_eq, show (0x00000008 : Word).toNat = 8 from rfl]
  omega

theorem ne_srst_of_decode (hd : decode w = .ok i) (hw : w ≠ 0x00000008) : i ≠ .srst := by
  rintro rfl
  exact hw ((decode_eq_srst_iff w).mp hd)

/-- `SRST` acts at issue, whatever `BUSY` is (43_system.md R181). -/
theorem issue_srst (s : State) : issue 0x00000008 s = .next s.resetBlock := rfl

theorem specElements_resetBlock (s : State) : specElements s.resetBlock = State.reset := rfl

/-- A word of no legal form starts nothing: it records `BUSY` while a command runs, else `ILLEGAL_CMD`
(43_system.md R182). -/
theorem issue_illegal (h : ¬ SpecLegal w) (s : State) :
    issue w s = .next (s.raiseErr (if s.busy then .busy else .illegalCmd)) := by
  unfold issue
  cases hd : decode w with
  | ok i => exact absurd (specLegal_of_decode hd) h
  | error e => cases s.busy <;> rfl

/-- The issue of a legal word is the command itself where `BUSY` does not refuse it (43_system.md R182). -/
theorem issue_eq_exec (hd : decode w = .ok i) (hb : s.busy = false ∨ i = .srst) : issue w s = exec i s := by
  by_cases hi : i = .srst
  · subst hi
    obtain rfl := (decode_eq_srst_iff w).mp hd
    rfl
  · have hidle := hb.resolve_right hi
    rw [issue_of_idle hd hi hidle, exec_idle hi hidle]

/-- A host write to `CMD` is an issue (20_memory.md R82). -/
theorem memWrite_cmd (w : Word) (s : State) : memWrite 0x001 w s = issue w s := by
  rw [memWrite, region_cmd]

/-- Settles O10: the one word of `SRST` resets; every other word of opcode 8 has no legal form. -/
theorem softResetInAnyState : Obligations.SoftResetInAnyState := by
  unfold Obligations.SoftResetInAnyState
  refine ⟨fun s => ⟨s.resetBlock, rfl, specElements_resetBlock s⟩,
    fun s => ⟨s.resetBlock, issue_srst s, specElements_resetBlock s⟩, fun s w hb hw => issue_of_busy hw hb,
    fun s w hop hup => issue_illegal (fun hlegal => hup ?_) s⟩
  obtain rfl := specLegal_srst_iff.mp ⟨hlegal, hop⟩
  rfl

/-! ### One step -/

/-- Settles O5: the address names `CMD`, whose write issues the word. -/
theorem writeToCmdRunsTheDecodedCommand : Obligations.WriteToCmdRunsTheDecodedCommand := by
  unfold Obligations.WriteToCmdRunsTheDecodedCommand
  intro s rest w i he hd hb
  calc step s = memWrite 0x001 w { s with events := rest } := by simp only [step, he, perform]
    _ = issue w { s with events := rest } := memWrite_cmd w _
    _ = exec i { s with events := rest } := issue_eq_exec hd hb

/-- A table word that decodes is a number of the given bits, read as a word (30_encoding.md R97). -/
theorem decodeTableWord_eq_some {nbits n : Nat} (h : decodeTableWord nbits n = some i) :
    n % 2 ^ nbits = n ∧ decode (BitVec.ofNat 32 n) = .ok i := by
  unfold decodeTableWord tableWord at h
  by_cases hn : nbits ≤ 32 ∧ n < 2 ^ nbits
  · rw [if_pos hn] at h
    refine ⟨Nat.mod_eq_of_lt hn.2, ?_⟩
    cases hd : decode (BitVec.ofNat 32 n) with
    | ok j => simpa [hd, Except.toOption] using h
    | error e => simp [hd, Except.toOption] at h
  · simp [if_neg hn] at h

/-- Settles O6: the placed event is the write of the word itself, to an idle block. -/
theorem fetchedWordRunsNext : Obligations.FetchedWordRunsNext := by
  unfold Obligations.FetchedWordRunsNext
  intro s nbits w i h
  obtain ⟨hmod, hd⟩ := decodeTableWord_eq_some h
  refine writeToCmdRunsTheDecodedCommand (s.withFetchWord nbits w) s.events (BitVec.ofNat 32 w) i ?_ hd (.inl rfl)
  rw [State.withFetchWord, hmod]

/-- Settles O7: both the completion event and the end of the events are the sequencer's step. -/
theorem sequencerStepRunsTheLatchedCommand : Obligations.SequencerStepRunsTheLatchedCommand := by
  unfold Obligations.SequencerStepRunsTheLatchedCommand
  intro s i hb hd hi
  refine ⟨fun he => ?_, fun rest he => ?_⟩
  · simp only [step, he]
    exact complete_busy hb hd hi
  · simp only [step, he]
    exact complete_busy (s := { s with events := rest }) hb hd hi

/-! ### The event registers and `NOP` -/

/-- The acknowledgement's test on `IPEND[1]`, as it stands after the write (43_system.md R186). -/
theorem errBit_acknowledged (p : BitVec 2) (v : Word) :
    (p &&& ~~~(v.extractLsb' 0 2)).getLsbD 1 = (p.getLsbD 1 && !v.getLsbD 1) := by
  simp

/-- Settles O20: each address names its register. -/
theorem eventRegisters : Obligations.EventRegisters := by
  unfold Obligations.EventRegisters
  intro s v
  have hien : region 0x003 = .reg .ien := region_reg (show 3 < 10 by decide)
  refine ⟨?_, memRead_defined hien (by simp) (by simp) rfl, ?_, memRead_defined region_ipend (by simp) (by simp) rfl⟩
  · rw [memWrite, hien]
  · rw [memWrite, region_ipend, ← errBit_acknowledged]
    rfl

/-- Settles O33: `NOP` meets no objection, and its completion is the last line alone. -/
theorem nopCompletes : Obligations.NopCompletes := by
  unfold Obligations.NopCompletes
  exact ⟨acceptedAlways_of_no_objection (decode_encode (i := .nop) rfl) (by decide) fun _ => rfl,
    fun s hbusy => exec_busy hbusy⟩

/-! ### Issue, line by line -/

/-- A number that names an entry is not 511, and the entry is valid (30_encoding.md R92). -/
theorem namesNode_iff {n : Nat} : s.namesNode n = true ↔ ¬ (n = 511 ∨ entryValid (s.entry n) = false) := by
  rw [not_or, Bool.not_eq_false]
  refine ⟨fun h => ⟨?_, h⟩, And.right⟩
  have := le_of_namesNode h
  omega

/-- What an idle block does with `CMP`, in the order of R182. -/
theorem issueLegal_cmp (s : State) (a b : Nat) :
    s.issueLegal (.cmp a b) =
      if s.phase = .empty then s.raiseErr .sequence
      else if s.namesNode a = true ∧ s.namesNode b = true then s.latch (encode (.cmp a b))
      else s.raiseErr .badOperand := by
  split_ifs with hp hn
  · exact issueLegal_refused (by simp [State.objection, hp])
  · exact issueLegal_accepted (by simp [State.objection, hp, hn])
  · exact issueLegal_refused (by simpa [State.objection, hp] using hn)

theorem issueLegal_step (s : State) :
    s.issueLegal .step = if s.phase = .building then s.latch (encode .step) else s.raiseErr .sequence := by
  split_ifs with hp
  · exact issueLegal_accepted (by simp [State.objection, hp])
  · exact issueLegal_refused (by simp [State.objection, hp])

theorem issueLegal_derive (s : State) :
    s.issueLegal .derive =
      if s.phase = .tree ∨ s.phase = .codes then s.latch (encode .derive) else s.raiseErr .sequence := by
  split_ifs with hp <;> rw [← finished_iff] at hp
  · exact issueLegal_accepted (by simp [State.objection, hp])
  · exact issueLegal_refused (by simp [State.objection, hp])

theorem empty_or_building_iff (p : Phase) : p = .empty ∨ p = .building ↔ ¬ (p = .tree ∨ p = .codes) := by
  cases p <;> simp

/-- What an idle block does with a legal word, line by line (43_system.md R182). -/
theorem issueLegal_eq (hd : decode w = .ok i) (hi : i ≠ .srst) (s : State) :
    s.issueLegal i =
      if w.toNat % 16 = 3 ∧ s.phase ≠ .building then s.raiseErr .sequence
      else if w.toNat % 16 = 5 ∧ (s.phase = .empty ∨ s.phase = .building) then s.raiseErr .sequence
      else if w.toNat % 16 = 7 ∧ s.phase = .empty then s.raiseErr .sequence
      else if w.toNat % 16 = 7 ∧
          (operandA w = 511 ∨ operandB w = 511 ∨ entryValid (s.entry (operandA w)) = false ∨
            entryValid (s.entry (operandB w)) = false) then s.raiseErr .badOperand
      else s.latch w := by
  obtain rfl := encode_of_decode hd
  cases i with
  | srst => exact absurd rfl hi
  | step => simp [issueLegal_step, encode]
  | derive => simp [issueLegal_derive, encode, empty_or_building_iff, ite_not, -not_or]
  | cmp a b =>
    obtain ⟨ha, hb⟩ := wellFormed_cmp.mp (wellFormed_of_decode hd)
    have hop : (encode (.cmp a b)).toNat % 16 = 7 := by rw [encode_cmp_toNat ha hb]; omega
    obtain ⟨hA, hB⟩ : a = operandA (encode (.cmp a b)) ∧ b = operandB (encode (.cmp a b)) :=
      Instr.cmp.inj ((operands_of_decode hd).resolve_right fun h => h a b rfl)
    have hnames : (a = 511 ∨ b = 511 ∨ entryValid (s.entry a) = false ∨ entryValid (s.entry b) = false) ↔
        ¬ (s.namesNode a = true ∧ s.namesNode b = true) := by
      rw [namesNode_iff, namesNode_iff]
      tauto
    rw [← hA, ← hB, hop, issueLegal_cmp]
    simp [hnames, ite_not, -not_and]
  | _ => rfl

/-- Settles O12: a word of no legal form by its own line, a legal one by the command it decodes to. -/
theorem issueProcedure : Obligations.IssueProcedure := by
  unfold Obligations.IssueProcedure
  intro w s
  rw [specLegal_srst_iff]
  refine ⟨fun hw => ⟨s.resetBlock, by rw [hw]; exact issue_srst s, specElements_resetBlock s⟩, fun hw => ?_⟩
  by_cases hb : s.busy = true
  · rw [if_pos hb, issue_of_busy hw hb]
  rw [if_neg hb]
  rw [Bool.not_eq_true] at hb
  by_cases hlegal : SpecLegal w
  · obtain ⟨i, hd⟩ := decode_of_specLegal hlegal
    have hi := ne_srst_of_decode hd hw
    rw [if_neg (not_not.mpr hlegal), issue_of_idle hd hi hb, issueLegal_eq hd hi s]
    rfl
  · rw [if_pos hlegal, issue_illegal hlegal, hb]
    rfl

/-! ### Acceptance and completion of a good state's commands -/

/-- In a good state the operands that name an entry are those below `NODE_NEXT` (10_state.md R48 item 2). -/
theorem BlockInv.namesNode_iff_lt (h : BlockInv s) (n : Nat) : s.namesNode n = true ↔ n < s.nodeNext := by
  have hle := h.store.nodeNext_le
  by_cases hn : n < 511
  · rw [State.namesNode, State.entry_eq, h.store.valid_iff n hn, decide_eq_true_iff]
  · exact iff_of_false (fun hnames => hn (Nat.lt_succ_of_le (le_of_namesNode hnames))) (by omega)

/-- Settles O13: issue by R187's table, and the phase that each completion leaves. -/
theorem acceptanceTable : Obligations.AcceptanceTable := by
  unfold Obligations.AcceptanceTable
  refine fun s h => ⟨⟨s.resetBlock, rfl, rfl⟩, fun i hwf hi => ?_⟩
  have hd := decode_encode hwf
  refine ⟨issue_busy hd hi, fun hidle => ?_, fun hbusy hcur => ?_⟩
  · rw [issue_of_idle hd hi hidle]
    cases i with
    | step => exact congrArg _ (issueLegal_step s)
    | derive => exact congrArg _ (issueLegal_derive s)
    | cmp a b => simp only [issueLegal_cmp, h.namesNode_iff_lt]
    | srst => exact absurd rfl hi
    | _ => rfl
  · obtain ⟨j, hj, -, ho⟩ := h.latched hbusy
    obtain rfl := Except.ok.inj (hcur.symm.trans hj)
    rw [exec_busy hbusy]
    cases i with
    | nop => exact ⟨_, rfl, rfl⟩
    | clrf => exact ⟨_, rfl, rfl⟩
    | init =>
      obtain ⟨nodes, -, hcomp⟩ := initCompletion_spec s
      exact ⟨_, hcomp, rfl⟩
    | step =>
      obtain ⟨i1, i2, -, -, hmerge⟩ := h.merge_eq_merged (by simpa [State.objection] using ho)
      exact ⟨(s.merged i1 i2).completed, by simp only [completionOf, stepCompletion, hmerge], rfl⟩
    | build =>
      obtain ⟨u, hu, hphase, -⟩ := exists_buildBody s
      exact ⟨_, buildCompletion_eq hu, hphase⟩
    | derive =>
      obtain ⟨cb, hbody, -⟩ := exists_derived_codes h.store (h.root_mem (by simpa [State.objection] using ho))
      exact ⟨_, deriveCompletion_eq hbody, rfl⟩
    | run =>
      obtain ⟨u, v, hu, hv, -, hphase⟩ := exists_buildBody_deriveBody s
      exact ⟨_, runCompletion_eq hu hv, hphase⟩
    | cmp a b => exact ⟨_, rfl, rfl⟩
    | srst => exact absurd rfl hi

/-! ### No good state is stuck -/

/-- Issue answers a next state for every word in every state (43_system.md R184). -/
theorem exists_issue (w : Word) (s : State) : ∃ t, issue w s = .next t := by
  by_cases hw : w = 0x00000008
  · subst hw
    exact ⟨_, issue_srst s⟩
  · exact ⟨_, (issueProcedure w s).2 (by rwa [specLegal_srst_iff])⟩

theorem exists_memWrite (addr : Addr) (v : Word) (s : State) : ∃ t, memWrite addr v s = .next t := by
  unfold memWrite
  split
  · exact exists_issue v s
  all_goals exact ⟨_, rfl⟩

/-- The sequencer's turn in a good busy state completes the latched command (60_exceptions.md R208). -/
theorem BlockInv.exists_complete (h : BlockInv s) (hb : s.busy = true) :
    ∃ t, complete s = .next t ∧ t.busy = false ∧ t.doneBit = true := by
  obtain ⟨i, hd, hi, ho⟩ := h.latched hb
  obtain ⟨t, ht, -⟩ := inv_completionOf h hi ho
  obtain ⟨hbusy, hipend, -⟩ := completion_fields hi ht
  refine ⟨t, by rw [complete_busy hb hd hi, exec_busy hb, ht], hbusy, ?_⟩
  rw [State.doneBit, hipend]
  simp

/-- Every event of a good state answers a next state. -/
theorem BlockInv.exists_perform (h : BlockInv s) (e : Event) : ∃ t, perform e s = .next t := by
  cases e with
  | read addr => exact ⟨_, rfl⟩
  | write addr v => exact exists_memWrite addr v s
  | completion =>
    cases hb : s.busy with
    | false => exact ⟨s, by simp [perform, complete, hb]⟩
    | true => exact (h.exists_complete hb).imp fun _ ht => ht.1
  | hardReset => exact ⟨_, rfl⟩

/-- Settles O45: the end of the events is one more turn of the sequencer. -/
theorem blockIsNeverStuck : Obligations.BlockIsNeverStuck := by
  unfold Obligations.BlockIsNeverStuck
  intro s h
  unfold step
  split
  · exact h.exists_perform .completion
  · next e rest _ => exact (h.withEvents rest).exists_perform e

/-! ### Every accepted command completes -/

/-- An event of a good busy state that is no reset leaves the block busy or has completed the command. -/
theorem BlockInv.busy_or_done (h : BlockInv s) (hb : s.busy = true) {e : Event} (hp : perform e s = .next t)
    (he : e ≠ .hardReset ∧ e ≠ .write 0x001 0x00000008) : t.busy = true ∨ t.doneBit = true := by
  by_cases hc : e = .completion
  · subst hc
    obtain ⟨u, hu, -, hdone⟩ := h.exists_complete hb
    obtain rfl := Host.Outcome.next.inj (hu.symm.trans hp)
    exact .inr hdone
  · obtain ⟨-, -, hbusy, -⟩ := runningCommandIsUndisturbed s t e h hb hc he.1 he.2 hp
    exact .inl hbusy

/-- Settles O47, by induction on the events: one of them ends the command, or the step after the last does. -/
theorem everyAcceptedCommandCompletes : Obligations.EveryAcceptedCommandCompletes := by
  unfold Obligations.EveryAcceptedCommandCompletes
  intro s
  induction hes : s.events generalizing s with
  | nil =>
    intro h hb
    obtain ⟨t, ht, hidle, hdone⟩ := h.exists_complete hb
    have hstep : step s = .next t := by simp only [step, hes, ht]
    exact ⟨1, t, le_rfl, (run_succ s t 0 hstep).trans (run_zero t), hidle, fun _ => hdone⟩
  | cons e rest ih =>
    intro h hb
    have h' := h.withEvents rest
    obtain ⟨t, ht⟩ := h'.exists_perform e
    have hstep : step s = .next t := by simp only [step, hes, ht]
    cases hidle : t.busy with
    | false =>
      refine ⟨1, t, by simp, (run_succ s t 0 hstep).trans (run_zero t), hidle, fun hne => ?_⟩
      exact (h'.busy_or_done hb ht (hne e List.mem_cons_self)).resolve_left (by simp [hidle])
    | true =>
      obtain ⟨k, u, hk, hrun, hu, hdone⟩ := ih t (perform_events ht) (stepKeepsInvariant s t h hstep) hidle
      refine ⟨k + 1, u, Nat.succ_le_succ hk, (run_succ s t k hstep).trans hrun, hu, fun hne => hdone fun e' he' => ?_⟩
      exact hne e' (List.mem_cons_of_mem _ he')

end Sys2Proof.Machine

/-! ### The error record -/

namespace Sys2Proof.Machine

variable {s t : State}

/-- An error on record in `s` is on record in `t` with the same code (60_exceptions.md R200). -/
def ErrorKept (s t : State) : Prop := s.errBit = true → t.errBit = true ∧ t.errCode = s.errCode

theorem ErrorKept.of_eq (hipend : t.ipend = s.ipend) (hcode : t.errCode = s.errCode) : ErrorKept s t :=
  fun he => ⟨by rwa [State.errBit, hipend], hcode⟩

/-- The first error keeps its code (60_exceptions.md R199). -/
theorem raiseErr_errorKept (s : State) (e : ErrorKind) : ErrorKept s (s.raiseErr e) :=
  fun he => ⟨errBit_raised s.ipend, if_pos he⟩

/-- An acknowledgement that does not write `IPEND[1]` leaves the error on record (60_exceptions.md R201). -/
theorem ackEvents_errorKept {v : Word} (hv : v.getLsbD 1 = false) : ErrorKept s (s.ackEvents v) := by
  intro he
  have hbit : (s.ackEvents v).errBit = true :=
    (errBit_acknowledged s.ipend v).trans (by rw [show s.ipend.getLsbD 1 = true from he, hv]; rfl)
  exact ⟨hbit, if_pos hbit⟩

theorem memRead_errorKept (addr : Addr) (s : State) : ErrorKept s (memRead addr s) := by
  rcases memRead_cases addr s with ⟨-, hr⟩ | ⟨-, -, f, hr⟩ | ⟨-, hr⟩ <;> rw [hr]
  · exact raiseErr_errorKept s .badAddr
  · exact .of_eq rfl rfl
  · exact .of_eq rfl rfl

theorem issue_errorKept {w : Word} (h : issue w s = .next t) (hw : w ≠ 0x00000008) : ErrorKept s t := by
  rcases issue_cases h with ⟨hd, -⟩ | ⟨-, -, rfl⟩ | ⟨-, -, rfl⟩ | ⟨-, i, -, -, rfl⟩
  · exact absurd ((decode_eq_srst_iff w).mp hd) hw
  · exact raiseErr_errorKept s _
  · exact raiseErr_errorKept s _
  · cases ho : s.objection i with
    | some e => rw [issueLegal_refused ho]; exact raiseErr_errorKept s e
    | none => rw [issueLegal_accepted ho]; exact .of_eq rfl rfl

/-- A host write that neither resets nor acknowledges the error leaves it on record. -/
theorem memWrite_errorKept {addr : Addr} {v : Word} (h : memWrite addr v s = .next t)
    (hreset : addr = 0x001 → v ≠ 0x00000008) (hack : addr = 0x004 → v.getLsbD 1 = false) : ErrorKept s t := by
  rcases memWrite_cases h with ⟨hr, hi⟩ | ⟨-, rfl⟩ | ⟨hr, rfl⟩ | ⟨b, -, rfl⟩ | ⟨-, rfl⟩ | rfl
  · exact issue_errorKept hi (hreset (addr_of_region_cmd hr))
  · exact .of_eq rfl rfl
  · exact ackEvents_errorKept (hack (addr_of_region_ipend hr))
  · unfold State.hostFreqWrite
    split
    · exact raiseErr_errorKept s _
    · exact .of_eq rfl rfl
  · exact raiseErr_errorKept s _
  · exact raiseErr_errorKept s _

/-- A completion sets `IPEND[0]` and does not touch the error record (43_system.md R183). -/
theorem complete_errorKept (h : complete s = .next t) : ErrorKept s t := by
  rcases complete_cases h with ⟨-, rfl⟩ | ⟨-, i, hi, -, hc⟩
  · exact .of_eq rfl rfl
  · obtain ⟨-, hipend, -, -, hcode, -⟩ := completion_fields hi hc
    have hbit : t.errBit = s.completed.errBit := congrArg (·.getLsbD 1) hipend
    exact fun he => ⟨(hbit.trans (errBit_completed s)).trans he, hcode⟩

/-- Settles O19, by the cases of one step: every event but the two the statement excludes keeps the error. -/
theorem firstErrorStaysOnRecord : Obligations.FirstErrorStaysOnRecord := by
  unfold Obligations.FirstErrorStaysOnRecord
  intro s t hstep he hreset hack
  rcases step_cases hstep with ⟨-, hc⟩ | ⟨rest, ⟨-, hc⟩ | ⟨addr, -, rfl⟩ | ⟨addr, v, hev, hw⟩ | ⟨hev, -⟩⟩
  · exact complete_errorKept hc he
  · exact complete_errorKept (s := { s with events := rest }) hc he
  · exact memRead_errorKept addr { s with events := rest } he
  · have hsrst : addr = 0x001 → v ≠ 0x00000008 := fun ha hv => hreset ⟨rest, .inr (by rw [hev, ha, hv])⟩
    have hbit : addr = 0x004 → v.getLsbD 1 = false := fun ha =>
      Bool.eq_false_iff.mpr fun hv => hack ⟨v, rest, by rw [hev, ha], hv⟩
    exact memWrite_errorKept (s := { s with events := rest }) hw hsrst hbit he
  · exact absurd ⟨rest, .inl hev⟩ hreset

/-! ### What records which error -/

/-- Settles O18, cause by cause: each has its own code. -/
theorem errorRecording : Obligations.ErrorRecording := by
  unfold Obligations.ErrorRecording
  intro s e
  cases e <;> rfl

/-- Settles O14: the write issues the word, and issue refuses a word of no legal form. -/
theorem illegalWordIsRefused : Obligations.IllegalWordIsRefused := by
  unfold Obligations.IllegalWordIsRefused
  intro s w h
  rw [memWrite_cmd, issue_illegal h, State.raiseErr, apply_ite ErrorKind.code]
  rfl

/-- A host write to `IPEND` is an acknowledgement (20_memory.md R82). -/
theorem memWrite_ipend (v : Word) (s : State) : memWrite 0x004 v s = .next (s.ackEvents v) := by
  rw [memWrite, region_ipend]

/-- A read of a mapped address records no error (60_exceptions.md R194). -/
theorem memRead_mapped_error {addr : Addr} (h : ¬ SpecUnmapped addr.toNat) (s : State) :
    (memRead addr s).errCode = s.errCode ∧ (memRead addr s).ipend = s.ipend := by
  rcases memRead_cases addr s with ⟨hr, -⟩ | ⟨-, -, f, hr⟩ | ⟨-, hr⟩
  · exact absurd ((region_unmapped_iff addr).mp hr) h
  · rw [hr]; exact ⟨rfl, rfl⟩
  · rw [hr]; exact ⟨rfl, rfl⟩

/-- Settles O15, clause by clause: each address names its register or its entry of `FT`. -/
theorem busyErrorWhileRunning : Obligations.BusyErrorWhileRunning := by
  unfold Obligations.BusyErrorWhileRunning
  intro s hbusy
  refine ⟨fun w hw => (memWrite_cmd w s).trans (issue_of_busy hw hbusy), fun b v hb => ?_,
    fun addr h => memRead_mapped_error h s, fun v => (eventRegisters s v).1, fun v => memWrite_ipend v s⟩
  rw [memWrite_ft hb, hostFreqWrite_busy hbusy]

/-- Settles O16: the addresses of the spec's list are those the map says are unmapped. -/
theorem unmappedAddressIsRefused : Obligations.UnmappedAddressIsRefused := by
  unfold Obligations.UnmappedAddressIsRefused
  intro s addr h
  have hr : region addr = .unmapped := (region_unmapped_iff addr).mpr h
  exact ⟨if_pos hr, fun v => by rw [memWrite, hr]⟩

/-- Settles O17: of the things a host write can do, all but the refusal need an address that is not on the list. -/
theorem readOnlyWriteIsRefused : Obligations.ReadOnlyWriteIsRefused := by
  unfold Obligations.ReadOnlyWriteIsRefused
  intro s addr v h
  obtain ⟨t, ht⟩ := exists_memWrite addr v s
  rcases memWrite_cases ht with ⟨hr, -⟩ | ⟨hr, -⟩ | ⟨hr, -⟩ | ⟨b, hr, -⟩ | ⟨hr, -⟩ | rfl
  · obtain rfl := addr_of_region_cmd hr
    exact absurd h (by decide)
  · obtain rfl := addr_of_region_ien hr
    exact absurd h (by decide)
  · obtain rfl := addr_of_region_ipend hr
    exact absurd h (by decide)
  · obtain ⟨hb, rfl⟩ := addr_of_region_ft hr
    have hlt : (BitVec.ofNat 13 (0x100 + b)).toNat = 0x100 + b := Nat.mod_eq_of_lt (by omega)
    rw [hlt] at h
    omega
  · have hu := (region_unmapped_iff addr).mp hr
    omega
  · exact ht

end Sys2Proof.Machine

/-! ### Both resets -/

namespace Sys2Proof.Machine

variable {s : State} {r : Region}

/-- An address that names a control register is one of the first ten (10_state.md R33). -/
theorem regAt_of_region_reg {addr : Addr} {q : Reg} (h : region addr = .reg q) :
    addr.toNat < 10 ∧ regAt addr.toNat = q := by
  unfold region at h
  dsimp only at h
  split_ifs at h with hlt
  exact ⟨hlt, Region.reg.inj h⟩

theorem addr_of_region_id {addr : Addr} (h : region addr = .reg .id) : addr = 0x000 := by
  obtain ⟨hlt, hreg⟩ := regAt_of_region_reg h
  have hnum : ∀ a < 10, regAt a = .id → a = 0 := by decide
  exact BitVec.eq_of_toNat_eq (hnum _ hlt hreg)

theorem addr_of_region_params {addr : Addr} (h : region addr = .reg .params) : addr = 0x009 := by
  obtain ⟨hlt, hreg⟩ := regAt_of_region_reg h
  have hnum : ∀ a < 10, regAt a = .params → a = 9 := by decide
  exact BitVec.eq_of_toNat_eq (hnum _ hlt hreg)

/-- Every control register but the two constants is 0 after a reset (10_state.md R49). -/
theorem regWord_resetBlock {q : Reg} (hid : q ≠ .id) (hparams : q ≠ .params) : s.resetBlock.regWord q = 0 := by
  have hreset : s.resetBlock.regWord q = State.reset.regWord q := by cases q <;> rfl
  rw [hreset]
  cases q with
  | id => exact absurd rfl hid
  | params => exact absurd rfl hparams
  | cmd | status | ien | ipend | errCode | root | counts | wcLen => decide

/-- After a reset every location but the two constants holds 0: the stores are empty (70_reset_and_hazards.md R221). -/
theorem peek_resetBlock (hid : r ≠ .reg .id) (hparams : r ≠ .reg .params) : s.resetBlock.peek r = 0 := by
  cases r with
  | reg q => exact regWord_resetBlock (fun h => hid (congrArg Region.reg h)) fun h => hparams (congrArg Region.reg h)
  | unmapped => rfl
  | ft b => exact s.freqOf_clearFreqs b
  | wc i => rfl
  | node n f => exact (congrArg (nodeWord · f) (entryAt_replicate n)).trans (nodeWord_none f)
  | cb b w => exact congrArg (codeWord · w) (codeOf_replicate (t := s.resetBlock) rfl b)

/-- What a read of a mapped address returns after a reset (70_reset_and_hazards.md R221). -/
theorem memRead_resetBlock {addr : Addr} (h : region addr ≠ .unmapped) :
    memRead addr s.resetBlock = s.resetBlock.reply
      (if addr = 0x000 then 0x48544231 else if addr = 0x009 then 0x01002820 else 0) := by
  obtain ⟨hreadId, -, -, -, -, hreadParams⟩ := alwaysDefinedRegisters s.resetBlock
  split_ifs with hid hparams
  · rw [hid, hreadId]
  · rw [hparams, hreadParams]
  · rw [memRead_idle (s := s.resetBlock) rfl rfl h,
      peek_resetBlock (fun hr => hid (addr_of_region_id hr)) fun hr => hparams (addr_of_region_params hr)]

/-- The interrupt line is low after a reset (10_state.md R49, R51). -/
theorem irq_resetBlock (s : State) : s.resetBlock.irq = false := by
  simp [State.irq, State.doneBit, State.errBit]

/-- The step of either reset (70_reset_and_hazards.md R220). -/
theorem step_reset {rest : List Event}
    (h : s.events = .hardReset :: rest ∨ s.events = .write 0x001 0x00000008 :: rest) :
    step s = .next { s with events := rest }.resetBlock := by
  rcases h with he | he
  · rw [step, he]
    exact perform_reset (.inl rfl) _
  · rw [step, he]
    exact perform_reset (.inr rfl) _

/-- Settles O11: both events are the same reset, whose stores are empty and whose registers are 0 but for the two
constants. -/
theorem bothResetsGiveTheResetState : Obligations.BothResetsGiveTheResetState := by
  unfold Obligations.BothResetsGiveTheResetState
  intro s rest h
  exact ⟨{ s with events := rest }.resetBlock, step_reset h, rfl, irq_resetBlock _,
    fun addr hmapped => memRead_resetBlock fun hr => hmapped ((region_unmapped_iff addr).mp hr)⟩

end Sys2Proof.Machine
